-- ==== Sys2Proof/Word.lean ====
section
/-! DEFINITION. The word types: 8-bit bytes, 16-bit halves (`FLAGS`, `CLOCKS`, a "dword" of this system) and 32-bit words (registers, addresses, a "qword" of this system). 00_scope.md R7. -/

namespace Sys2Proof

/-- A byte: one memory cell, an opcode, mode, size or register-code byte, a port number, an interrupt line. -/
abbrev Byte := BitVec 8

/-- 16 bits: the width of `FLAGS` and `CLOCKS` (10_state.md R17). -/
abbrev Half := BitVec 16

/-- 32 bits: a general register, a special register, an address (00_scope.md R5, `XLEN`). -/
abbrev Word := BitVec 32

end Sys2Proof
end

