-- ==== Sys2Proof/Syntax.lean ====
section
/-! DEFINITION. The names of the instruction set: registers and their views, operand sizes, operand kinds, addressing modes, opcodes, fault kinds, and `Instr` with one constructor per row of spec/opcode_table.json. -/

namespace Sys2Proof

/-- The ten general registers, in the order of their index 0 to 9 (10_state.md R10, R11). -/
inductive GReg where
  | a | b | c | d | e | f | w | x | y | z
  deriving DecidableEq, Repr

/-- The seven views of a general register, in the order of their index 0 to 6 (10_state.md R12). -/
inductive View where
  | full | h | l | hh | hl | lh | ll
  deriving DecidableEq, Repr

/-- The six special registers that have a register code (10_state.md R16, R17). -/
inductive SReg where
  | cs | ds | ss | pc | sp | bp
  deriving DecidableEq, Repr

/-- A register operand: one of the 76 codes of 10_state.md R16. -/
inductive Reg where
  | view (r : GReg) (v : View)
  | special (r : SReg)
  deriving DecidableEq, Repr

/-- Operand widths: word, dword and qword are 1, 2 and 4 bytes here (00_scope.md R7; 30_encoding.md R66). -/
inductive Size where
  | word | dword | qword
  deriving DecidableEq, Repr

/-- The four operand kinds (30_encoding.md R63): Immediate, Register, Indirect (an absolute address in the stream), Register-Indirect. -/
inductive Kind where
  | imm | reg | abs | ind
  deriving DecidableEq, Repr

/-- The 20 addressing modes (30_encoding.md R63): 16 pairs of kinds and 4 single kinds. -/
inductive Mode where
  | pair (k1 k2 : Kind)
  | single (k1 : Kind)
  deriving DecidableEq, Repr

/-- The 42 named opcodes (30_encoding.md R72). -/
inductive Opcode where
  | mov | push | pop | pusha | popa | mmset | mmcpy
  | add | sub | mul | div | mod | inc | dec
  | and | or | not | shl | shr
  | cmp | jmp | je | jne | jl | jle | jg | jge | call | calle | ret | iret
  | inb | inw | inq | outb | outw | outq
  | hlt | sti | cli | ldidt | intr
  deriving DecidableEq, Repr

/-- The instructions: one constructor per row of spec/opcode_table.json. In a MOV name the two letters are the kinds of the
destination and the source (R register, I immediate, A absolute address, P register-indirect); a sized MOV carries its size byte. -/
inductive Instr where
  -- 40_mov.md R90, R93
  | movRI (n : Size) (r1 : Reg) (v : Word)
  | movRR (r1 r2 : Reg)
  | movRA (n : Size) (r1 : Reg) (a2 : Word)
  | movRP (n : Size) (r1 r2 : Reg)
  | movAI (n : Size) (a1 : Word) (v : Word)
  | movAR (n : Size) (a1 : Word) (r2 : Reg)
  | movAA (n : Size) (a1 a2 : Word)
  | movAP (n : Size) (a1 : Word) (r2 : Reg)
  | movPI (n : Size) (r1 : Reg) (v : Word)
  | movPR (n : Size) (r1 r2 : Reg)
  | movPA (n : Size) (r1 : Reg) (a2 : Word)
  | movPP (n : Size) (r1 r2 : Reg)
  -- 45_stack_block.md R160 to R165
  | push | pop | pusha | popa | mmset | mmcpy
  -- 42_alu.md R120 to R131
  | addRI (r1 : Reg) (v : Word)
  | addRR (r1 r2 : Reg)
  | sub
  | mulRI (r1 : Reg) (v : Word)
  | mulRR (r1 r2 : Reg)
  | div | mod
  | inc (r1 : Reg)
  | dec | and
  | orRI (r1 : Reg) (v : Word)
  | orRR (r1 r2 : Reg)
  | not
  | shlRI (r1 : Reg) (v : Word)
  | shlRR (r1 r2 : Reg)
  | shr
  -- 41_compare_and_control.md R101 to R112
  | cmpRI (r1 : Reg) (v : Word)
  | cmpRR (r1 r2 : Reg)
  | jmp (t : Word)
  | je (t : Word)
  | jne (t : Word)
  | jl (t : Word)
  | jle | jg | jge
  | call (t : Word)
  | calle (t : Word)
  | ret | iret
  -- 43_port_io.md R140 to R147
  | inbII (p : Byte) (v : Byte)
  | inbIR (p : Byte) (r2 : Reg)
  | inbIA (p : Byte) (a2 : Word)
  | inw | inq
  | outbRI (r1 : Reg) (p : Byte)
  | outw | outq
  -- 44_system.md R150 to R154
  | hlt | sti | cli
  | ldidt (t : Word)
  | intr
  deriving DecidableEq, Repr

/-- The ten fault kinds (60_exceptions.md R170); their codes are in the encoding (`Encoding.fault`, log 10). -/
inductive FaultKind where
  | none
  | unimplementedOpcode
  | unimplementedMode
  | impossibleMode
  | invalidMode
  | invalidSize
  | invalidRegister
  | busError
  | portUnclaimed
  | idtUnset
  deriving DecidableEq, Repr

end Sys2Proof
end

