-- ==== Sys2Proof/Config.lean ====
section
/-! DEFINITION. What an implementation fixes (00_scope.md R5, 10_state.md R30) and the free values of the environment (10_state.md R30, 93_implementation_defined.md U23, U24): constants with no body, so that no proof can see what they are. -/

namespace Sys2Proof

/-- Memory contents: (address, byte) pairs in one canonical form (`Memory.wf` of Machine/Memory.lean). -/
abbrev Memory := List Host.Cell

/-- A registered memory-mapped region: the addresses `start .. start + size - 1` (20_memory.md R41).
What its `read8` and `write8` do is the device's affair: see `Config.regionByte` and `DeviceEvent`. -/
structure Region where
  start : Nat
  size : Nat
  deriving DecidableEq, Repr

/-- The three data widths of the port space (20_memory.md R53). -/
inductive PortWidth where
  | w8 | w16 | w32
  deriving DecidableEq, Repr

/-- `FLAG_BITS`: the positions of the four flags in `FLAGS` (00_scope.md R5, R6; 10_state.md R19). -/
structure FlagBits where
  zero : Fin 16
  underflow : Fin 16
  overflow : Fin 16
  parity : Fin 16
  deriving DecidableEq, Repr

/-- `STATUS_BITS`: the positions of the eight status bits in `STATUS` (00_scope.md R5, R6; 10_state.md R22). -/
structure StatusBits where
  on : Fin 32
  halted : Fin 32
  sleeping : Fin 32
  hibernating : Fin 32
  breakpoint : Fin 32
  fault : Fin 32
  dfault : Fin 32
  tfault : Fin 32
  deriving DecidableEq, Repr

/-- The numeric encodings, as configuration (00_scope.md R6): tables of names and numbers, and bit positions. The spec's values are
`Encoding.spec`. -/
structure Encoding where
  /-- `OPCODE_MAP` (30_encoding.md R72). -/
  opcodes : List (Opcode × Byte)
  /-- `MODE_MAP` (30_encoding.md R63). -/
  modes : List (Mode × Byte)
  /-- `REG_CODE_MAP` (10_state.md R16). -/
  regs : List (Reg × Byte)
  /-- `SIZE_MAP` (30_encoding.md R66). -/
  sizes : List (Size × Byte)
  /-- The codes of the fault kinds (60_exceptions.md R170). -/
  faults : List (FaultKind × BitVec 4)
  flags : FlagBits
  status : StatusBits
  deriving DecidableEq, Repr

/-- The parameters of the core (00_scope.md R5). A port map is the list of the ports that have a handler; handlers themselves are
the environment's. -/
structure Config where
  /-- `XLEN`: 32 in every well-formed configuration, the width of `Word` (log 2). -/
  xlen : Nat
  /-- `NGPR`: 10 in every well-formed configuration, the number of names of `GReg` (log 2). -/
  ngpr : Nat
  /-- `MEM_SIZE`: RAM is the bytes at `0 .. memSize - 1` (70_reset_and_hazards.md R216). -/
  memSize : Nat
  /-- `CLOCK_HZ`: used by no rule (60_exceptions.md R191). -/
  clockHz : Nat
  /-- `REGIONS`, in registration order (20_memory.md R41). -/
  regions : List Region
  portIn8 : List Byte
  portIn16 : List Byte
  portIn32 : List Byte
  portOut8 : List Byte
  portOut16 : List Byte
  portOut32 : List Byte
  /-- `MEM0`, the initial contents of RAM (92_eei_decisions.md D38). -/
  mem0 : Memory
  /-- `OPCODE_MAP`, `MODE_MAP`, `REG_CODE_MAP`, `SIZE_MAP`, `FLAG_BITS`, `STATUS_BITS` and the fault codes. -/
  encoding : Encoding
  deriving DecidableEq, Repr

/-- What a device sees of the core: one event per byte access of a region and per handler call, each made exactly once
(20_memory.md R42, R43, R54, R55, R58). -/
inductive DeviceEvent where
  /-- `read8(abs, rel)` of region `g`. -/
  | regionRead (g : Region) (abs rel : Word)
  /-- `write8(abs, rel, v)` of region `g`. -/
  | regionWrite (g : Region) (abs rel : Word) (v : Byte)
  /-- The inbound-delivery handler of port `p` receives `v`. -/
  | portDeliver (w : PortWidth) (p : Byte) (v : Word)
  /-- The outbound-request handler of port `p` is asked for a value. -/
  | portRequest (w : PortWidth) (p : Byte)
  deriving DecidableEq, Repr

/-- DESIGN CHOICE, log 3, safe: what a region's `read8` answers when the script has no answer left. A free value: it may depend
on the draw's number, on everything the devices have seen up to and with this read, on the region and on the address
(20_memory.md R42). -/
opaque Config.regionByte : Nat → List DeviceEvent → Region → Word → Byte

/-- DESIGN CHOICE, log 3, safe: what an outbound-request handler answers when the script has no answer left; the list ends with this
request (20_memory.md R55). -/
opaque Config.portValue : Nat → List DeviceEvent → PortWidth → Byte → Word

/-- DESIGN CHOICE, log 3, safe: the line a port handler raises, if any, when the script has no answer left. The list ends with this
call, and so with the value delivered in it: a handler may raise the byte it receives (43_port_io.md R142; 95_test_vectors.md 2.12). -/
opaque Config.portRaise : Nat → List DeviceEvent → PortWidth → Byte → Option Byte

end Sys2Proof
end

