-- ==== Sys2Proof/WellFormed.lean ====
section
/-! DEFINITION. Well-formed instructions: those some byte sequence encodes. Registers, sizes, ports, addresses and 32-bit literals are right by their types; the literal of a sized MOV must fit the bytes its size byte gives it (30_encoding.md R64, R66). -/

namespace Sys2Proof

/-- The width in bytes a size names (30_encoding.md R66). -/
def Size.bytes : Size → Nat
  | .word => 1
  | .dword => 2
  | .qword => 4

/-- The literal fits in the `n` bytes that a sized MOV gives it. -/
def Size.fits (n : Size) (v : Word) : Bool := decide (v.toNat < 2 ^ (8 * n.bytes))

/-- The literal of the three MOV forms that carry one fits its size; every other instruction is well formed by its type. -/
def Instr.wf : Instr → Bool
  | .movRI n _ v | .movAI n _ v | .movPI n _ v => n.fits v
  | .movRR .. | .movRA .. | .movRP .. | .movAR .. | .movAA .. | .movAP .. | .movPR .. | .movPA .. | .movPP ..
  | .push | .pop | .pusha | .popa | .mmset | .mmcpy
  | .addRI .. | .addRR .. | .sub | .mulRI .. | .mulRR .. | .div | .mod | .inc _ | .dec | .and | .orRI .. | .orRR .. | .not
  | .shlRI .. | .shlRR .. | .shr
  | .cmpRI .. | .cmpRR .. | .jmp _ | .je _ | .jne _ | .jl _ | .jle | .jg | .jge | .call _ | .calle _ | .ret | .iret
  | .inbII .. | .inbIR .. | .inbIA .. | .inw | .inq | .outbRI .. | .outw | .outq
  | .hlt | .sti | .cli | .ldidt _ | .intr => true

end Sys2Proof
end

