-- ==== Sys2Proof/Decode.lean ====
section
/-! DEFINITION. The encoding of 30_encoding.md: the numeric tables (R63, R66, R72; 10_state.md R16), the decoder as a script of
fetches in the fixed order of R78, the decoding of a byte list, and the encoder, over the tables of a configuration (00_scope.md R6). -/

namespace Sys2Proof

/-! ## The spec's own numbers (00_scope.md R6) -/

/-- `OPCODE_MAP` (30_encoding.md R72). -/
def Opcode.byte : Opcode → Byte
  | .mov => 0x01 | .push => 0x02 | .pop => 0x03 | .pusha => 0x04 | .popa => 0x05 | .mmset => 0x06 | .mmcpy => 0x07
  | .add => 0x10 | .sub => 0x11 | .mul => 0x12 | .div => 0x13 | .mod => 0x14 | .inc => 0x15 | .dec => 0x16
  | .and => 0x20 | .or => 0x21 | .not => 0x22 | .shl => 0x23 | .shr => 0x24
  | .cmp => 0x30 | .jmp => 0x31 | .je => 0x32 | .jne => 0x33 | .jl => 0x34 | .jle => 0x35 | .jg => 0x36 | .jge => 0x37
  | .call => 0x38 | .calle => 0x39 | .ret => 0x3A | .iret => 0x3B
  | .inb => 0x40 | .inw => 0x41 | .inq => 0x42 | .outb => 0x43 | .outw => 0x44 | .outq => 0x45
  | .hlt => 0x50 | .sti => 0x51 | .cli => 0x52 | .ldidt => 0x53 | .intr => 0x54

/-- The 42 named opcodes (30_encoding.md R72). -/
def Opcode.all : List Opcode :=
  [.mov, .push, .pop, .pusha, .popa, .mmset, .mmcpy, .add, .sub, .mul, .div, .mod, .inc, .dec, .and, .or, .not, .shl, .shr,
   .cmp, .jmp, .je, .jne, .jl, .jle, .jg, .jge, .call, .calle, .ret, .iret, .inb, .inw, .inq, .outb, .outw, .outq,
   .hlt, .sti, .cli, .ldidt, .intr]

/-- Kind numbers (30_encoding.md R63). -/
def Kind.number : Kind → Nat
  | .imm => 0 | .reg => 1 | .abs => 2 | .ind => 3

/-- `MODE_MAP`: a pair is `4*k1 + k2`, a single kind `16 + k1` (30_encoding.md R63). -/
def Mode.byte : Mode → Byte
  | .pair k1 k2 => BitVec.ofNat 8 (4 * k1.number + k2.number)
  | .single k1 => BitVec.ofNat 8 (16 + k1.number)

/-- The four kinds. -/
def Kind.all : List Kind := [.imm, .reg, .abs, .ind]

/-- The 20 modes. -/
def Mode.all : List Mode := (Kind.all.flatMap fun k1 => Kind.all.map fun k2 => .pair k1 k2) ++ Kind.all.map .single

/-- `SIZE_MAP`: the width in bytes (30_encoding.md R66). -/
def Size.byte (n : Size) : Byte := BitVec.ofNat 8 n.bytes

/-- The index of a general register (10_state.md R11). -/
def GReg.index : GReg → Nat
  | .a => 0 | .b => 1 | .c => 2 | .d => 3 | .e => 4 | .f => 5 | .w => 6 | .x => 7 | .y => 8 | .z => 9

/-- The index of a view (10_state.md R12). -/
def View.index : View → Nat
  | .full => 0 | .h => 1 | .l => 2 | .hh => 3 | .hl => 4 | .lh => 5 | .ll => 6

/-- `REG_CODE_MAP`: `c[7:4]` the register and `c[3:0]` the view; `0xA0 .. 0xA5` the coded special registers (10_state.md R16). -/
def Reg.code : Reg → Byte
  | .view r v => BitVec.ofNat 8 (16 * r.index + v.index)
  | .special .cs => 0xA0
  | .special .ds => 0xA1
  | .special .ss => 0xA2
  | .special .pc => 0xA3
  | .special .sp => 0xA4
  | .special .bp => 0xA5

/-- The ten general registers. -/
def GReg.all : List GReg := [.a, .b, .c, .d, .e, .f, .w, .x, .y, .z]

/-- The seven views. -/
def View.all : List View := [.full, .h, .l, .hh, .hl, .lh, .ll]

/-- The six coded special registers. -/
def SReg.all : List SReg := [.cs, .ds, .ss, .pc, .sp, .bp]

/-- The 76 register operands (10_state.md R16). -/
def Reg.all : List Reg := (GReg.all.flatMap fun r => View.all.map fun v => .view r v) ++ SReg.all.map .special

/-- The three sizes. -/
def Size.all : List Size := [.word, .dword, .qword]

/-- The codes of the fault kinds (60_exceptions.md R170). -/
def FaultKind.specCode : FaultKind → BitVec 4
  | .none => 0
  | .unimplementedOpcode => 1
  | .unimplementedMode => 2
  | .impossibleMode => 3
  | .invalidMode => 4
  | .invalidSize => 5
  | .invalidRegister => 6
  | .busError => 7
  | .portUnclaimed => 8
  | .idtUnset => 9

/-- The ten fault kinds (60_exceptions.md R170). -/
def FaultKind.all : List FaultKind :=
  [.none, .unimplementedOpcode, .unimplementedMode, .impossibleMode, .invalidMode, .invalidSize, .invalidRegister, .busError,
   .portUnclaimed, .idtUnset]

/-- `FLAG_BITS`, the spec's positions (10_state.md R19). -/
def FlagBits.spec : FlagBits where
  zero := 0
  underflow := 1
  overflow := 2
  parity := 3

/-- `STATUS_BITS`, the spec's positions (10_state.md R22). -/
def StatusBits.spec : StatusBits where
  on := 0
  halted := 1
  sleeping := 2
  hibernating := 3
  breakpoint := 4
  fault := 5
  dfault := 6
  tfault := 7

/-- The spec's own numeric encodings: the defaults of the configuration (00_scope.md R5, R6). -/
def Encoding.spec : Encoding where
  opcodes := Opcode.all.map fun o => (o, o.byte)
  modes := Mode.all.map fun m => (m, m.byte)
  regs := Reg.all.map fun r => (r, r.code)
  sizes := Size.all.map fun n => (n, n.byte)
  faults := FaultKind.all.map fun k => (k, k.specCode)
  flags := FlagBits.spec
  status := StatusBits.spec

/-! ## Reading the tables of a configuration -/

/-- The number a table gives a name; 0 for a name it leaves out, which no well-formed table does. -/
def codeOf {α : Type} [DecidableEq α] {w : Nat} : List (α × BitVec w) → α → BitVec w
  | [], _ => 0
  | (y, v) :: rest, x => if x = y then v else codeOf rest x

/-- The name a table gives a number; none where it gives none. -/
def nameOf? {α : Type} {w : Nat} : List (α × BitVec w) → BitVec w → Option α
  | [], _ => none
  | (y, v) :: rest, b => if b = v then some y else nameOf? rest b

/-- A table has one row for each name, in their order, and no number twice. -/
def tableWf {α : Type} [DecidableEq α] {w : Nat} (names : List α) (t : List (α × BitVec w)) : Bool :=
  decide (t.map Prod.fst = names) && decide (t.map Prod.snd).Nodup

/-- `OPCODE_MAP` of a configuration. -/
def Encoding.opcode (e : Encoding) (o : Opcode) : Byte := codeOf e.opcodes o

/-- `MODE_MAP` of a configuration. -/
def Encoding.mode (e : Encoding) (m : Mode) : Byte := codeOf e.modes m

/-- `REG_CODE_MAP` of a configuration. -/
def Encoding.reg (e : Encoding) (r : Reg) : Byte := codeOf e.regs r

/-- `SIZE_MAP` of a configuration. -/
def Encoding.size (e : Encoding) (n : Size) : Byte := codeOf e.sizes n

/-- The code of a fault kind in a configuration: the value of `FKIND` (10_state.md R27; log 10). -/
def Encoding.fault (e : Encoding) (k : FaultKind) : BitVec 4 := codeOf e.faults k

/-- The dispatch table, indexed by the opcode byte: none is the default entry of an unassigned value (30_encoding.md R62, R73). -/
def Encoding.opcode? (e : Encoding) (b : Byte) : Option Opcode := nameOf? e.opcodes b

/-- A mode byte: none is a value outside the enumeration (30_encoding.md R63). -/
def Encoding.mode? (e : Encoding) (b : Byte) : Option Mode := nameOf? e.modes b

/-- A register-code byte: none is one of the 180 values that name no register (10_state.md R16). -/
def Encoding.reg? (e : Encoding) (b : Byte) : Option Reg := nameOf? e.regs b

/-- A size byte: none is a value that names no size (30_encoding.md R66). -/
def Encoding.size? (e : Encoding) (b : Byte) : Option Size := nameOf? e.sizes b

/-- The flags have four places in `FLAGS` (10_state.md R19). -/
def FlagBits.wf (b : FlagBits) : Bool := decide [b.zero, b.underflow, b.overflow, b.parity].Nodup

/-- The status bits have eight places in `STATUS` (10_state.md R22). -/
def StatusBits.wf (b : StatusBits) : Bool :=
  decide [b.on, b.halted, b.sleeping, b.hibernating, b.breakpoint, b.fault, b.dfault, b.tfault].Nodup

/-- Encodings that tell every name from every other (00_scope.md R6). -/
def Encoding.wf (e : Encoding) : Bool :=
  tableWf Opcode.all e.opcodes && tableWf Mode.all e.modes && tableWf Reg.all e.regs && tableWf Size.all e.sizes &&
  tableWf FaultKind.all e.faults && e.flags.wf && e.status.wf

/-! ## Operand counts and impossible modes (30_encoding.md R70, R71) -/

/-- The number of operands an implemented opcode takes; the named unimplemented ones take none (format `FU`). -/
def Opcode.operands : Opcode → Nat
  | .mov | .add | .mul | .or | .shl | .cmp | .inb | .outb => 2
  | .inc | .jmp | .je | .jne | .jl | .call | .calle | .ldidt => 1
  | .push | .pop | .pusha | .popa | .mmset | .mmcpy | .sub | .div | .mod | .dec | .and | .not | .shr | .jle | .jg | .jge
  | .ret | .iret | .inw | .inq | .outw | .outq | .hlt | .sti | .cli | .intr => 0

/-- The opcodes whose operand 1 is written (30_encoding.md R71). -/
def Opcode.writesFirst : Opcode → Bool
  | .mov | .add | .mul | .or | .shl | .inc | .outb => true
  | .push | .pop | .pusha | .popa | .mmset | .mmcpy | .sub | .div | .mod | .dec | .and | .not | .shr
  | .cmp | .jmp | .je | .jne | .jl | .jle | .jg | .jge | .call | .calle | .ret | .iret
  | .inb | .inw | .inq | .outw | .outq | .hlt | .sti | .cli | .ldidt | .intr => false

/-- The number of operands of a mode. -/
def Mode.operands : Mode → Nat
  | .pair _ _ => 2
  | .single _ => 1

/-- The kind of operand 1. -/
def Mode.first : Mode → Kind
  | .pair k1 _ => k1
  | .single k1 => k1

/-- Impossible: (a) the operand count differs, or (b) an Immediate stands where the instruction writes (30_encoding.md R71). -/
def Opcode.impossible (o : Opcode) (m : Mode) : Bool :=
  m.operands != o.operands || (o.writesFirst && m.first == .imm)

/-! ## Decoding as a script of fetches -/

/-- Why decoding rejects (30_encoding.md R73), with the bad byte; `truncated` is for byte lists only: they ended inside a field. -/
inductive Reject where
  | unimplementedOpcode (op : Byte)
  | invalidMode (m : Byte)
  | impossibleMode (m : Byte)
  | unimplementedMode (m : Byte)
  | invalidSize (s : Byte)
  | invalidRegister (c : Byte)
  | truncated
  deriving DecidableEq, Repr

/-- A decode in progress: it is done, it rejects, or it fetches a field of `n` bytes (little-endian, zero-extended) and goes on.
Running it fetches no byte that 30_encoding.md R78 does not fetch. -/
inductive Script where
  | done (i : Instr)
  | reject (e : Reject)
  | fetch (n : Size) (k : Word → Script)

/-- A one-byte field. -/
def Script.byte (k : Byte → Script) : Script := .fetch .word fun v => k (v.setWidth 8)

/-- A register-code field, validated as soon as it is fetched (30_encoding.md R65). -/
def Script.reg (e : Encoding) (k : Reg → Script) : Script :=
  .byte fun c => match e.reg? c with
    | some r => k r
    | none => .reject (.invalidRegister c)

/-- A size byte (30_encoding.md R66). -/
def Script.size (e : Encoding) (k : Size → Script) : Script :=
  .byte fun b => match e.size? b with
    | some n => k n
    | none => .reject (.invalidSize b)

/-- A four-byte address or literal. -/
def Script.word (k : Word → Script) : Script := .fetch .qword k

/-- Step 2 of 30_encoding.md R78 for an opcode without operands (formats `F0` and `FU`, R69): the instruction, whole. -/
def Opcode.nullary? : Opcode → Option Instr
  | .push => some .push | .pop => some .pop | .pusha => some .pusha | .popa => some .popa
  | .mmset => some .mmset | .mmcpy => some .mmcpy
  | .sub => some .sub | .div => some .div | .mod => some .mod | .dec => some .dec
  | .and => some .and | .not => some .not | .shr => some .shr
  | .jle => some .jle | .jg => some .jg | .jge => some .jge | .ret => some .ret | .iret => some .iret
  | .inw => some .inw | .inq => some .inq | .outw => some .outw | .outq => some .outq
  | .hlt => some .hlt | .sti => some .sti | .cli => some .cli | .intr => some .intr
  | .mov | .add | .mul | .inc | .or | .shl | .cmp | .jmp | .je | .jne | .jl | .call | .calle | .inb | .outb | .ldidt => none

/-- Steps 4 and 5 of 30_encoding.md R78: the size byte and the operand fields of an implemented (opcode, mode) pair, in stream
order (R69); none when the opcode does not implement the mode (R70). -/
def operandScript? (e : Encoding) (o : Opcode) (m : Mode) : Option Script :=
  match o, m with
  | .mov, .pair .reg .imm => some (.size e fun n => .reg e fun r1 => .fetch n fun v => .done (.movRI n r1 v))
  | .mov, .pair .reg .reg => some (.reg e fun r1 => .reg e fun r2 => .done (.movRR r1 r2))
  | .mov, .pair .reg .abs => some (.size e fun n => .reg e fun r1 => .word fun a2 => .done (.movRA n r1 a2))
  | .mov, .pair .reg .ind => some (.size e fun n => .reg e fun r1 => .reg e fun r2 => .done (.movRP n r1 r2))
  | .mov, .pair .abs .imm => some (.size e fun n => .word fun a1 => .fetch n fun v => .done (.movAI n a1 v))
  | .mov, .pair .abs .reg => some (.size e fun n => .word fun a1 => .reg e fun r2 => .done (.movAR n a1 r2))
  | .mov, .pair .abs .abs => some (.size e fun n => .word fun a1 => .word fun a2 => .done (.movAA n a1 a2))
  | .mov, .pair .abs .ind => some (.size e fun n => .word fun a1 => .reg e fun r2 => .done (.movAP n a1 r2))
  | .mov, .pair .ind .imm => some (.size e fun n => .reg e fun r1 => .fetch n fun v => .done (.movPI n r1 v))
  | .mov, .pair .ind .reg => some (.size e fun n => .reg e fun r1 => .reg e fun r2 => .done (.movPR n r1 r2))
  | .mov, .pair .ind .abs => some (.size e fun n => .reg e fun r1 => .word fun a2 => .done (.movPA n r1 a2))
  | .mov, .pair .ind .ind => some (.size e fun n => .reg e fun r1 => .reg e fun r2 => .done (.movPP n r1 r2))
  | .add, .pair .reg .imm => some (.reg e fun r1 => .word fun v => .done (.addRI r1 v))
  | .add, .pair .reg .reg => some (.reg e fun r1 => .reg e fun r2 => .done (.addRR r1 r2))
  | .mul, .pair .reg .imm => some (.reg e fun r1 => .word fun v => .done (.mulRI r1 v))
  | .mul, .pair .reg .reg => some (.reg e fun r1 => .reg e fun r2 => .done (.mulRR r1 r2))
  | .or, .pair .reg .imm => some (.reg e fun r1 => .word fun v => .done (.orRI r1 v))
  | .or, .pair .reg .reg => some (.reg e fun r1 => .reg e fun r2 => .done (.orRR r1 r2))
  | .shl, .pair .reg .imm => some (.reg e fun r1 => .word fun v => .done (.shlRI r1 v))
  | .shl, .pair .reg .reg => some (.reg e fun r1 => .reg e fun r2 => .done (.shlRR r1 r2))
  | .inc, .single .reg => some (.reg e fun r1 => .done (.inc r1))
  | .cmp, .pair .reg .imm => some (.reg e fun r1 => .word fun v => .done (.cmpRI r1 v))
  | .cmp, .pair .reg .reg => some (.reg e fun r1 => .reg e fun r2 => .done (.cmpRR r1 r2))
  | .jmp, .single .imm => some (.word fun t => .done (.jmp t))
  | .je, .single .imm => some (.word fun t => .done (.je t))
  | .jne, .single .imm => some (.word fun t => .done (.jne t))
  | .jl, .single .imm => some (.word fun t => .done (.jl t))
  | .call, .single .imm => some (.word fun t => .done (.call t))
  | .calle, .single .imm => some (.word fun t => .done (.calle t))
  | .inb, .pair .imm .imm => some (.byte fun p => .byte fun v => .done (.inbII p v))
  | .inb, .pair .imm .reg => some (.byte fun p => .reg e fun r2 => .done (.inbIR p r2))
  | .inb, .pair .imm .abs => some (.byte fun p => .word fun a2 => .done (.inbIA p a2))
  | .outb, .pair .reg .imm => some (.reg e fun r1 => .byte fun p => .done (.outbRI r1 p))
  | .ldidt, .single .imm => some (.word fun t => .done (.ldidt t))
  | _, _ => none

/-- Step 3 of 30_encoding.md R78: the mode byte of an opcode with operands. -/
def modeScript (e : Encoding) (o : Opcode) (b : Byte) : Script :=
  match e.mode? b with
  | none => .reject (.invalidMode b)
  | some m => match operandScript? e o m with
    | some sc => sc
    | none => .reject (if o.impossible m then .impossibleMode b else .unimplementedMode b)

/-- Step 2 of 30_encoding.md R78: the opcode byte. -/
def opcodeScript (e : Encoding) (b : Byte) : Script :=
  match e.opcode? b with
  | none => .reject (.unimplementedOpcode b)
  | some o => match o.nullary? with
    | some i => .done i
    | none => .byte (modeScript e o)

/-- The whole decode of one instruction (30_encoding.md R78, steps 1 to 5). -/
def decodeScript (e : Encoding) : Script := .byte (opcodeScript e)

/-! ## Byte lists -/

/-- The `n` low bytes of `v`, the least significant first (20_memory.md R46). -/
def leBytes (n : Size) (v : Word) : List Byte :=
  match n with
  | .word => [v.extractLsb' 0 8]
  | .dword => [v.extractLsb' 0 8, v.extractLsb' 8 8]
  | .qword => [v.extractLsb' 0 8, v.extractLsb' 8 8, v.extractLsb' 16 8, v.extractLsb' 24 8]

/-- The first `n` bytes of a list as a little-endian number, and the rest; none when the list is shorter (30_encoding.md R67). -/
def takeField (n : Size) (bs : List Byte) : Option (Word × List Byte) :=
  match n, bs with
  | .word, b0 :: rest => some (b0.setWidth 32, rest)
  | .dword, b0 :: b1 :: rest => some ((b1 ++ b0).setWidth 32, rest)
  | .qword, b0 :: b1 :: b2 :: b3 :: rest => some ((b3 ++ b2) ++ (b1 ++ b0), rest)
  | _, _ => none

/-- Runs a script over a byte list: the instruction and the bytes after it, or the rejection. -/
def Script.runBytes : Script → List Byte → Except Reject (Instr × List Byte)
  | .done i, bs => .ok (i, bs)
  | .reject e, _ => .error e
  | .fetch n k, bs => match takeField n bs with
    | some (v, rest) => (k v).runBytes rest
    | none => .error .truncated

/-- The decoder: total on any bytes, rejecting by name. -/
def decode (e : Encoding) (bs : List Byte) : Except Reject (Instr × List Byte) := (decodeScript e).runBytes bs

/-- The `k` lowest bytes of a number, the lowest first. -/
def natBytes : Nat → Nat → List Byte
  | 0, _ => []
  | k + 1, w => BitVec.ofNat 8 w :: natBytes k (w / 256)

/-- The longest instruction has 11 bytes (30_encoding.md R69). -/
def maxLength : Nat := 11

/-- The bytes of an instruction given as spec/opcode_table.json numbers its bits: `nbits` bits of `w`, the first byte lowest, and
zeros above them up to the longest instruction. -/
def tableBytes (nbits w : Nat) : List Byte := natBytes maxLength (w % 2 ^ nbits)

/-- The instruction the decoder reads from a table word, whose numbers are the spec's (none where it rejects). -/
def decodeTableWord (nbits w : Nat) : Option Instr :=
  match decode Encoding.spec (tableBytes nbits w) with
  | .ok (i, _) => some i
  | .error _ => none

/-! ## The encoder (30_encoding.md R64, R69) -/

/-- Opcode and mode byte. -/
def encodeHead (e : Encoding) (o : Opcode) (m : Mode) : List Byte := [e.opcode o, e.mode m]

/-- The bytes of an instruction. -/
def encode (e : Encoding) : Instr → List Byte
  | .movRI n r1 v => encodeHead e .mov (.pair .reg .imm) ++ [e.size n, e.reg r1] ++ leBytes n v
  | .movRR r1 r2 => encodeHead e .mov (.pair .reg .reg) ++ [e.reg r1, e.reg r2]
  | .movRA n r1 a2 => encodeHead e .mov (.pair .reg .abs) ++ [e.size n, e.reg r1] ++ leBytes .qword a2
  | .movRP n r1 r2 => encodeHead e .mov (.pair .reg .ind) ++ [e.size n, e.reg r1, e.reg r2]
  | .movAI n a1 v => encodeHead e .mov (.pair .abs .imm) ++ [e.size n] ++ leBytes .qword a1 ++ leBytes n v
  | .movAR n a1 r2 => encodeHead e .mov (.pair .abs .reg) ++ [e.size n] ++ leBytes .qword a1 ++ [e.reg r2]
  | .movAA n a1 a2 => encodeHead e .mov (.pair .abs .abs) ++ [e.size n] ++ leBytes .qword a1 ++ leBytes .qword a2
  | .movAP n a1 r2 => encodeHead e .mov (.pair .abs .ind) ++ [e.size n] ++ leBytes .qword a1 ++ [e.reg r2]
  | .movPI n r1 v => encodeHead e .mov (.pair .ind .imm) ++ [e.size n, e.reg r1] ++ leBytes n v
  | .movPR n r1 r2 => encodeHead e .mov (.pair .ind .reg) ++ [e.size n, e.reg r1, e.reg r2]
  | .movPA n r1 a2 => encodeHead e .mov (.pair .ind .abs) ++ [e.size n, e.reg r1] ++ leBytes .qword a2
  | .movPP n r1 r2 => encodeHead e .mov (.pair .ind .ind) ++ [e.size n, e.reg r1, e.reg r2]
  | .push => [e.opcode .push]
  | .pop => [e.opcode .pop]
  | .pusha => [e.opcode .pusha]
  | .popa => [e.opcode .popa]
  | .mmset => [e.opcode .mmset]
  | .mmcpy => [e.opcode .mmcpy]
  | .addRI r1 v => encodeHead e .add (.pair .reg .imm) ++ [e.reg r1] ++ leBytes .qword v
  | .addRR r1 r2 => encodeHead e .add (.pair .reg .reg) ++ [e.reg r1, e.reg r2]
  | .sub => [e.opcode .sub]
  | .mulRI r1 v => encodeHead e .mul (.pair .reg .imm) ++ [e.reg r1] ++ leBytes .qword v
  | .mulRR r1 r2 => encodeHead e .mul (.pair .reg .reg) ++ [e.reg r1, e.reg r2]
  | .div => [e.opcode .div]
  | .mod => [e.opcode .mod]
  | .inc r1 => encodeHead e .inc (.single .reg) ++ [e.reg r1]
  | .dec => [e.opcode .dec]
  | .and => [e.opcode .and]
  | .orRI r1 v => encodeHead e .or (.pair .reg .imm) ++ [e.reg r1] ++ leBytes .qword v
  | .orRR r1 r2 => encodeHead e .or (.pair .reg .reg) ++ [e.reg r1, e.reg r2]
  | .not => [e.opcode .not]
  | .shlRI r1 v => encodeHead e .shl (.pair .reg .imm) ++ [e.reg r1] ++ leBytes .qword v
  | .shlRR r1 r2 => encodeHead e .shl (.pair .reg .reg) ++ [e.reg r1, e.reg r2]
  | .shr => [e.opcode .shr]
  | .cmpRI r1 v => encodeHead e .cmp (.pair .reg .imm) ++ [e.reg r1] ++ leBytes .qword v
  | .cmpRR r1 r2 => encodeHead e .cmp (.pair .reg .reg) ++ [e.reg r1, e.reg r2]
  | .jmp t => encodeHead e .jmp (.single .imm) ++ leBytes .qword t
  | .je t => encodeHead e .je (.single .imm) ++ leBytes .qword t
  | .jne t => encodeHead e .jne (.single .imm) ++ leBytes .qword t
  | .jl t => encodeHead e .jl (.single .imm) ++ leBytes .qword t
  | .jle => [e.opcode .jle]
  | .jg => [e.opcode .jg]
  | .jge => [e.opcode .jge]
  | .call t => encodeHead e .call (.single .imm) ++ leBytes .qword t
  | .calle t => encodeHead e .calle (.single .imm) ++ leBytes .qword t
  | .ret => [e.opcode .ret]
  | .iret => [e.opcode .iret]
  | .inbII p v => encodeHead e .inb (.pair .imm .imm) ++ [p, v]
  | .inbIR p r2 => encodeHead e .inb (.pair .imm .reg) ++ [p, e.reg r2]
  | .inbIA p a2 => encodeHead e .inb (.pair .imm .abs) ++ [p] ++ leBytes .qword a2
  | .inw => [e.opcode .inw]
  | .inq => [e.opcode .inq]
  | .outbRI r1 p => encodeHead e .outb (.pair .reg .imm) ++ [e.reg r1, p]
  | .outw => [e.opcode .outw]
  | .outq => [e.opcode .outq]
  | .hlt => [e.opcode .hlt]
  | .sti => [e.opcode .sti]
  | .cli => [e.opcode .cli]
  | .ldidt t => encodeHead e .ldidt (.single .imm) ++ leBytes .qword t
  | .intr => [e.opcode .intr]

/-- The fields of an instruction, by their widths, in stream order (30_encoding.md R64, R69). -/
def Instr.fields : Instr → List Size
  | .push | .pop | .pusha | .popa | .mmset | .mmcpy | .sub | .div | .mod | .dec | .and | .not | .shr | .jle | .jg | .jge | .ret
  | .iret | .inw | .inq | .outw | .outq | .hlt | .sti | .cli | .intr => [.word]
  | .jmp _ | .je _ | .jne _ | .jl _ | .call _ | .calle _ | .ldidt _ => [.word, .word, .qword]
  | .inc _ => [.word, .word, .word]
  | .movRR .. | .addRR .. | .mulRR .. | .orRR .. | .shlRR .. | .cmpRR .. => [.word, .word, .word, .word]
  | .addRI .. | .mulRI .. | .orRI .. | .shlRI .. | .cmpRI .. => [.word, .word, .word, .qword]
  | .movRI n _ _ | .movPI n _ _ => [.word, .word, .word, .word, n]
  | .movRA .. | .movPA .. => [.word, .word, .word, .word, .qword]
  | .movRP .. | .movPR .. | .movPP .. => [.word, .word, .word, .word, .word]
  | .movAI n _ _ => [.word, .word, .word, .qword, n]
  | .movAR .. | .movAP .. => [.word, .word, .word, .qword, .word]
  | .movAA .. => [.word, .word, .word, .qword, .qword]
  | .inbII .. | .inbIR .. | .outbRI .. => [.word, .word, .word, .word]
  | .inbIA .. => [.word, .word, .word, .qword]

/-- The bytes that fields of these widths take. -/
def widthOf : List Size → Nat
  | [] => 0
  | n :: rest => n.bytes + widthOf rest

/-- The length in bytes of a decoded instruction (30_encoding.md R77). -/
def Instr.length (i : Instr) : Nat := widthOf i.fields

end Sys2Proof
end

