-- ==== Sys2Proof/Machine/Platform.lean ====
section
/-! DEFINITION. The reference platform: the values that 00_scope.md R5 and 92_eei_decisions.md give the parameters. -/

namespace Sys2Proof

/-- The reference configuration: the reference values of 00_scope.md R5, the spec's own numeric encodings (R6), and the defaults of
92_eei_decisions.md, "Open parameters, in one place": no regions, no port handlers. `MEM0` has no default there: nothing is listed
here (log 1, log 2). -/
def Config.reference : Config where
  xlen := 32
  ngpr := 10
  memSize := 0xFFFFF
  clockHz := 1024000
  regions := []
  portIn8 := []
  portIn16 := []
  portIn32 := []
  portOut8 := []
  portOut16 := []
  portOut32 := []
  mem0 := []
  encoding := Encoding.spec

end Sys2Proof
end

