-- ==== Sys2Proof/Machine/State.lean ====
section
/-! DEFINITION. The state of the machine as plain data (10_state.md), the environment it steps with (10_state.md R30), the reasons
a step can stop, and the state after reset (10_state.md R32). -/

namespace Sys2Proof.Machine

/-- The backing store of the ten general registers (10_state.md R10): `G[0] .. G[9]` under their names. -/
structure GPRs where
  a : Word
  b : Word
  c : Word
  d : Word
  e : Word
  f : Word
  w : Word
  x : Word
  y : Word
  z : Word
  deriving DecidableEq, Repr

/-- The fault record (10_state.md R27): `FLATCH`, `FKIND`, `FOPC`, `FMODE`, `FADDR`, `FINFO`. -/
structure FaultRecord where
  latch : Bool
  kind : FaultKind
  opcode : Byte
  mode : Byte
  addr : Word
  info : Word
  deriving DecidableEq, Repr

/-- What a port handler answers: a value (used by a request; its low bits are kept) and the line it raises, if any
(43_port_io.md R142; log 3). -/
structure PortReply where
  value : Word
  raises : Option Byte
  deriving DecidableEq, Repr

/-- The bits of `STATUS` that the host may write (10_state.md R22; log 9). -/
inductive HostStatusBit where
  | on | sleeping | hibernating | breakpoint | dfault | tfault
  deriving DecidableEq, Repr

/-- What an agent outside the core may do between two ticks (60_exceptions.md R198). Shutting down is `.status .on false`. -/
inductive HostAction where
  | raise (line : Byte)
  | clockHalt
  | clockResume
  | clockStop
  | status (b : HostStatusBit) (v : Bool)
  | reset
  deriving DecidableEq, Repr

/-- The environment of 10_state.md R30 as plain data: the MODEL's own fields, not the spec's (log 3, log 4, log 5). -/
structure Env where
  /-- What the next region reads answer, first answer first; free values once it is empty. -/
  regionReplies : List Byte
  /-- What the next port handler calls answer, first answer first; free values once it is empty. -/
  portReplies : List PortReply
  /-- How many free answers have been drawn. -/
  draws : Nat
  /-- What the devices have seen, oldest first. -/
  log : List DeviceEvent
  /-- The actions of outside agents before each coming step, the next step's first; none once it is empty. -/
  schedule : List (List HostAction)
  deriving DecidableEq, Repr

/-- The whole state. Field names are the spec's names in small letters; each field's docstring cites the rule that names it. -/
structure State where
  /-- `G[0..9]` (10_state.md R10). -/
  gpr : GPRs
  /-- `CS`, plain storage (10_state.md R17). -/
  cs : Word
  /-- `DS`, plain storage (10_state.md R17). -/
  ds : Word
  /-- `SS`, plain storage (10_state.md R17). -/
  ss : Word
  /-- `PC`: between ticks, the address of the next opcode byte (10_state.md R18). -/
  pc : Word
  /-- `SP` (20_memory.md R49). -/
  sp : Word
  /-- `BP`, plain storage (10_state.md R17). -/
  bp : Word
  /-- `FLAGS` (10_state.md R19); its bits are in Machine/Flags.lean. -/
  flags : Half
  /-- `CLOCKS`, plain storage (10_state.md R21). -/
  clocks : Half
  /-- `STATUS` (10_state.md R22); its bits are in Machine/Ops.lean. -/
  status : Word
  /-- `IE` (10_state.md R24). -/
  ie : Bool
  /-- `IPEND` (10_state.md R25). -/
  ipend : Bool
  /-- `ILINE` (10_state.md R25). -/
  iline : Byte
  /-- `IDTBASE` (10_state.md R26). -/
  idtBase : Word
  /-- `IDTSET` (10_state.md R26). -/
  idtSet : Bool
  /-- The fault record (10_state.md R27). -/
  fault : FaultRecord
  /-- `TICKS`, unbounded (10_state.md R28). -/
  ticks : Nat
  /-- `CLKHALT` (10_state.md R28). -/
  clkHalt : Bool
  /-- `CLKSTOP` (10_state.md R28). -/
  clkStop : Bool
  /-- `RAM` (10_state.md R29), in canonical form. -/
  mem : Memory
  /-- The configuration (10_state.md R30): written by nothing (log 2). -/
  config : Config
  /-- The environment: the model's own (log 3, log 4, log 5). -/
  env : Env
  deriving DecidableEq, Repr

/-- Why a step has no next state. -/
inductive Fault where
  /-- Raised by `step` alone, when `CLKSTOP` is set and no action of an outside agent is left in the schedule: "there are no more
  ticks" (60_exceptions.md R177, R192). Safe: the model stops where the machine has stopped for good (log 7). No instruction
  raises it: the faults of 60_exceptions.md R170 are next states. -/
  | clockStopped
  deriving DecidableEq, Repr

/-- Why a step has no meaning in the model. -/
inductive Refusal where
  /-- Answered by an arm of `exec` whose instruction has no meaning yet: no arm does. Safe. -/
  | notModelled (mnemonic : String)
  deriving DecidableEq, Repr

/-- Every general register at its reset value (10_state.md R32). -/
def GPRs.reset : GPRs where
  a := 0
  b := 0
  c := 0
  d := 0
  e := 0
  f := 0
  w := 0
  x := 0
  y := 0
  z := 0

/-- The fault record with no fault since reset (10_state.md R32; 60_exceptions.md R170). -/
def FaultRecord.clear : FaultRecord where
  latch := false
  kind := .none
  opcode := 0
  mode := 0
  addr := 0
  info := 0

/-- An environment that has seen nothing and has nothing scripted (log 3, log 4, log 5). -/
def Env.quiet : Env where
  regionReplies := []
  portReplies := []
  draws := 0
  log := []
  schedule := []

/-- The state after reset on a platform (10_state.md R32; 70_reset_and_hazards.md R210): every register at the value of R32's table
(`STATUS` has On set and all else clear),
`RAM` at `MEM0`. -/
def State.resetOn (k : Config) (e : Env) : State where
  gpr := GPRs.reset
  cs := 0
  ds := 0
  ss := 0
  pc := 0
  sp := 0
  bp := 0
  flags := 0
  clocks := 0
  status := 1#32 <<< k.encoding.status.on.val
  ie := false
  ipend := false
  iline := 0
  idtBase := 0
  idtSet := false
  fault := FaultRecord.clear
  ticks := 0
  clkHalt := false
  clkStop := false
  mem := k.mem0
  config := k
  env := e

/-- The machine right after reset (10_state.md R32), on the reference configuration (log 2) and in a quiet environment. -/
def State.reset : State := State.resetOn Config.reference Env.quiet

end Sys2Proof.Machine
end

