-- ==== Sys2Proof/Machine/Memory.lean ====
section
/-! DEFINITION. Memory as a list of cells in one canonical form: addresses strictly rising, no cell equal to what an unlisted
address reads as. 20_memory.md R42, R43. -/

namespace Sys2Proof.Machine

/-- What an unlisted address reads as. DESIGN CHOICE, log 1, unsafe: `MEM0` is open (92_eei_decisions.md D38). -/
def unlistedByte : Byte := 0

/-- The byte at address `a`. -/
def memGet : Memory → Nat → Byte
  | [], _ => unlistedByte
  | (b, v) :: rest, a => if a = b then v else memGet rest a

/-- Puts a cell in front, or leaves it out where it equals what an unlisted address reads as. -/
def memCons (a : Nat) (v : Byte) (m : Memory) : Memory := if v = unlistedByte then m else (a, v) :: m

/-- The memory with byte `v` at address `a`, in canonical form again. -/
def memSet : Memory → Nat → Byte → Memory
  | [], a, v => memCons a v []
  | (b, w) :: rest, a, v =>
    if a < b then memCons a v ((b, w) :: rest)
    else if a = b then memCons a v rest
    else (b, w) :: memSet rest a v

/-- Every address of the list is at least `lo`, addresses rise strictly, and no cell is redundant. -/
def memWfFrom : Nat → Memory → Bool
  | _, [] => true
  | lo, (a, v) :: rest => decide (lo ≤ a) && v != unlistedByte && memWfFrom (a + 1) rest

/-- The canonical form holds. -/
def Memory.wf (m : Memory) : Bool := memWfFrom 0 m

/-- Every listed address is below `n`. -/
def memBelow (n : Nat) (m : Memory) : Bool := m.all fun c => decide (c.1 < n)

end Sys2Proof.Machine
end

