-- ==== Sys2Proof/Machine/Ops.lean ====
section
/-! DEFINITION. The named operations over registers, memory, the stack and the ports, raising a fault, interrupt entry and the
return from one. 10_state.md R14, R15, R22; 20_memory.md; 60_exceptions.md R171, R181 to R184; 41_compare_and_control.md R109. -/

namespace Sys2Proof

/-! ## Views of a general register -/

/-- The width in bits of a view (10_state.md R12). -/
def View.width : View → Nat
  | .full => 32
  | .h | .l => 16
  | .hh | .hl | .lh | .ll => 8

/-- The lowest bit of `G[r]` that a view covers (10_state.md R12). -/
def View.low : View → Nat
  | .full | .l | .ll => 0
  | .lh => 8
  | .h | .hl => 16
  | .hh => 24

/-- The bits of `G[r]` that a view covers, as a mask. -/
def View.mask (v : View) : Word := (BitVec.allOnes (v.width)).setWidth 32 <<< v.low

/-- The value of a view, zero-extended (10_state.md R14). -/
def View.read (v : View) (g : Word) : Word := (g.extractLsb' (v.low) (v.width)).setWidth 32

/-- The backing value after the low bits of `x` are written through a view; the other bits stay (10_state.md R15). -/
def View.write (v : View) (g x : Word) : Word :=
  (g &&& ~~~v.mask) ||| ((x <<< v.low) &&& v.mask)

/-! ## Regions and ports of the platform -/

/-- The first registered region that holds the address (20_memory.md R41). DEDUCED, log 11: the range's end is not reduced
modulo 2^32. -/
def Config.regionAt (k : Config) (a : Word) : Option Region :=
  k.regions.find? fun g => decide (g.start ≤ a.toNat) && decide (a.toNat < g.start + g.size)

/-- The ports with an inbound-delivery handler of a width (20_memory.md R53). -/
def Config.portIn (k : Config) : PortWidth → List Byte
  | .w8 => k.portIn8 | .w16 => k.portIn16 | .w32 => k.portIn32

/-- The ports with an outbound-request handler of a width (20_memory.md R53). -/
def Config.portOut (k : Config) : PortWidth → List Byte
  | .w8 => k.portOut8 | .w16 => k.portOut16 | .w32 => k.portOut32

/-- The low bits of `v` that a port of a width carries. -/
def PortWidth.cut (w : PortWidth) (v : Word) : Word :=
  match w with
  | .w8 => (v.setWidth 8).setWidth 32
  | .w16 => (v.setWidth 16).setWidth 32
  | .w32 => v

/-- The address relative to the region's start. -/
def Region.relative (g : Region) (a : Word) : Word := a - BitVec.ofNat 32 g.start

/-- The low `n` bytes of a value, zero-extended (40_mov.md R90, R91). -/
def Size.cut (n : Size) (v : Word) : Word :=
  match n with
  | .word => (v.setWidth 8).setWidth 32
  | .dword => (v.setWidth 16).setWidth 32
  | .qword => v

end Sys2Proof

namespace Sys2Proof.Machine

/-! ## The result of an operation that a fault may end -/

/-- Either the operation is done, with a value and the state it leaves, or it raises a fault: the kind, what `FINFO` records, and
the state with everything written before the fault (60_exceptions.md R171, R172). -/
inductive Res (α : Type) where
  | ok (a : α) (s : State)
  | trap (k : FaultKind) (info : Word) (s : State)

/-- One operation after another; a fault ends the sequence (00_scope.md R8). -/
def Res.andThen {α β : Type} (r : Res α) (f : α → State → Res β) : Res β :=
  match r with
  | .ok a s => f a s
  | .trap k info s => .trap k info s

/-! ## The register file -/

/-- `G[r]` (10_state.md R10, R11). -/
def GPRs.get (g : GPRs) : GReg → Word
  | .a => g.a | .b => g.b | .c => g.c | .d => g.d | .e => g.e
  | .f => g.f | .w => g.w | .x => g.x | .y => g.y | .z => g.z

/-- `G[r] <- v`. -/
def GPRs.set (g : GPRs) (r : GReg) (v : Word) : GPRs :=
  match r with
  | .a => { g with a := v } | .b => { g with b := v } | .c => { g with c := v } | .d => { g with d := v }
  | .e => { g with e := v } | .f => { g with f := v } | .w => { g with w := v } | .x => { g with x := v }
  | .y => { g with y := v } | .z => { g with z := v }

/-- A special register (10_state.md R17). -/
def State.special (s : State) : SReg → Word
  | .cs => s.cs | .ds => s.ds | .ss => s.ss | .pc => s.pc | .sp => s.sp | .bp => s.bp

/-- Writes a special register. -/
def State.setSpecial (s : State) (r : SReg) (v : Word) : State :=
  match r with
  | .cs => { s with cs := v } | .ds => { s with ds := v } | .ss => { s with ss := v }
  | .pc => { s with pc := v } | .sp => { s with sp := v } | .bp => { s with bp := v }

/-- Writes a whole general register. -/
def State.setGpr (s : State) (r : GReg) (v : Word) : State := { s with gpr := s.gpr.set r v }

/-- `x[c]`: the value a register operand reads as (10_state.md R14). -/
def State.readReg (s : State) : Reg → Word
  | .view r v => v.read (s.gpr.get r)
  | .special r => s.special r

/-- `x[c] <- w`: a view keeps the low bits of `w`, a special register all of them (10_state.md R15). -/
def State.writeReg (s : State) (r : Reg) (w : Word) : State :=
  match r with
  | .view g v => s.setGpr g (v.write (s.gpr.get g) w)
  | .special g => s.setSpecial g w

/-- `PC <- t` (10_state.md R18). -/
def State.setPc (s : State) (t : Word) : State := { s with pc := t }

/-- `SP <- v`. -/
def State.setSp (s : State) (v : Word) : State := { s with sp := v }

/-- `FLAGS <- v`, all 16 bits. -/
def State.setFlags (s : State) (v : Half) : State := { s with flags := v }

/-- `CLOCKS <- v`. -/
def State.setClocks (s : State) (v : Half) : State := { s with clocks := v }

/-- `IE <- v` (44_system.md R150, R151). -/
def State.setIe (s : State) (v : Bool) : State := { s with ie := v }

/-- `IDTBASE <- v; IDTSET <- 1` (44_system.md R152). -/
def State.setIdt (s : State) (v : Word) : State := { s with idtBase := v, idtSet := true }

/-- `IPEND <- 0` (60_exceptions.md R183). -/
def State.clearPending (s : State) : State := { s with ipend := false }

/-- `TICKS <- TICKS + 1` (60_exceptions.md R174). -/
def State.countTick (s : State) : State := { s with ticks := s.ticks + 1 }

/-- `CLKHALT <- v` (60_exceptions.md R192). -/
def State.setClkHalt (s : State) (v : Bool) : State := { s with clkHalt := v }

/-- `CLKSTOP <- 1` (60_exceptions.md R187, R192). -/
def State.stopClock (s : State) : State := { s with clkStop := true }

/-- Replaces the memory. -/
def State.setMem (s : State) (m : Memory) : State := { s with mem := m }

/-- Replaces the environment. -/
def State.setEnv (s : State) (e : Env) : State := { s with env := e }

/-! ## The status word -/

/-- `STATUS <- v`, all 32 bits. -/
def State.setStatus (s : State) (v : Word) : State := { s with status := v }

/-- `STATUS_BITS` of the configuration (10_state.md R22). -/
abbrev State.bits (s : State) : StatusBits := s.config.encoding.status

/-- The word with bit `i` at 1 and the others as they were. -/
def setBit (v : Word) (i : Nat) : Word := v ||| (1#32 <<< i)

/-- The word with bit `i` at 0 and the others as they were. -/
def clearBit (v : Word) (i : Nat) : Word := v &&& ~~~(1#32 <<< i)

/-- `STATUS.On`. -/
def State.on (s : State) : Bool := s.status.getLsbD s.bits.on

/-- `STATUS.Halted`. -/
def State.halted (s : State) : Bool := s.status.getLsbD s.bits.halted

/-- `STATUS.Fault`. -/
def State.faultBit (s : State) : Bool := s.status.getLsbD s.bits.fault

/-- `STATUS[i] <- 1`. -/
def State.setStatusBit (s : State) (i : Nat) : State := s.setStatus (setBit s.status i)

/-- `STATUS[i] <- 0`. -/
def State.clearStatusBit (s : State) (i : Nat) : State := s.setStatus (clearBit s.status i)

/-- `STATUS` with Fault and Halted set (60_exceptions.md R171). -/
def State.faultStatus (s : State) : Word := setBit (setBit s.status s.bits.fault) s.bits.halted

/-- `STATUS` with Halted cleared: what interrupt entry saves (60_exceptions.md R183). -/
def State.wakeStatus (s : State) : Word := clearBit s.status s.bits.halted

/-! ## Devices -/

/-- The device records what it has seen (log 5). -/
def Env.see (e : Env) (ev : DeviceEvent) : Env := { e with log := e.log ++ [ev] }

/-- The next answer of a region's `read8`: scripted, else a free value (log 3). The access is in the log already. -/
def Env.regionAnswer (e : Env) (g : Region) (a : Word) : Byte × Env :=
  match e.regionReplies with
  | b :: rest => (b, { e with regionReplies := rest })
  | [] => (Config.regionByte e.draws e.log g a, { e with draws := e.draws + 1 })

/-- The next answer of a port handler: scripted, else free values (log 3). The call, with the value it delivers, is in the log
already, so that the answer may depend on it (43_port_io.md R142). -/
def Env.portAnswer (e : Env) (w : PortWidth) (p : Byte) : PortReply × Env :=
  match e.portReplies with
  | r :: rest => (r, { e with portReplies := rest })
  | [] => ({ value := Config.portValue e.draws e.log w p, raises := Config.portRaise e.draws e.log w p },
           { e with draws := e.draws + 1 })

/-- `raise(line)`: accepted only while `IE` is 1; a second one replaces the line (60_exceptions.md R181). -/
def State.raiseLine (s : State) (line : Byte) : State :=
  if s.ie then { s with ipend := true, iline := line } else s

/-- What a port handler's answer does to the core: at most a `raise` (43_port_io.md R142). -/
def State.handlerRaise (s : State) : Option Byte → State
  | some line => s.raiseLine line
  | none => s

/-! ## The memory bus -/

/-- `MemRead(a, 1)` (20_memory.md R42, R48). -/
def readByte (s : State) (a : Word) : Res Byte :=
  match s.config.regionAt a with
  | some g =>
    let (b, e) := (s.env.see (.regionRead g a (g.relative a))).regionAnswer g a
    .ok b (s.setEnv e)
  | none => if a.toNat < s.config.memSize then .ok (memGet s.mem a.toNat) s else .trap .busError a s

/-- `MemWrite(a, 1, v)` (20_memory.md R43, R48). -/
def writeByte (s : State) (a : Word) (v : Byte) : Res Unit :=
  match s.config.regionAt a with
  | some g => .ok () (s.setEnv (s.env.see (.regionWrite g a (g.relative a) v)))
  | none => if a.toNat < s.config.memSize then .ok () (s.setMem (memSet s.mem a.toNat v)) else .trap .busError a s

/-- `MemRead(a, 2)`: the low byte first (20_memory.md R44). -/
def readHalf (s : State) (a : Word) : Res Half :=
  (readByte s a).andThen fun lo s1 =>
  (readByte s1 (a + 1)).andThen fun hi s2 => .ok (hi ++ lo) s2

/-- `MemRead(a, 4)`: the low half first (20_memory.md R44). -/
def readWord (s : State) (a : Word) : Res Word :=
  (readHalf s a).andThen fun lo s1 =>
  (readHalf s1 (a + 2)).andThen fun hi s2 => .ok (hi ++ lo) s2

/-- `MemWrite(a, 2, v)` (20_memory.md R45). -/
def writeHalf (s : State) (a : Word) (v : Half) : Res Unit :=
  (writeByte s a (v.extractLsb' 0 8)).andThen fun _ s1 => writeByte s1 (a + 1) (v.extractLsb' 8 8)

/-- `MemWrite(a, 4, v)` (20_memory.md R45). -/
def writeWord (s : State) (a : Word) (v : Word) : Res Unit :=
  (writeHalf s a (v.extractLsb' 0 16)).andThen fun _ s1 => writeHalf s1 (a + 2) (v.extractLsb' 16 16)

/-- `MemRead(a, n)`, zero-extended (20_memory.md R42, R44). -/
def memRead (s : State) (a : Word) (n : Size) : Res Word :=
  match n with
  | .word => (readByte s a).andThen fun v t => .ok (v.setWidth 32) t
  | .dword => (readHalf s a).andThen fun v t => .ok (v.setWidth 32) t
  | .qword => readWord s a

/-- `MemWrite(a, n, v)`: the low bytes of `v` (20_memory.md R43, R45). -/
def memWrite (s : State) (a : Word) (n : Size) (v : Word) : Res Unit :=
  match n with
  | .word => writeByte s a (v.extractLsb' 0 8)
  | .dword => writeHalf s a (v.extractLsb' 0 16)
  | .qword => writeWord s a v

/-! ## The stack -/

/-- `Push(n, v)`: decrement, then write (20_memory.md R49). -/
def push (s : State) (n : Size) (v : Word) : Res Unit :=
  let t := s.setSp (s.sp - BitVec.ofNat 32 n.bytes)
  memWrite t t.sp n v

/-- `Pop(n)`: read, then increment (20_memory.md R50). -/
def pop (s : State) (n : Size) : Res Word :=
  (memRead s s.sp n).andThen fun v t => .ok v (t.setSp (t.sp + BitVec.ofNat 32 n.bytes))

/-! ## The ports -/

/-- `PortDeliver(w, p, v)` (20_memory.md R54; 43_port_io.md R142). -/
def portDeliver (s : State) (w : PortWidth) (p : Byte) (v : Word) : Res Unit :=
  if p ∈ s.config.portIn w then
    let (r, e) := (s.env.see (.portDeliver w p (w.cut v))).portAnswer w p
    .ok () ((s.setEnv e).handlerRaise r.raises)
  else .trap .portUnclaimed (p.setWidth 32) s

/-- `PortRequest(w, p)` (20_memory.md R55; 43_port_io.md R142). -/
def portRequest (s : State) (w : PortWidth) (p : Byte) : Res Word :=
  if p ∈ s.config.portOut w then
    let (r, e) := (s.env.see (.portRequest w p)).portAnswer w p
    .ok (w.cut r.value) ((s.setEnv e).handlerRaise r.raises)
  else .trap .portUnclaimed (p.setWidth 32) s

/-! ## Faults (60_exceptions.md, section 1) -/

/-- `FKIND` as the number the configuration gives the kind (10_state.md R27; 60_exceptions.md R170; log 10). -/
def State.faultCode (s : State) : BitVec 4 := s.config.encoding.fault s.fault.kind

/-- What a fault records of the instruction it arose in: `FOPC`, `FMODE`, `FADDR` (60_exceptions.md R171). -/
structure Origin where
  opcode : Byte
  mode : Byte
  addr : Word
  deriving DecidableEq, Repr

/-- The origin of a fault in an instruction at `a0` of which the bytes `seen` have been fetched: the opcode byte, or 0, and the
mode byte, or 0 (60_exceptions.md R171). Every instruction of two bytes or more has its mode byte second (30_encoding.md R60). -/
def originOf (seen : List Byte) (a0 : Word) : Origin where
  opcode := seen.headD 0
  mode := seen.tail.headD 0
  addr := a0

/-- The origin of a fault in the interrupt service, with `PC` at that moment (60_exceptions.md R171). -/
def serviceOrigin (pc : Word) : Origin := originOf [] pc

/-- `raise Fault(kind, info)`: Fault and Halted set, the record written; no control transfer (60_exceptions.md R171). -/
def State.raiseFault (s : State) (o : Origin) (k : FaultKind) (info : Word) : State :=
  { s with
    status := s.faultStatus
    fault := { latch := true, kind := k, opcode := o.opcode, mode := o.mode, addr := o.addr, info := info } }

/-! ## Interrupt entry and return (60_exceptions.md, section 3) -/

/-- The address of the descriptor of a line (60_exceptions.md R184). -/
def State.descriptorAddr (s : State) (line : Byte) : Word := s.idtBase + 4 * line.setWidth 32

/-- `Enter()` (60_exceptions.md R183, R185). -/
def enterInterrupt (s : State) : Res Unit :=
  if s.idtSet then
    (push (s.setStatus s.wakeStatus) .qword s.pc).andThen fun _ s1 =>
    (push s1 .qword s1.status).andThen fun _ s2 =>
    (memRead s2 (s2.descriptorAddr s2.iline) .qword).andThen fun v s3 =>
    .ok () ((s3.setPc v).clearPending)
  else .trap .idtUnset (s.iline.setWidth 32) s

/-- The two pops of IRET: `STATUS`, then `PC` (41_compare_and_control.md R109; 60_exceptions.md R188). -/
def returnFromInterrupt (s : State) : Res Unit :=
  (pop s .qword).andThen fun v s1 =>
  (pop (s1.setStatus v) .qword).andThen fun w s2 => .ok () (s2.setPc w)

end Sys2Proof.Machine
end

