-- ==== Sys2Proof/Machine/Flags.lean ====
section
/-! DEFINITION. The flags register: its bits, the flag computation of CMP (the only one there is), and the conditions that read it. 10_state.md R19, R20; 41_compare_and_control.md R101, R103 to R105, R107. -/

namespace Sys2Proof.Machine

/-- The exact difference of two unsigned operands (41_compare_and_control.md R101). -/
def cmpDiff (a b : Word) : Int := (a.toNat : Int) - (b.toNat : Int)

/-- A flag's bit in the register, or 0. -/
def flagIf (c : Bool) (i : Nat) : Half := if c then 1#16 <<< i else 0#16

/-- `FLAGS` after a CMP whose difference is `d`, the flags at the places `b`: all 16 bits (41_compare_and_control.md R101). The Overflow condition is kept as
the spec writes it, though no operands meet it. -/
def cmpFlags (b : FlagBits) (d : Int) : Half :=
  flagIf (decide (d = 0)) b.zero ||| flagIf (decide (d < 0)) b.underflow |||
  flagIf (decide (d > 0xFFFFFFFF)) b.overflow ||| flagIf (decide (d % 2 = 0)) b.parity

/-- The Zero flag. -/
def State.zero (s : State) : Bool := s.flags.getLsbD s.config.encoding.flags.zero

/-- The Underflow flag. -/
def State.underflow (s : State) : Bool := s.flags.getLsbD s.config.encoding.flags.underflow

/-- The Overflow flag; no instruction reads it (10_state.md R20). -/
def State.overflow (s : State) : Bool := s.flags.getLsbD s.config.encoding.flags.overflow

/-- The Parity flag; no instruction reads it (10_state.md R20). -/
def State.parity (s : State) : Bool := s.flags.getLsbD s.config.encoding.flags.parity

end Sys2Proof.Machine
end

