-- ==== Sys2Proof/Machine/Operands.lean ====
section
/-! DEFINITION. The operand forms (30_encoding.md R63, R64, R68) and the frame every meaning runs in: the program counter moved past
the instruction, and a fault recorded with the instruction's opcode, mode and address (30_encoding.md R78; 60_exceptions.md R171). -/

namespace Sys2Proof.Machine

/-- What an instruction's meaning answers. -/
abbrev Outcome := Host.Outcome State Fault Refusal

/-- The address of an operand in memory: in the stream (Indirect) or in a register (Register-Indirect) (30_encoding.md R63). -/
inductive Address where
  | abs (a : Word)
  | ind (r : Reg)
  deriving DecidableEq, Repr

/-- `EA` (30_encoding.md R68). -/
def Address.ea (x : Address) (s : State) : Word :=
  match x with
  | .abs a => a
  | .ind r => s.readReg r

/-- The source of a sized MOV: a literal, a register, a place in memory (30_encoding.md R63; 40_mov.md R90). -/
inductive Source where
  | imm (v : Word)
  | reg (r : Reg)
  | mem (x : Address)
  deriving DecidableEq, Repr

/-- The destination of a sized MOV: a literal is impossible there (30_encoding.md R71). -/
inductive Dest where
  | reg (r : Reg)
  | mem (x : Address)
  deriving DecidableEq, Repr

/-- The right operand of CMP and of the ALU: a register or a 32-bit literal (42_alu.md R133, R134; 41_compare_and_control.md R101). -/
inductive Right where
  | imm (v : Word)
  | reg (r : Reg)
  deriving DecidableEq, Repr

/-- The source value of a sized MOV, `8n` bits, zero-extended (40_mov.md R90, part 2). -/
def Source.load (o : Source) (n : Size) (s : State) : Res Word :=
  match o with
  | .imm v => .ok (n.cut v) s
  | .reg r => .ok (n.cut (s.readReg r)) s
  | .mem x => memRead s (x.ea s) n

/-- The value of a right operand, 32 bits (42_alu.md R133). -/
def Right.value (o : Right) (s : State) : Word :=
  match o with
  | .imm v => v
  | .reg r => s.readReg r

/-- Runs an instruction that stands at `s.pc`: its bytes have been fetched, so `PC` is past it when the execute phase `body`
begins (30_encoding.md R78); a fault of the execute phase is recorded and the result is a next state (60_exceptions.md R171, R172). -/
def perform (i : Instr) (body : State → Res Unit) (s : State) : Outcome :=
  match body (s.setPc (s.pc + BitVec.ofNat 32 i.length)) with
  | .ok _ t => .next t
  | .trap k info t => .next (t.raiseFault (originOf (encode s.config.encoding i) s.pc) k info)

end Sys2Proof.Machine
end

