-- ==== Sys2Proof/Machine/Alu.lean ====
section
/-! DEFINITION. INC, ADD, MUL, OR, SHL: 42_alu.md R120 to R124, R133, R134. -/

namespace Sys2Proof.Machine

/-- The exact sum, modulo 2^32 (42_alu.md R121). -/
def addWord (a b : Word) : Word := BitVec.ofNat 32 (a.toNat + b.toNat)

/-- The exact product, modulo 2^32 (42_alu.md R122). -/
def mulWord (a b : Word) : Word := BitVec.ofNat 32 (a.toNat * b.toNat)

/-- The bitwise inclusive or (42_alu.md R123). -/
def orWord (a b : Word) : Word := a ||| b

/-- `(a * 2^n) mod 2^32`, the whole count, not masked: 0 for a count of 32 or more (42_alu.md R124). -/
def shlWord (a n : Word) : Word := if n.toNat < 32 then BitVec.ofNat 32 (a.toNat * 2 ^ n.toNat) else 0

/-- The execute phase of ADD, MUL, OR, SHL: both operands are read, then the result is written through the destination view
(42_alu.md R133, R134). -/
def alu (f : Word → Word → Word) (r1 : Reg) (o : Right) (s : State) : Res Unit :=
  .ok () (s.writeReg r1 (f (s.readReg r1) (o.value s)))

/-- ADD Register-Immediate (42_alu.md R121, mode 0x04). -/
def execAddRI (r1 : Reg) (v : Word) (s : State) : Outcome := perform (.addRI r1 v) (alu addWord r1 (.imm v)) s

/-- ADD Register-Register (42_alu.md R121, mode 0x05). -/
def execAddRR (r1 r2 : Reg) (s : State) : Outcome := perform (.addRR r1 r2) (alu addWord r1 (.reg r2)) s

/-- MUL Register-Immediate (42_alu.md R122, mode 0x04). -/
def execMulRI (r1 : Reg) (v : Word) (s : State) : Outcome := perform (.mulRI r1 v) (alu mulWord r1 (.imm v)) s

/-- MUL Register-Register (42_alu.md R122, mode 0x05). -/
def execMulRR (r1 r2 : Reg) (s : State) : Outcome := perform (.mulRR r1 r2) (alu mulWord r1 (.reg r2)) s

/-- INC (42_alu.md R120, mode 0x11). -/
def execInc (r1 : Reg) (s : State) : Outcome := perform (.inc r1) (alu addWord r1 (.imm 1)) s

/-- OR Register-Immediate (42_alu.md R123, mode 0x04). -/
def execOrRI (r1 : Reg) (v : Word) (s : State) : Outcome := perform (.orRI r1 v) (alu orWord r1 (.imm v)) s

/-- OR Register-Register (42_alu.md R123, mode 0x05). -/
def execOrRR (r1 r2 : Reg) (s : State) : Outcome := perform (.orRR r1 r2) (alu orWord r1 (.reg r2)) s

/-- SHL Register-Immediate (42_alu.md R124, mode 0x04). -/
def execShlRI (r1 : Reg) (v : Word) (s : State) : Outcome := perform (.shlRI r1 v) (alu shlWord r1 (.imm v)) s

/-- SHL Register-Register (42_alu.md R124, mode 0x05). -/
def execShlRR (r1 r2 : Reg) (s : State) : Outcome := perform (.shlRR r1 r2) (alu shlWord r1 (.reg r2)) s

end Sys2Proof.Machine
end

