-- ==== Sys2Proof/Machine/Control.lean ====
section
/-! DEFINITION. CMP and the control transfers: 41_compare_and_control.md R100 to R109, R113. -/

namespace Sys2Proof.Machine

/-- The execute phase of CMP: `FLAGS` from the exact difference; nothing else is written (41_compare_and_control.md R101). -/
def compareWith (r1 : Reg) (o : Right) (s : State) : Res Unit :=
  .ok () (s.setFlags (cmpFlags s.config.encoding.flags (cmpDiff (s.readReg r1) (o.value s))))

/-- A jump under a condition on the state; not taken, `PC` stays past the instruction (41_compare_and_control.md R100). -/
def jumpIf (c : State → Bool) (t : Word) (s : State) : Res Unit := .ok () (if c s then s.setPc t else s)

/-- The return address pushed as a qword, then the jump (41_compare_and_control.md R106). -/
def callTo (t : Word) (s : State) : Res Unit := (push s .qword s.pc).andThen fun _ u => .ok () (u.setPc t)

/-- CMP Register-Immediate (41_compare_and_control.md R101, mode 0x04). -/
def execCmpRI (r1 : Reg) (v : Word) (s : State) : Outcome := perform (.cmpRI r1 v) (compareWith r1 (.imm v)) s

/-- CMP Register-Register (41_compare_and_control.md R101, mode 0x05). -/
def execCmpRR (r1 r2 : Reg) (s : State) : Outcome := perform (.cmpRR r1 r2) (compareWith r1 (.reg r2)) s

/-- JMP (41_compare_and_control.md R102). -/
def execJmp (t : Word) (s : State) : Outcome := perform (.jmp t) (jumpIf (fun _ => true) t) s

/-- JE: taken when Zero is set (41_compare_and_control.md R103). -/
def execJe (t : Word) (s : State) : Outcome := perform (.je t) (jumpIf State.zero t) s

/-- JNE: taken when Zero is clear (41_compare_and_control.md R104). -/
def execJne (t : Word) (s : State) : Outcome := perform (.jne t) (jumpIf (fun u => !u.zero) t) s

/-- JL: taken when Underflow is set (41_compare_and_control.md R105). -/
def execJl (t : Word) (s : State) : Outcome := perform (.jl t) (jumpIf State.underflow t) s

/-- CALL (41_compare_and_control.md R106). -/
def execCall (t : Word) (s : State) : Outcome := perform (.call t) (callTo t) s

/-- CALLE: a CALL when Zero is set, else nothing but `PC` past the instruction (41_compare_and_control.md R107). -/
def execCalle (t : Word) (s : State) : Outcome :=
  perform (.calle t) (fun u => if u.zero then callTo t u else .ok () u) s

/-- RET (41_compare_and_control.md R108). -/
def execRet (s : State) : Outcome := perform .ret (fun u => (pop u .qword).andThen fun v w => .ok () (w.setPc v)) s

/-- IRET (41_compare_and_control.md R109). -/
def execIret (s : State) : Outcome := perform .iret returnFromInterrupt s

end Sys2Proof.Machine
end

