-- ==== Sys2Proof/Machine/Mov.lean ====
section
/-! DEFINITION. MOV in its twelve modes: 40_mov.md R90 to R95. -/

namespace Sys2Proof.Machine

/-- The execute phase of a sized MOV: the addresses from the registers it starts with, then the source, then the destination
(40_mov.md R90). -/
def move (n : Size) (d : Dest) (o : Source) (s : State) : Res Unit :=
  match d with
  | .reg r => (o.load n s).andThen fun v t => .ok () (t.writeReg r v)
  | .mem x => (o.load n s).andThen fun v t => memWrite t (x.ea s) n v

/-- The execute phase of MOV Register-Register: no size; the widths are the views' (40_mov.md R90, R91). -/
def copyReg (r1 r2 : Reg) (s : State) : Res Unit := .ok () (s.writeReg r1 (s.readReg r2))

/-- MOV Register-Immediate (40_mov.md R90, mode 0x04). -/
def execMovRI (n : Size) (r1 : Reg) (v : Word) (s : State) : Outcome := perform (.movRI n r1 v) (move n (.reg r1) (.imm v)) s

/-- MOV Register-Register (40_mov.md R90, mode 0x05). -/
def execMovRR (r1 r2 : Reg) (s : State) : Outcome := perform (.movRR r1 r2) (copyReg r1 r2) s

/-- MOV Register-Indirect (40_mov.md R90, mode 0x06). -/
def execMovRA (n : Size) (r1 : Reg) (a2 : Word) (s : State) : Outcome :=
  perform (.movRA n r1 a2) (move n (.reg r1) (.mem (.abs a2))) s

/-- MOV Register-RegisterIndirect (40_mov.md R90, mode 0x07). -/
def execMovRP (n : Size) (r1 r2 : Reg) (s : State) : Outcome :=
  perform (.movRP n r1 r2) (move n (.reg r1) (.mem (.ind r2))) s

/-- MOV Indirect-Immediate (40_mov.md R90, mode 0x08). -/
def execMovAI (n : Size) (a1 v : Word) (s : State) : Outcome :=
  perform (.movAI n a1 v) (move n (.mem (.abs a1)) (.imm v)) s

/-- MOV Indirect-Register (40_mov.md R90, mode 0x09). -/
def execMovAR (n : Size) (a1 : Word) (r2 : Reg) (s : State) : Outcome :=
  perform (.movAR n a1 r2) (move n (.mem (.abs a1)) (.reg r2)) s

/-- MOV Indirect-Indirect (40_mov.md R90, mode 0x0A). -/
def execMovAA (n : Size) (a1 a2 : Word) (s : State) : Outcome :=
  perform (.movAA n a1 a2) (move n (.mem (.abs a1)) (.mem (.abs a2))) s

/-- MOV Indirect-RegisterIndirect (40_mov.md R90, mode 0x0B). -/
def execMovAP (n : Size) (a1 : Word) (r2 : Reg) (s : State) : Outcome :=
  perform (.movAP n a1 r2) (move n (.mem (.abs a1)) (.mem (.ind r2))) s

/-- MOV RegisterIndirect-Immediate (40_mov.md R90, mode 0x0C). -/
def execMovPI (n : Size) (r1 : Reg) (v : Word) (s : State) : Outcome :=
  perform (.movPI n r1 v) (move n (.mem (.ind r1)) (.imm v)) s

/-- MOV RegisterIndirect-Register (40_mov.md R90, mode 0x0D). -/
def execMovPR (n : Size) (r1 r2 : Reg) (s : State) : Outcome :=
  perform (.movPR n r1 r2) (move n (.mem (.ind r1)) (.reg r2)) s

/-- MOV RegisterIndirect-Indirect (40_mov.md R90, mode 0x0E). -/
def execMovPA (n : Size) (r1 : Reg) (a2 : Word) (s : State) : Outcome :=
  perform (.movPA n r1 a2) (move n (.mem (.ind r1)) (.mem (.abs a2))) s

/-- MOV RegisterIndirect-RegisterIndirect (40_mov.md R90, mode 0x0F). -/
def execMovPP (n : Size) (r1 r2 : Reg) (s : State) : Outcome :=
  perform (.movPP n r1 r2) (move n (.mem (.ind r1)) (.mem (.ind r2))) s

end Sys2Proof.Machine
end

