-- ==== Sys2Proof/Machine/PortIo.lean ====
section
/-! DEFINITION. INB and OUTB: 43_port_io.md R140 to R143. -/

namespace Sys2Proof.Machine

/-- INB with a literal byte (43_port_io.md R140, mode 0x00). -/
def execInbII (p v : Byte) (s : State) : Outcome :=
  perform (.inbII p v) (fun u => portDeliver u .w8 p (v.setWidth 32)) s

/-- INB with the low byte of a register (43_port_io.md R140, mode 0x01). -/
def execInbIR (p : Byte) (r2 : Reg) (s : State) : Outcome :=
  perform (.inbIR p r2) (fun u => portDeliver u .w8 p (Size.word.cut (u.readReg r2))) s

/-- INB with a byte of memory, read before the handler is looked for (43_port_io.md R140, mode 0x02). -/
def execInbIA (p : Byte) (a2 : Word) (s : State) : Outcome :=
  perform (.inbIA p a2) (fun u => (memRead u a2 .word).andThen fun v t => portDeliver t .w8 p v) s

/-- OUTB: the answer, zero-extended, written through the destination view (43_port_io.md R143). -/
def execOutbRI (r1 : Reg) (p : Byte) (s : State) : Outcome :=
  perform (.outbRI r1 p) (fun u => (portRequest u .w8 p).andThen fun v t => .ok () (t.writeReg r1 v)) s

end Sys2Proof.Machine
end

