-- ==== Sys2Proof/Machine/StackBlock.lean ====
section
/-! DEFINITION. PUSHA and POPA: 45_stack_block.md R160, R161, R166. -/

namespace Sys2Proof.Machine

/-- A member of the register set that PUSHA and POPA save and restore (45_stack_block.md R160). -/
inductive Saved where
  | gpr (r : GReg)
  | flags
  | clocks
  | special (r : SReg)
  deriving DecidableEq, Repr

/-- Its natural width: dword for `FLAGS` and `CLOCKS`, qword for the rest (45_stack_block.md R160). -/
def Saved.size : Saved → Size
  | .flags | .clocks => .dword
  | .gpr _ | .special _ => .qword

/-- Its value, read when its own push starts (45_stack_block.md R160). -/
def Saved.value (x : Saved) (s : State) : Word :=
  match x with
  | .gpr r => s.gpr.get r
  | .flags => s.flags.setWidth 32
  | .clocks => s.clocks.setWidth 32
  | .special r => s.special r

/-- Writes it with a popped value (45_stack_block.md R161). -/
def Saved.restore (x : Saved) (v : Word) (s : State) : State :=
  match x with
  | .gpr r => s.setGpr r v
  | .flags => s.setFlags (v.setWidth 16)
  | .clocks => s.setClocks (v.setWidth 16)
  | .special r => s.setSpecial r v

/-- The fixed order of PUSHA (45_stack_block.md R160). -/
def pushaOrder : List Saved :=
  [.gpr .a, .gpr .b, .gpr .c, .gpr .d, .gpr .e, .gpr .f, .gpr .w, .gpr .x, .gpr .y, .gpr .z, .flags, .clocks,
   .special .cs, .special .ds, .special .ss, .special .pc, .special .sp, .special .bp]

/-- Pushes in order. -/
def pushAll : List Saved → State → Res Unit
  | [], s => .ok () s
  | x :: rest, s => (push s x.size (x.value s)).andThen fun _ t => pushAll rest t

/-- Pops in order; a popped `SP` replaces the one the pop left (45_stack_block.md R161). -/
def popAll : List Saved → State → Res Unit
  | [], s => .ok () s
  | x :: rest, s => (pop s x.size).andThen fun v t => popAll rest (x.restore v t)

/-- PUSHA (45_stack_block.md R160). -/
def execPusha (s : State) : Outcome := perform .pusha (pushAll pushaOrder) s

/-- POPA: the reverse order; every register is written, `PC` and `SP` too (45_stack_block.md R161). -/
def execPopa (s : State) : Outcome := perform .popa (popAll pushaOrder.reverse) s

end Sys2Proof.Machine
end

