-- ==== Sys2Proof/Machine/System.lean ====
section
/-! DEFINITION. STI, CLI, LDIDT, HLT: 44_system.md R150 to R153. -/

namespace Sys2Proof.Machine

/-- STI (44_system.md R150). -/
def execSti (s : State) : Outcome := perform .sti (fun u => .ok () (u.setIe true)) s

/-- CLI: `IPEND` stays (44_system.md R151). -/
def execCli (s : State) : Outcome := perform .cli (fun u => .ok () (u.setIe false)) s

/-- LDIDT: nothing is read from the table; a second one replaces the base (44_system.md R152). -/
def execLdidt (t : Word) (s : State) : Outcome := perform (.ldidt t) (fun u => .ok () (u.setIdt t)) s

/-- HLT: sets Halted, leaves On (44_system.md R153). -/
def execHlt (s : State) : Outcome := perform .hlt (fun u => .ok () (u.setStatusBit u.bits.halted)) s

end Sys2Proof.Machine
end

