-- ==== Sys2Proof/Machine/Unimplemented.lean ====
section
/-! DEFINITION. The nineteen named, unimplemented instructions: their effect is the fault `UnimplementedOpcode`, a next state
(30_encoding.md R62, R73; 60_exceptions.md R171, R172). -/

namespace Sys2Proof.Machine

/-- The default handler: `raise Fault(UnimplementedOpcode, 0)` (30_encoding.md R62). -/
def noHandler (s : State) : Res Unit := .trap .unimplementedOpcode 0 s

/-- PUSH (45_stack_block.md R162). -/
def execPush (s : State) : Outcome := perform .push noHandler s

/-- POP (45_stack_block.md R163). -/
def execPop (s : State) : Outcome := perform .pop noHandler s

/-- MMSET (45_stack_block.md R164). -/
def execMmset (s : State) : Outcome := perform .mmset noHandler s

/-- MMCPY (45_stack_block.md R165). -/
def execMmcpy (s : State) : Outcome := perform .mmcpy noHandler s

/-- SUB (42_alu.md R125). -/
def execSub (s : State) : Outcome := perform .sub noHandler s

/-- DIV (42_alu.md R126). -/
def execDiv (s : State) : Outcome := perform .div noHandler s

/-- MOD (42_alu.md R127). -/
def execMod (s : State) : Outcome := perform .mod noHandler s

/-- DEC (42_alu.md R128). -/
def execDec (s : State) : Outcome := perform .dec noHandler s

/-- AND (42_alu.md R129). -/
def execAnd (s : State) : Outcome := perform .and noHandler s

/-- NOT (42_alu.md R130). -/
def execNot (s : State) : Outcome := perform .not noHandler s

/-- SHR (42_alu.md R131). -/
def execShr (s : State) : Outcome := perform .shr noHandler s

/-- JLE (41_compare_and_control.md R112). -/
def execJle (s : State) : Outcome := perform .jle noHandler s

/-- JG (41_compare_and_control.md R110). -/
def execJg (s : State) : Outcome := perform .jg noHandler s

/-- JGE (41_compare_and_control.md R111). -/
def execJge (s : State) : Outcome := perform .jge noHandler s

/-- INW (43_port_io.md R144). -/
def execInw (s : State) : Outcome := perform .inw noHandler s

/-- INQ (43_port_io.md R145). -/
def execInq (s : State) : Outcome := perform .inq noHandler s

/-- OUTW (43_port_io.md R146). -/
def execOutw (s : State) : Outcome := perform .outw noHandler s

/-- OUTQ (43_port_io.md R147). -/
def execOutq (s : State) : Outcome := perform .outq noHandler s

/-- INTR (44_system.md R154). -/
def execIntr (s : State) : Outcome := perform .intr noHandler s

end Sys2Proof.Machine
end

