-- ==== Sys2Proof/Machine/Dispatch.lean ====
section
/-! DEFINITION. The dispatch: one arm per constructor of `Instr`, each one call of its meaning. -/

namespace Sys2Proof.Machine

/-- The effect of an instruction that stands at `s.pc` (30_encoding.md R78, step 6). -/
def exec (i : Instr) (s : State) : Host.Outcome State Fault Refusal :=
  match i with
  | .movRI n r1 v => Sys2Proof.Machine.execMovRI n r1 v s
  | .movRR r1 r2 => Sys2Proof.Machine.execMovRR r1 r2 s
  | .movRA n r1 a2 => Sys2Proof.Machine.execMovRA n r1 a2 s
  | .movRP n r1 r2 => Sys2Proof.Machine.execMovRP n r1 r2 s
  | .movAI n a1 v => Sys2Proof.Machine.execMovAI n a1 v s
  | .movAR n a1 r2 => Sys2Proof.Machine.execMovAR n a1 r2 s
  | .movAA n a1 a2 => Sys2Proof.Machine.execMovAA n a1 a2 s
  | .movAP n a1 r2 => Sys2Proof.Machine.execMovAP n a1 r2 s
  | .movPI n r1 v => Sys2Proof.Machine.execMovPI n r1 v s
  | .movPR n r1 r2 => Sys2Proof.Machine.execMovPR n r1 r2 s
  | .movPA n r1 a2 => Sys2Proof.Machine.execMovPA n r1 a2 s
  | .movPP n r1 r2 => Sys2Proof.Machine.execMovPP n r1 r2 s
  | .push => Sys2Proof.Machine.execPush s
  | .pop => Sys2Proof.Machine.execPop s
  | .pusha => Sys2Proof.Machine.execPusha s
  | .popa => Sys2Proof.Machine.execPopa s
  | .mmset => Sys2Proof.Machine.execMmset s
  | .mmcpy => Sys2Proof.Machine.execMmcpy s
  | .addRI r1 v => Sys2Proof.Machine.execAddRI r1 v s
  | .addRR r1 r2 => Sys2Proof.Machine.execAddRR r1 r2 s
  | .sub => Sys2Proof.Machine.execSub s
  | .mulRI r1 v => Sys2Proof.Machine.execMulRI r1 v s
  | .mulRR r1 r2 => Sys2Proof.Machine.execMulRR r1 r2 s
  | .div => Sys2Proof.Machine.execDiv s
  | .mod => Sys2Proof.Machine.execMod s
  | .inc r1 => Sys2Proof.Machine.execInc r1 s
  | .dec => Sys2Proof.Machine.execDec s
  | .and => Sys2Proof.Machine.execAnd s
  | .orRI r1 v => Sys2Proof.Machine.execOrRI r1 v s
  | .orRR r1 r2 => Sys2Proof.Machine.execOrRR r1 r2 s
  | .not => Sys2Proof.Machine.execNot s
  | .shlRI r1 v => Sys2Proof.Machine.execShlRI r1 v s
  | .shlRR r1 r2 => Sys2Proof.Machine.execShlRR r1 r2 s
  | .shr => Sys2Proof.Machine.execShr s
  | .cmpRI r1 v => Sys2Proof.Machine.execCmpRI r1 v s
  | .cmpRR r1 r2 => Sys2Proof.Machine.execCmpRR r1 r2 s
  | .jmp t => Sys2Proof.Machine.execJmp t s
  | .je t => Sys2Proof.Machine.execJe t s
  | .jne t => Sys2Proof.Machine.execJne t s
  | .jl t => Sys2Proof.Machine.execJl t s
  | .jle => Sys2Proof.Machine.execJle s
  | .jg => Sys2Proof.Machine.execJg s
  | .jge => Sys2Proof.Machine.execJge s
  | .call t => Sys2Proof.Machine.execCall t s
  | .calle t => Sys2Proof.Machine.execCalle t s
  | .ret => Sys2Proof.Machine.execRet s
  | .iret => Sys2Proof.Machine.execIret s
  | .inbII p v => Sys2Proof.Machine.execInbII p v s
  | .inbIR p r2 => Sys2Proof.Machine.execInbIR p r2 s
  | .inbIA p a2 => Sys2Proof.Machine.execInbIA p a2 s
  | .inw => Sys2Proof.Machine.execInw s
  | .inq => Sys2Proof.Machine.execInq s
  | .outbRI r1 p => Sys2Proof.Machine.execOutbRI r1 p s
  | .outw => Sys2Proof.Machine.execOutw s
  | .outq => Sys2Proof.Machine.execOutq s
  | .hlt => Sys2Proof.Machine.execHlt s
  | .sti => Sys2Proof.Machine.execSti s
  | .cli => Sys2Proof.Machine.execCli s
  | .ldidt t => Sys2Proof.Machine.execLdidt t s
  | .intr => Sys2Proof.Machine.execIntr s

end Sys2Proof.Machine
end

