-- ==== Sys2Proof/Machine/Fetch.lean ====
section
/-! DEFINITION. Fetching: the decode script run against the memory bus, one field after another from `PC` (30_encoding.md R61, R78; 20_memory.md R57), and the placing of bytes for `State.withFetchWord`. -/

namespace Sys2Proof.Machine

/-- The end of a fetch: an instruction, with the state its bus reads left; or a fault, with the bytes fetched before it. `PC` still
is the instruction's address in the state of either. -/
inductive Fetched where
  | instr (i : Instr) (s : State)
  | fault (k : FaultKind) (info : Word) (seen : List Byte) (s : State)

/-- The fault kind of a rejection (30_encoding.md R73; 60_exceptions.md R170). A script never rejects as truncated. -/
def rejectKind : Reject → FaultKind
  | .unimplementedOpcode _ => .unimplementedOpcode
  | .invalidMode _ => .invalidMode
  | .impossibleMode _ => .impossibleMode
  | .unimplementedMode _ => .unimplementedMode
  | .invalidSize _ => .invalidSize
  | .invalidRegister _ => .invalidRegister
  | .truncated => .busError

/-- What `FINFO` records of a rejection: the bad byte; 0 for an opcode (60_exceptions.md R170). DEDUCED, log 17: for `ImpossibleMode`
and `UnimplementedMode` it is the mode byte, as R170 and 30_encoding.md R71 say, and not the 0 of 10_state.md R27's last clause. -/
def rejectInfo : Reject → Word
  | .unimplementedOpcode _ => 0
  | .invalidMode b | .impossibleMode b | .unimplementedMode b | .invalidSize b | .invalidRegister b => b.setWidth 32
  | .truncated => 0

/-- Runs a decode script for the instruction at `a0`, of which the bytes `seen` have been fetched: every field is read through the
bus at the address just past them (30_encoding.md R61). -/
def fetchScript : Script → Word → List Byte → State → Fetched
  | .done i, _, _, s => .instr i s
  | .reject e, _, seen, s => .fault (rejectKind e) (rejectInfo e) seen s
  | .fetch n k, a0, seen, s =>
    match memRead s (a0 + BitVec.ofNat 32 seen.length) n with
    | .ok v t => fetchScript (k v) a0 (seen ++ leBytes n v) t
    | .trap kind info t => .fault kind info seen t

/-- Fetches and decodes the instruction at `PC`. -/
def fetchInstr (s : State) : Fetched := fetchScript (decodeScript s.config.encoding) s.pc [] s

/-- A fault of the fetch: `PC` stands at the decode point, just past the bytes fetched (60_exceptions.md R172, R173). -/
def fetchFault (k : FaultKind) (info : Word) (seen : List Byte) (s : State) : State :=
  (s.setPc (s.pc + BitVec.ofNat 32 seen.length)).raiseFault (originOf seen s.pc) k info

/-- Puts bytes into RAM at consecutive addresses. -/
def placeBytes : List Byte → Word → State → State
  | [], _, s => s
  | b :: rest, a, s =>
    placeBytes rest (a + 1) (if a.toNat < s.config.memSize then s.setMem (memSet s.mem a.toNat b) else s)

/-- The state with nothing in the way of the next fetch: not halted, the clock running, no outside action due (log 6). -/
def State.readyToFetch (s : State) : State :=
  { (s.clearStatusBit s.bits.halted) with
    clkHalt := false
    clkStop := false
    env := { s.env with schedule := match s.env.schedule with
      | [] => []
      | _ :: rest => [] :: rest } }

end Sys2Proof.Machine
end

