-- ==== Sys2Proof/Machine/Tick.lean ====
section
/-! DEFINITION. The tick (60_exceptions.md R174 to R187) and what outside agents do between two ticks (60_exceptions.md R198). -/

namespace Sys2Proof.Machine

/-! ## Between ticks -/

/-- The bit of `STATUS` that a host may write (10_state.md R22). -/
def HostStatusBit.index (b : StatusBits) : HostStatusBit → Nat
  | .on => b.on
  | .sleeping => b.sleeping
  | .hibernating => b.hibernating
  | .breakpoint => b.breakpoint
  | .dfault => b.dfault
  | .tfault => b.tfault

/-- The host's reset: every piece of state takes its reset value, `RAM` becomes `MEM0`; the configuration and the outside agents
stay (70_reset_and_hazards.md R210; log 8). -/
def State.hostReset (s : State) : State := State.resetOn s.config s.env

/-- One action of an outside agent (60_exceptions.md R198, R181, R192). -/
def applyAction (s : State) : HostAction → State
  | .raise line => s.raiseLine line
  | .clockHalt => s.setClkHalt true
  | .clockResume => s.setClkHalt false
  | .clockStop => s.stopClock
  | .status b v => if v then s.setStatusBit (b.index s.bits) else s.clearStatusBit (b.index s.bits)
  | .reset => s.hostReset

/-- Actions in their order. -/
def applyActions : List HostAction → State → State
  | [], s => s
  | a :: rest, s => applyActions rest (applyAction s a)

/-- The actions due before this step, taken off the schedule (log 4). -/
def applyDue (s : State) : State :=
  match s.env.schedule with
  | [] => s
  | acts :: rest => applyActions acts (s.setEnv { s.env with schedule := rest })

/-! ## The parts of a tick -/

/-- `Step()`: nothing while Halted, else one instruction or the fault of its fetch (60_exceptions.md R175; 30_encoding.md R78). -/
def stepInstr (s : State) : Outcome :=
  if s.halted then .next s
  else match fetchInstr s with
    | .instr i t => exec i t
    | .fault k info seen t => .next (fetchFault k info seen t)

/-- `Service()` (60_exceptions.md R182, R183, R185). -/
def service (s : State) : State :=
  if s.ipend && s.ie then
    match enterInterrupt s with
    | .ok _ t => t
    | .trap k info t => t.raiseFault (serviceOrigin t.pc) k info
  else s

/-- `ShutdownCheck()` (60_exceptions.md R187). -/
def shutdownCheck (s : State) : State := if s.on then s else s.stopClock

/-- The rest of a tick after its instruction: the service, then the shutdown check, whatever the step did (60_exceptions.md R174). -/
def finishTick (o : Outcome) : Outcome :=
  match o with
  | .next t => .next (shutdownCheck (service t))
  | .fault r => .fault r
  | .refused r => .refused r

/-- `Tick()` (60_exceptions.md R174). -/
def tick (s : State) : Outcome := finishTick (stepInstr s.countTick)

/-- The clock sequencer, once the outside actions due are done: a tick while the clock runs, and nothing while it is halted or
stopped (60_exceptions.md R177, R192). -/
def clocked (s : State) : Outcome := if s.clkStop || s.clkHalt then .next s else tick s

/-- One step: what outside agents do before the next tick, then the tick. Once the clock is stopped and no outside agent has an action
left there is no further step; the step in which it stops still leaves its state (60_exceptions.md R177, R198, R199; log 7). -/
def advance (s : State) : Outcome :=
  if s.clkStop && s.env.schedule.isEmpty then .fault .clockStopped else clocked (applyDue s)

end Sys2Proof.Machine
end

