-- ==== Sys2Proof/Machine/Step.lean ====
section
/-! DEFINITION. One step of the machine, and the placing of an instruction where the next step fetches it. -/

namespace Sys2Proof.Machine

/-- One step: what outside agents do before the next tick, then the tick (60_exceptions.md R174, R198). -/
def step (s : State) : Host.Outcome State Fault Refusal := advance s

/-- The state with an instruction, given by its table bits, at `PC`, ready to be fetched by the very next step (log 6). -/
def State.withFetchWord (s : State) (nbits w : Nat) : State := placeBytes (tableBytes nbits w) s.pc s.readyToFetch

end Sys2Proof.Machine
end

