-- ==== Sys2Proof/Safety.lean ====
section
/-! DEFINITION. What counts as a safe state: the run states of 60_exceptions.md R177, the good ends of a run, and the invariants that
claims are stated with. -/

namespace Sys2Proof

/-- Two register operands share no bit (10_state.md R12, R17). -/
def Reg.apart : Reg → Reg → Bool
  | .view r v, .view q u => r != q || decide (u.low + u.width ≤ v.low) || decide (v.low + v.width ≤ u.low)
  | .special r, .special q => r != q
  | .view .., .special _ | .special _, .view .. => true

/-- `width(c)` (10_state.md R16). -/
def Reg.width : Reg → Nat
  | .view _ v => v.width
  | .special _ => 32

end Sys2Proof

namespace Sys2Proof.Machine

/-- The run states (60_exceptions.md R177). -/
inductive RunState where
  | stopped | off | running | halted | faulted
  deriving DecidableEq, Repr

/-- The run state as a function of the state bits (60_exceptions.md R177). -/
def State.runState (s : State) : RunState :=
  if s.clkStop then .stopped
  else if !s.on then .off
  else if !s.halted then .running
  else if s.fault.latch then .faulted
  else .halted

/-- An action that asks for an interrupt. -/
def HostAction.isRaise : HostAction → Bool
  | .raise _ => true
  | .clockHalt | .clockResume | .clockStop | .status .. | .reset => false

/-- No interrupt can arrive: interrupts are disabled, or the environment raises none (60_exceptions.md R177) and none is pending
(DEDUCED, log 7). A halted machine calls no port handler, so only the schedule can raise. -/
def State.noInterruptCanArrive (s : State) : Bool :=
  !s.ie || (!s.ipend && s.env.schedule.all fun acts => acts.all fun a => !a.isRaise)

/-- At rest: Stopped, or Halted or Faulted with no interrupt that can arrive (60_exceptions.md R177). A machine that is Off is not at
rest: its clock has yet to stop. -/
def State.atRest (s : State) : Bool :=
  match s.runState with
  | .stopped => true
  | .halted | .faulted => s.noInterruptCanArrive
  | .off | .running => false

/-- A good end: at rest with no fault since reset (60_exceptions.md R172, R177). -/
def State.goodEnd (s : State) : Bool := s.atRest && !s.fault.latch

/-- An address that RAM serves: no region claims it and it is below `MEM_SIZE` (20_memory.md R40). -/
def State.inRam (s : State) (a : Word) : Bool := (s.config.regionAt a).isNone && decide (a.toNat < s.config.memSize)

/-- An address that something serves: a region or RAM (20_memory.md R40, R48). -/
def State.mapped (s : State) (a : Word) : Bool := (s.config.regionAt a).isSome || decide (a.toNat < s.config.memSize)

/-- The `n` byte addresses from `a`, modulo 2^32. -/
def addrsFrom (a : Word) (n : Nat) : List Word := (List.range n).map fun k => a + BitVec.ofNat 32 k

/-- RAM serves each of the `n` bytes at `a`. -/
def State.ramRange (s : State) (a : Word) (n : Nat) : Bool := (addrsFrom a n).all s.inRam

/-- Something serves each of the `n` bytes at `a`. -/
def State.mappedRange (s : State) (a : Word) (n : Nat) : Bool := (addrsFrom a n).all s.mapped

/-- The RAM byte at an address. -/
def State.ramByte (s : State) (a : Word) : Byte := memGet s.mem a.toNat

/-- The `n` RAM bytes at `a` as a little-endian number, zero-extended (20_memory.md R44, R46). -/
def State.ramValue (s : State) (a : Word) (n : Size) : Word :=
  match n with
  | .word => (s.ramByte a).setWidth 32
  | .dword => (s.ramByte (a + 1) ++ s.ramByte a).setWidth 32
  | .qword => (s.ramByte (a + 3) ++ s.ramByte (a + 2)) ++ (s.ramByte (a + 1) ++ s.ramByte a)

/-- RAM holds the bytes `bs` from `a` on. -/
def State.ramHolds (s : State) (a : Word) : List Byte → Bool
  | [] => true
  | b :: rest => s.inRam a && s.ramByte a == b && s.ramHolds (a + 1) rest

/-- A configuration of this hardware: the register width and number that the spec fixes, encodings that tell every name from every
other, initial RAM contents that are canonical and lie in RAM (00_scope.md R5, R6). -/
def Config.wf (k : Config) : Bool :=
  decide (k.xlen = 32) && decide (k.ngpr = 10) && k.encoding.wf && Memory.wf k.mem0 && memBelow k.memSize k.mem0

/-- The invariant of memory: RAM is in canonical form and lies below `MEM_SIZE`, and the configuration is well formed. -/
def State.memoryOk (s : State) : Bool :=
  Memory.wf s.mem && memBelow s.config.memSize s.mem && Config.wf s.config

/-- The invariant of the fault record: until a fault latches, it is the record reset leaves (10_state.md R27, R32; 60_exceptions.md R170, R171);
once it has, the kind is one of the nine. -/
def State.faultRecordOk (s : State) : Bool :=
  if s.fault.latch then s.fault.kind != .none else s.fault == FaultRecord.clear

/-- The invariant of the descriptor pointer: unset until LDIDT executes (10_state.md R26, R32). -/
def State.idtOk (s : State) : Bool := s.idtSet || s.idtBase == 0

/-- The invariant of the machine: memory, fault record and descriptor pointer. -/
def State.invariant (s : State) : Bool := s.memoryOk && s.faultRecordOk && s.idtOk

/-! ## The terms statements use: what stays as it was, and what a fault leaves -/

/-- The registers as the execute phase of an `n`-byte instruction sees them: `PC` is past it (30_encoding.md R78). -/
def State.past (s : State) (n : Nat) : State := s.setPc (s.pc + BitVec.ofNat 32 n)

/-- Every register operand but `PC` reads as before. -/
def State.sameRegs (s t : State) : Prop := ∀ q : Reg, q ≠ .special .pc → t.readReg q = s.readReg q

/-- Every register operand that shares no bit with `r`, but `PC`, reads as before. -/
def State.sameRegsBut (s t : State) (r : Reg) : Prop :=
  ∀ q : Reg, q.apart r = true → q ≠ .special .pc → t.readReg q = s.readReg q

/-- `FLAGS` and `CLOCKS` are as before. -/
def State.sameFlags (s t : State) : Prop := t.flags = s.flags ∧ t.clocks = s.clocks

/-- The interrupt controller is as before. -/
def State.sameInterrupts (s t : State) : Prop :=
  t.ie = s.ie ∧ t.ipend = s.ipend ∧ t.iline = s.iline ∧ t.idtBase = s.idtBase ∧ t.idtSet = s.idtSet

/-- The clock sequencer and the configuration are as before. -/
def State.sameClock (s t : State) : Prop :=
  t.ticks = s.ticks ∧ t.clkHalt = s.clkHalt ∧ t.clkStop = s.clkStop ∧ t.config = s.config

/-- `STATUS` and the fault record are as before. -/
def State.sameStatus (s t : State) : Prop := t.status = s.status ∧ t.fault = s.fault

/-- All of the control state is as before. -/
def State.sameSystem (s t : State) : Prop := s.sameStatus t ∧ s.sameInterrupts t ∧ s.sameClock t

/-- Every byte of memory reads as before. -/
def State.sameMemory (s t : State) : Prop := ∀ a : Word, t.ramByte a = s.ramByte a

/-- Every byte of memory outside the `n` bytes at `a` reads as before. -/
def State.sameMemoryBut (s t : State) (a : Word) (n : Nat) : Prop :=
  ∀ b : Word, b ∉ addrsFrom a n → t.ramByte b = s.ramByte b

/-- Nothing but `PC` and registers that share a bit with `r` changes; `PC` is past the `n`-byte instruction unless `r` is `PC`
(40_mov.md R94). -/
def State.onlyWrites (s t : State) (r : Reg) (n : Nat) : Prop :=
  (r ≠ .special .pc → t.pc = s.pc + BitVec.ofNat 32 n) ∧
  s.sameRegsBut t r ∧ s.sameFlags t ∧ s.sameSystem t ∧ s.sameMemory t ∧ t.env = s.env

/-- Nothing but `PC` changes. -/
def State.onlyMovesPc (s t : State) (pc : Word) : Prop :=
  t.pc = pc ∧ s.sameRegs t ∧ s.sameFlags t ∧ s.sameSystem t ∧ s.sameMemory t ∧ t.env = s.env

/-- Nothing but `PC`, which is past the `n`-byte instruction, and the `k` bytes of memory at `a` changes. -/
def State.onlyStores (s t : State) (a : Word) (k : Nat) (n : Nat) : Prop :=
  t.pc = s.pc + BitVec.ofNat 32 n ∧
  s.sameRegs t ∧ s.sameFlags t ∧ s.sameSystem t ∧ s.sameMemoryBut t a k ∧ t.env = s.env

/-- The `n`-byte MOV stored the low bytes of `x` at `ea` and changed nothing else but `PC`. -/
def State.storedAt (s t : State) (ea : Word) (n : Size) (x : Nat) (len : Nat) : Prop :=
  (t.ramValue ea n).toNat = x % 2 ^ (8 * n.bytes) ∧ s.onlyStores t ea n.bytes len

/-- What a port handler's answer does to the interrupt controller: a `raise` taken while `IE` is 1 (60_exceptions.md R181; 43_port_io.md
R142). -/
def State.sameButRaise (s t : State) (r : Option Byte) : Prop :=
  t.ie = s.ie ∧ t.idtBase = s.idtBase ∧ t.idtSet = s.idtSet ∧
  (t.ipend, t.iline) = match r, s.ie with
    | some line, true => (true, line)
    | _, _ => (s.ipend, s.iline)

/-- The `n`-byte INB handed `v` to the handler of port `p`, once, in the environment `e`, and changed nothing else but `PC` and what the
handler's answer raises. -/
def State.delivered (s t : State) (e : Env) (p : Byte) (v : Word) (n : Nat) : Prop :=
  t.env = ((e.see (.portDeliver .w8 p v)).portAnswer .w8 p).2 ∧ t.env.log = e.log ++ [.portDeliver .w8 p v] ∧
  t.env.schedule = s.env.schedule ∧ t.pc = s.pc + BitVec.ofNat 32 n ∧
  s.sameRegs t ∧ s.sameFlags t ∧ s.sameStatus t ∧ s.sameClock t ∧ s.sameMemory t ∧
  s.sameButRaise t ((e.see (.portDeliver .w8 p v)).portAnswer .w8 p).1.raises

/-- The fault of an instruction at `s.pc`: the record and the two status bits (60_exceptions.md R171). -/
def State.faultedFrom (s t : State) (k : FaultKind) (info : Word) (opcode mode : Byte) : Prop :=
  t.fault = { latch := true, kind := k, opcode := opcode, mode := mode, addr := s.pc, info := info } ∧
  t.status = s.faultStatus

/-- The byte `j` places above `a` is the first of `n` that nothing serves. -/
def State.firstUnmapped (s : State) (a : Word) (n j : Nat) : Bool :=
  decide (j < n) && s.mappedRange a j && !s.mapped (a + BitVec.ofNat 32 j)

/-- A region claims the address. -/
def State.claimed (s : State) (a : Word) : Bool := (s.config.regionAt a).isSome

/-- The clock runs, no outside action is due and the machine is not halted: the next step runs an instruction. -/
def State.ready (s : State) : Bool := s.env.schedule.isEmpty && !s.clkStop && !s.clkHalt && !s.halted

/-- The encoding of the machine's configuration. -/
abbrev State.encoding (s : State) : Encoding := s.config.encoding

/-! ## What regions see -/

/-- A little-endian number (20_memory.md R46). -/
def leNumber : List Byte → Nat
  | [] => 0
  | b :: rest => b.toNat + 256 * leNumber rest

/-- Byte `k` of a number. -/
def byteOf (v k : Nat) : Nat := v / 256 ^ k % 256

/-- What the regions see of byte reads at these addresses: each byte a region claims goes to the first region that holds it, with the
absolute address and the address relative to that region's start (20_memory.md R41, R42). -/
def State.readEvents (s : State) (as : List Word) : List DeviceEvent :=
  as.filterMap fun a => (s.config.regionAt a).map fun g => .regionRead g a (a - BitVec.ofNat 32 g.start)

/-- The `n` low bytes of a number, the least significant first (20_memory.md R45, R46). -/
def bytesOf (n v : Nat) : List Byte := (List.range n).map fun k => BitVec.ofNat 8 (byteOf v k)

/-- What the regions see of these bytes written at these addresses (20_memory.md R41, R43, R45). -/
def State.writeEvents (s : State) (as : List Word) (bs : List Byte) : List DeviceEvent :=
  (as.zip bs).filterMap fun p => (s.config.regionAt p.1).map fun g => .regionWrite g p.1 (p.1 - BitVec.ofNat 32 g.start) p.2

/-- The bytes at these addresses, read in order in the environment `e`: a region's own answer for a byte it claims, RAM's byte for any
other (20_memory.md R42). -/
def State.busBytes (s : State) : List Word → Env → List Byte
  | [], _ => []
  | a :: rest, e =>
    match s.config.regionAt a with
    | some g =>
      let (b, e1) := (e.see (.regionRead g a (a - BitVec.ofNat 32 g.start))).regionAnswer g a
      b :: s.busBytes rest e1
    | none => s.ramByte a :: s.busBytes rest e

/-- The data bytes a MOV reads, in order (40_mov.md R95). -/
def movReads (i : Instr) (s : State) : List Word :=
  match i with
  | .movRA n _ a2 | .movAA n _ a2 | .movPA n _ a2 => addrsFrom a2 n.bytes
  | .movRP n _ r2 | .movAP n _ r2 | .movPP n _ r2 => addrsFrom ((s.past i.length).readReg r2) n.bytes
  | _ => []

/-- The data bytes a MOV writes, in order (40_mov.md R95). -/
def movWrites (i : Instr) (s : State) : List Word :=
  match i with
  | .movAI n a1 _ | .movAR n a1 _ | .movAA n a1 _ | .movAP n a1 _ => addrsFrom a1 n.bytes
  | .movPI n r1 _ | .movPR n r1 _ | .movPA n r1 _ | .movPP n r1 _ => addrsFrom ((s.past i.length).readReg r1) n.bytes
  | _ => []

/-- The value a MOV moves: the literal, the register or the bytes of memory, `8n` bits of it where the MOV is sized (40_mov.md R90). -/
def movValue (i : Instr) (s : State) : Nat :=
  match i with
  | .movRI n _ v | .movAI n _ v | .movPI n _ v => v.toNat % 2 ^ (8 * n.bytes)
  | .movRR _ r2 => ((s.past i.length).readReg r2).toNat
  | .movAR n _ r2 | .movPR n _ r2 => ((s.past i.length).readReg r2).toNat % 2 ^ (8 * n.bytes)
  | _ => leNumber (s.busBytes (movReads i s) s.env)

/-- The register a MOV writes, if it writes one. -/
def movDest : Instr → Option Reg
  | .movRI _ r1 _ | .movRR r1 _ | .movRA _ r1 _ | .movRP _ r1 _ => some r1
  | _ => none

/-- A MOV, in any of its modes. -/
def isMov : Instr → Bool
  | .movRI .. | .movRR .. | .movRA .. | .movRP .. | .movAI .. | .movAR .. | .movAA .. | .movAP .. | .movPI .. | .movPR .. | .movPA ..
  | .movPP .. => true
  | _ => false

end Sys2Proof.Machine
end

