-- ==== Sys2Proof/Certificates/Slice0/Obligations.lean ====
section
/-! DEFINITION. The statements for the provers, each with the rules of spec/ it rests on. The terms they use are in Safety.lean. -/

open Sys2Proof Sys2Proof.Machine

/-! ## Encoding -/

/-- Under encodings that tell every name from every other, every well-formed instruction, with every operand at every value its encoding
admits, decodes from its own bytes, and the bytes after it are left over (30_encoding.md R60, R64, R69, R78; 00_scope.md R6). -/
def Obligations.DecodeInvertsEncode : Prop :=
  ∀ (e : Encoding) (i : Instr) (rest : List Byte), e.wf = true → i.wf = true → decode e (encode e i ++ rest) = .ok (i, rest)

/-- Whatever decodes is well formed, and the bytes consumed are its encoding: no two byte sequences mean one instruction
(30_encoding.md R69, R73; 00_scope.md R6). -/
def Obligations.EncodeInvertsDecode : Prop :=
  ∀ (e : Encoding) (bs rest : List Byte) (i : Instr), e.wf = true → decode e bs = .ok (i, rest) →
    i.wf = true ∧ bs = encode e i ++ rest

/-- Some of the words 30_encoding.md R75 and 40_mov.md R93 write out, under the spec's own numbers. -/
def Obligations.SampleWordsDecode : Prop :=
  decode Encoding.spec [0x01, 0x04, 0x04, 0x00, 0x78, 0x56, 0x34, 0x12] = .ok (.movRI .qword (.view .a .full) 0x12345678, []) ∧
  decode Encoding.spec [0x01, 0x09, 0x01, 0x00, 0x20, 0x00, 0x00, 0x04] = .ok (.movAR .word 0x2000 (.view .a .hl), []) ∧
  decode Encoding.spec [0x10, 0x05, 0x00, 0x10] = .ok (.addRR (.view .a .full) (.view .b .full), []) ∧
  decode Encoding.spec [0x33, 0x10, 0x10, 0x00, 0x00, 0x00] = .ok (.jne 0x10, []) ∧
  decode Encoding.spec [0x50] = .ok (.hlt, [])

/-- The parameters have the spec's reference values, and the numeric encodings are configuration whose defaults are the spec's own numbers,
written out here: the 42 opcodes, the 20 modes, the 76 register codes (`c[7:4]` the register, `c[3:0]` the view), the three sizes and the
ten fault codes, each the only number of its name and, where the decoder reads it, the only name of its number; the four flags and the
eight status bits, so that a fault sets `0x22` in `STATUS` and an entry clears `0x2` (00_scope.md R5, R6; 10_state.md R16, R19, R22;
30_encoding.md R63, R66, R72; 60_exceptions.md R170). That the host may write the status bits other than On, by which five of them are seen
here, is the model's reading, log 9. -/
def Obligations.SpecNumbersAreTheDefaults : Prop :=
  let opcodes : List (Opcode × Byte) :=
    [(.mov, 0x01), (.push, 0x02), (.pop, 0x03), (.pusha, 0x04), (.popa, 0x05), (.mmset, 0x06), (.mmcpy, 0x07),
     (.add, 0x10), (.sub, 0x11), (.mul, 0x12), (.div, 0x13), (.mod, 0x14), (.inc, 0x15), (.dec, 0x16),
     (.and, 0x20), (.or, 0x21), (.not, 0x22), (.shl, 0x23), (.shr, 0x24),
     (.cmp, 0x30), (.jmp, 0x31), (.je, 0x32), (.jne, 0x33), (.jl, 0x34), (.jle, 0x35), (.jg, 0x36), (.jge, 0x37),
     (.call, 0x38), (.calle, 0x39), (.ret, 0x3A), (.iret, 0x3B),
     (.inb, 0x40), (.inw, 0x41), (.inq, 0x42), (.outb, 0x43), (.outw, 0x44), (.outq, 0x45),
     (.hlt, 0x50), (.sti, 0x51), (.cli, 0x52), (.ldidt, 0x53), (.intr, 0x54)]
  let modes : List (Mode × Byte) :=
    [(.pair .imm .imm, 0x00), (.pair .imm .reg, 0x01), (.pair .imm .abs, 0x02), (.pair .imm .ind, 0x03),
     (.pair .reg .imm, 0x04), (.pair .reg .reg, 0x05), (.pair .reg .abs, 0x06), (.pair .reg .ind, 0x07),
     (.pair .abs .imm, 0x08), (.pair .abs .reg, 0x09), (.pair .abs .abs, 0x0A), (.pair .abs .ind, 0x0B),
     (.pair .ind .imm, 0x0C), (.pair .ind .reg, 0x0D), (.pair .ind .abs, 0x0E), (.pair .ind .ind, 0x0F),
     (.single .imm, 0x10), (.single .reg, 0x11), (.single .abs, 0x12), (.single .ind, 0x13)]
  let gprs : List (GReg × BitVec 4) :=
    [(.a, 0), (.b, 1), (.c, 2), (.d, 3), (.e, 4), (.f, 5), (.w, 6), (.x, 7), (.y, 8), (.z, 9)]
  let views : List (View × BitVec 4) := [(.full, 0), (.h, 1), (.l, 2), (.hh, 3), (.hl, 4), (.lh, 5), (.ll, 6)]
  let specials : List (Reg × Byte) :=
    [(.special .cs, 0xA0), (.special .ds, 0xA1), (.special .ss, 0xA2), (.special .pc, 0xA3), (.special .sp, 0xA4),
     (.special .bp, 0xA5)]
  let regs : List (Reg × Byte) := (gprs.flatMap fun g => views.map fun v => (.view g.1 v.1, g.2 ++ v.2)) ++ specials
  let sizes : List (Size × Byte) := [(.word, 0x01), (.dword, 0x02), (.qword, 0x04)]
  let faults : List (FaultKind × BitVec 4) :=
    [(.none, 0), (.unimplementedOpcode, 1), (.unimplementedMode, 2), (.impossibleMode, 3), (.invalidMode, 4), (.invalidSize, 5),
     (.invalidRegister, 6), (.busError, 7), (.portUnclaimed, 8), (.idtUnset, 9)]
  let hostBits : List (HostStatusBit × Nat) :=
    [(.on, 0), (.sleeping, 2), (.hibernating, 3), (.breakpoint, 4), (.dfault, 6), (.tfault, 7)]
  Config.reference.xlen = 32 ∧ Config.reference.ngpr = 10 ∧ Config.reference.memSize = 0xFFFFF ∧
  Config.reference.clockHz = 1024000 ∧ Config.reference.encoding = Encoding.spec ∧ Encoding.spec.wf = true ∧
  (∀ o b, (Encoding.spec.opcode o = b ↔ (o, b) ∈ opcodes) ∧ (Encoding.spec.opcode? b = some o ↔ (o, b) ∈ opcodes)) ∧
  (∀ m b, (Encoding.spec.mode m = b ↔ (m, b) ∈ modes) ∧ (Encoding.spec.mode? b = some m ↔ (m, b) ∈ modes)) ∧
  (∀ r b, (Encoding.spec.reg r = b ↔ (r, b) ∈ regs) ∧ (Encoding.spec.reg? b = some r ↔ (r, b) ∈ regs)) ∧
  (∀ n b, (Encoding.spec.size n = b ↔ (n, b) ∈ sizes) ∧ (Encoding.spec.size? b = some n ↔ (n, b) ∈ sizes)) ∧
  (∀ k c, Encoding.spec.fault k = c ↔ (k, c) ∈ faults) ∧
  Encoding.spec.flags = { zero := 0, underflow := 1, overflow := 2, parity := 3 } ∧
  Encoding.spec.status =
    { on := 0, halted := 1, sleeping := 2, hibernating := 3, breakpoint := 4, fault := 5, dfault := 6, tfault := 7 } ∧
  ∀ s : State, s.encoding = Encoding.spec →
    s.zero = s.flags.getLsbD 0 ∧ s.underflow = s.flags.getLsbD 1 ∧ s.overflow = s.flags.getLsbD 2 ∧ s.parity = s.flags.getLsbD 3 ∧
    s.on = s.status.getLsbD 0 ∧ s.halted = s.status.getLsbD 1 ∧ s.faultBit = s.status.getLsbD 5 ∧
    s.faultStatus = s.status ||| 0x00000022#32 ∧ s.wakeStatus = s.status &&& 0xFFFFFFFD#32 ∧
    (∀ c, s.faultCode = c ↔ (s.fault.kind, c) ∈ faults) ∧
    ∀ b k, (b, k) ∈ hostBits →
      (applyAction s (.status b true)).status = s.status ||| (1#32 <<< k) ∧
      (applyAction s (.status b false)).status = s.status &&& ~~~(1#32 <<< k)

/-- When the clock runs, nothing is due and the machine is not halted, and RAM holds at `PC` the bytes of an instruction, a step
counts the tick, runs exactly that instruction, and goes on with the service and the shutdown check (60_exceptions.md R174, R175;
30_encoding.md R78; 20_memory.md R57). -/
def Obligations.StepRunsDecodedInstruction : Prop :=
  ∀ (s : State) (i : Instr) (bs : List Byte), s.ready = true → decode s.encoding bs = .ok (i, []) → s.ramHolds s.pc bs = true →
    step s = finishTick (exec i s.countTick)

/-- An illegal encoding in RAM faults with its kind; `PC` is just past the last byte fetched; nothing else changes but the fault's
own marks and the tick count (30_encoding.md R73; 60_exceptions.md R171, R173). The bytes given are exactly those fetched: without the last
one, decoding is not yet decided. That `FINFO` is the mode byte for `ImpossibleMode` and `UnimplementedMode` is the model's reading of two
rules that differ (60_exceptions.md R170 against the "else 0" of 10_state.md R27), log 17. A tick in which an interrupt is due is
FetchFaultThenDueInterrupt's. -/
def Obligations.IllegalEncodingFaults : Prop :=
  ∀ (s : State) (bs : List Byte) (e : Reject), s.ready = true → s.on = true → (s.ipend && s.ie) = false →
    decode s.encoding bs = .error e → e ≠ .truncated → decode s.encoding bs.dropLast = .error .truncated →
    s.ramHolds s.pc bs = true →
    ∃ t, step s = .next t ∧ s.faultedFrom t (rejectKind e) (rejectInfo e) (bs.headD 0) (bs.tail.headD 0) ∧
      t.pc = s.pc + BitVec.ofNat 32 bs.length ∧
      (match e with
        | .unimplementedOpcode b => bs = [b] ∧ t.fault.kind = .unimplementedOpcode ∧ t.fault.info = 0
        | .invalidMode b => bs.length = 2 ∧ bs[1]? = some b ∧ t.fault.kind = .invalidMode ∧ t.fault.info = b.setWidth 32
        | .impossibleMode b => bs.length = 2 ∧ bs[1]? = some b ∧ t.fault.kind = .impossibleMode ∧ t.fault.info = b.setWidth 32
        | .unimplementedMode b =>
          bs.length = 2 ∧ bs[1]? = some b ∧ t.fault.kind = .unimplementedMode ∧ t.fault.info = b.setWidth 32
        | .invalidSize b => bs.length = 3 ∧ bs[2]? = some b ∧ t.fault.kind = .invalidSize ∧ t.fault.info = b.setWidth 32
        | .invalidRegister b =>
          bs.getLast? = some b ∧ t.fault.kind = .invalidRegister ∧ t.fault.info = b.setWidth 32
        | .truncated => False) ∧
      s.sameRegs t ∧ s.sameFlags t ∧ s.sameInterrupts t ∧ s.sameMemory t ∧ t.env = s.env ∧
      t.ticks = s.ticks + 1 ∧ t.clkHalt = s.clkHalt ∧ t.clkStop = s.clkStop ∧ t.config = s.config

/-- A fetch of the opcode byte that nothing serves: BusError, with opcode 0 and both addresses at `PC`, which does not move
(30_encoding.md R61, R78; 60_exceptions.md R171, R173). -/
def Obligations.OpcodeFetchBusError : Prop :=
  ∀ s : State, s.ready = true → s.on = true → (s.ipend && s.ie) = false → s.mapped s.pc = false →
    ∃ t, step s = .next t ∧ s.faultedFrom t .busError s.pc 0 0 ∧ t.pc = s.pc ∧
      s.sameRegs t ∧ s.sameFlags t ∧ s.sameInterrupts t ∧ s.sameMemory t ∧ t.env = s.env ∧
      t.ticks = s.ticks + 1 ∧ t.clkHalt = s.clkHalt ∧ t.clkStop = s.clkStop ∧ t.config = s.config

/-- Whatever the instruction, and whichever of its fields (the opcode, the mode, a size byte, a register byte, a port, an address or a
literal): when the fields before it stand in RAM and it meets a byte nothing serves, the fetch is a BusError at that byte, with `PC` at
the first byte of the field, and the record names the opcode and the mode if they have been fetched, else 0. The bytes of the field
before that one have been read, by the regions that claim them too (30_encoding.md R61, R64, R69, R78; 60_exceptions.md R171, R173). -/
def Obligations.OperandFetchBusError : Prop :=
  ∀ (s : State) (i : Instr) (m j : Nat) (n : Size) (seen : List Byte) (field : Word),
    s.ready = true → s.on = true → (s.ipend && s.ie) = false → s.encoding.wf = true → i.wf = true → i.fields[m]? = some n →
    seen = (encode s.encoding i).take (widthOf (i.fields.take m)) → field = s.pc + BitVec.ofNat 32 seen.length →
    s.ramHolds s.pc seen = true → s.firstUnmapped field n.bytes j = true →
    ∃ t, step s = .next t ∧
      s.faultedFrom t .busError (field + BitVec.ofNat 32 j) (seen.headD 0) (seen.tail.headD 0) ∧ t.pc = field ∧
      s.sameRegs t ∧ s.sameFlags t ∧ s.sameInterrupts t ∧ s.sameMemory t ∧
      t.env.log = s.env.log ++ s.readEvents (addrsFrom field j) ∧ t.env.schedule = s.env.schedule ∧
      t.ticks = s.ticks + 1 ∧ t.clkHalt = s.clkHalt ∧ t.clkStop = s.clkStop ∧ t.config = s.config

/-! ## Registers -/

/-- The four quarters and the full view are the same four bytes, whichever is written and read, the quarters in any order
(10_state.md R13). -/
def Obligations.QuarterViewsAliasFullView : Prop :=
  ∀ (s : State) (r : GReg),
    s.readReg (.view r .full) =
      (s.readReg (.view r .hh) <<< 24) ||| (s.readReg (.view r .hl) <<< 16) |||
        (s.readReg (.view r .lh) <<< 8) ||| s.readReg (.view r .ll) ∧
    (∀ (b0 b1 b2 b3 : Byte) (ws : List (View × Byte)),
      ws.Perm [(.ll, b0), (.lh, b1), (.hl, b2), (.hh, b3)] →
      (ws.foldl (fun u p => u.writeReg (.view r p.1) (p.2.setWidth 32)) s).readReg (.view r .full) =
        (b3.setWidth 32 <<< 24) ||| (b2.setWidth 32 <<< 16) ||| (b1.setWidth 32 <<< 8) ||| b0.setWidth 32) ∧
    (∀ v : Word,
      ((s.writeReg (.view r .full) v).readReg (.view r .ll)).toNat = v.toNat % 256 ∧
      ((s.writeReg (.view r .full) v).readReg (.view r .lh)).toNat = v.toNat / 256 % 256 ∧
      ((s.writeReg (.view r .full) v).readReg (.view r .hl)).toNat = v.toNat / 65536 % 256 ∧
      ((s.writeReg (.view r .full) v).readReg (.view r .hh)).toNat = v.toNat / 16777216)

/-- The two half views are the upper and the lower half of the full view, and each is its two quarters, whichever is written and read;
a write of one half leaves the other (10_state.md R12 to R15). -/
def Obligations.HalfViewsAliasFullView : Prop :=
  ∀ (s : State) (r : GReg),
    s.readReg (.view r .full) = (s.readReg (.view r .h) <<< 16) ||| s.readReg (.view r .l) ∧
    s.readReg (.view r .h) = (s.readReg (.view r .hh) <<< 8) ||| s.readReg (.view r .hl) ∧
    s.readReg (.view r .l) = (s.readReg (.view r .lh) <<< 8) ||| s.readReg (.view r .ll) ∧
    (∀ v : Word,
      ((s.writeReg (.view r .full) v).readReg (.view r .h)).toNat = v.toNat / 65536 ∧
      ((s.writeReg (.view r .full) v).readReg (.view r .l)).toNat = v.toNat % 65536 ∧
      ((s.writeReg (.view r .h) v).readReg (.view r .full)).toNat =
        v.toNat % 65536 * 65536 + (s.readReg (.view r .full)).toNat % 65536 ∧
      ((s.writeReg (.view r .l) v).readReg (.view r .full)).toNat =
        (s.readReg (.view r .full)).toNat / 65536 * 65536 + v.toNat % 65536)

/-- A register write keeps the low bits of the value that the register has room for; every register operand that shares no bit with
it, and the rest of the machine, is as before (10_state.md R14, R15). -/
def Obligations.RegisterWriteKeepsLowBits : Prop :=
  ∀ (s : State) (r : Reg) (w : Word),
    ((s.writeReg r w).readReg r).toNat = w.toNat % 2 ^ r.width ∧
    (∀ q : Reg, q.apart r = true → (s.writeReg r w).readReg q = s.readReg q) ∧
    s.sameFlags (s.writeReg r w) ∧ s.sameSystem (s.writeReg r w) ∧ s.sameMemory (s.writeReg r w) ∧
    (s.writeReg r w).env = s.env

/-! ## Memory, the stack -/

/-- In RAM, a value written is read back at its width; its bytes stand little-endian from the address up; every other byte is as it
was (20_memory.md R42 to R46). The canonical form of memory is the model's own invariant (see StepKeepsInvariant). -/
def Obligations.BusWriteThenReadRoundTrip : Prop :=
  ∀ (s : State) (a : Word) (n : Size) (v : Word), Memory.wf s.mem = true → s.ramRange a n.bytes = true →
    ∃ t r, memWrite s a n v = .ok () t ∧ memRead t a n = .ok r t ∧ r.toNat = v.toNat % 2 ^ (8 * n.bytes) ∧
      (∀ k < n.bytes, (t.ramByte (a + BitVec.ofNat 32 k)).toNat = v.toNat / 2 ^ (8 * k) % 256) ∧
      s.sameMemoryBut t a n.bytes

/-- A wide write whose byte `j` is the first that nothing serves writes the bytes before it, each to its region or to RAM, and then raises
BusError at it; nothing else changes (20_memory.md R43, R45, R48; 60_exceptions.md R172). -/
def Obligations.PartialStoreBeforeBusError : Prop :=
  ∀ (s : State) (a : Word) (n : Size) (v : Word) (j : Nat), Memory.wf s.mem = true → s.firstUnmapped a n.bytes j = true →
    ∃ t, memWrite s a n v = .trap .busError (a + BitVec.ofNat 32 j) t ∧ t = (s.setMem t.mem).setEnv t.env ∧
      t.env.log = s.env.log ++ s.writeEvents (addrsFrom a j) (bytesOf j v.toNat) ∧ t.env.schedule = s.env.schedule ∧
      (∀ k < j, s.claimed (a + BitVec.ofNat 32 k) = false →
        (t.ramByte (a + BitVec.ofNat 32 k)).toNat = byteOf v.toNat k) ∧
      (∀ b : Word, s.claimed b = true ∨ b ∉ addrsFrom a j → t.ramByte b = s.ramByte b)

/-- A byte access goes to the first registered region whose range holds the address, with the absolute address, the address relative to
that region's start and, for a write, the byte; a read answers what that region answers, and RAM under it is not touched. Where no
region holds the address it is RAM's byte if it is below `MEM_SIZE`, and a BusError otherwise (20_memory.md R40 to R43, R48). -/
def Obligations.ByteAccessesGoToTheFirstRegion : Prop :=
  ∀ (s : State) (a : Word) (v : Byte), Memory.wf s.mem = true →
    let holds := fun g : Region => g.start ≤ a.toNat ∧ a.toNat < g.start + g.size
    (∀ (before after : List Region) (g : Region), s.config.regions = before ++ g :: after → (∀ h ∈ before, ¬ holds h) → holds g →
      (∃ b t, readByte s a = .ok b t ∧ t = s.setEnv t.env ∧ t.env.schedule = s.env.schedule ∧
        t.env.log = s.env.log ++ [.regionRead g a (a - BitVec.ofNat 32 g.start)] ∧
        (∀ answer rest, s.env.regionReplies = answer :: rest → b = answer ∧ t.env.regionReplies = rest)) ∧
      (∃ t, writeByte s a v = .ok () t ∧ t = s.setEnv t.env ∧ t.env.schedule = s.env.schedule ∧
        t.env.log = s.env.log ++ [.regionWrite g a (a - BitVec.ofNat 32 g.start) v])) ∧
    ((∀ h ∈ s.config.regions, ¬ holds h) → a.toNat < s.config.memSize →
      readByte s a = .ok (s.ramByte a) s ∧
      (∃ t, writeByte s a v = .ok () t ∧ t = s.setMem t.mem ∧ t.ramByte a = v ∧ ∀ b : Word, b ≠ a → t.ramByte b = s.ramByte b)) ∧
    ((∀ h ∈ s.config.regions, ¬ holds h) → s.config.memSize ≤ a.toNat →
      readByte s a = .trap .busError a s ∧ writeByte s a v = .trap .busError a s)

/-- A wide access makes one byte access for each of its bytes, in ascending order. Each byte that a region claims goes to that region,
once, with the absolute and the relative address and, for a write, its byte of the value; RAM serves the others and is not touched under a
region. The value read is the little-endian number of the bytes the regions and RAM answer (20_memory.md R41 to R46, R58). -/
def Obligations.RegionsInterceptEachByteOnce : Prop :=
  ∀ (s : State) (a : Word) (n : Size) (as : List Word), Memory.wf s.mem = true → as = addrsFrom a n.bytes →
    s.mappedRange a n.bytes = true →
    (∃ r t, memRead s a n = .ok r t ∧ r.toNat = leNumber (s.busBytes as s.env) ∧ t = s.setEnv t.env ∧
      t.env.log = s.env.log ++ s.readEvents as ∧ t.env.schedule = s.env.schedule) ∧
    (∀ v : Word, ∃ t, memWrite s a n v = .ok () t ∧ t = (s.setMem t.mem).setEnv t.env ∧
      t.env.log = s.env.log ++ s.writeEvents as (bytesOf n.bytes v.toNat) ∧ t.env.schedule = s.env.schedule ∧
      (∀ k < n.bytes, s.claimed (a + BitVec.ofNat 32 k) = false →
        (t.ramByte (a + BitVec.ofNat 32 k)).toNat = byteOf v.toNat k) ∧
      (∀ b : Word, s.claimed b = true ∨ b ∉ as → t.ramByte b = s.ramByte b))

/-- A push decrements `SP` by the width and stores there; the pop after it returns the value and restores `SP`; three qword pushes
leave `SP` lower by 12 (20_memory.md R49, R50). -/
def Obligations.PushThenPopRoundTrip : Prop :=
  ∀ (s : State), Memory.wf s.mem = true →
    (∀ (n : Size) (v : Word), s.ramRange (s.sp - BitVec.ofNat 32 n.bytes) n.bytes = true →
      ∃ t r u, push s n v = .ok () t ∧ t.sp = s.sp - BitVec.ofNat 32 n.bytes ∧
        (t.ramValue t.sp n).toNat = v.toNat % 2 ^ (8 * n.bytes) ∧ s.sameMemoryBut t t.sp n.bytes ∧
        pop t n = .ok r u ∧ r.toNat = v.toNat % 2 ^ (8 * n.bytes) ∧ u.sp = s.sp ∧ t.sameMemory u) ∧
    (∀ v1 v2 v3 : Word, s.ramRange (s.sp - 12) 12 = true →
      ∃ t u w, push s .qword v1 = .ok () t ∧ push t .qword v2 = .ok () u ∧ push u .qword v3 = .ok () w ∧
        w.sp = s.sp - 12)

/-! ## MOV -/

/-- MOV into a register: the value, of the size's bytes or the source view, cut to the destination view; nothing else changes
(40_mov.md R90, R91, R94; 30_encoding.md R77). Register sources read with `PC` past the instruction. -/
def Obligations.MovWritesDestinationRegister : Prop :=
  ∀ (n : Size) (r1 r2 : Reg) (a2 v : Word) (s : State),
    (∃ t, exec (.movRI n r1 v) s = .next t ∧ (t.readReg r1).toNat = v.toNat % 2 ^ (8 * n.bytes) % 2 ^ r1.width ∧
      s.onlyWrites t r1 (4 + n.bytes)) ∧
    (∃ t, exec (.movRR r1 r2) s = .next t ∧ (t.readReg r1).toNat = ((s.past 4).readReg r2).toNat % 2 ^ r1.width ∧
      s.onlyWrites t r1 4) ∧
    (s.ramRange a2 n.bytes = true →
      ∃ t, exec (.movRA n r1 a2) s = .next t ∧ (t.readReg r1).toNat = (s.ramValue a2 n).toNat % 2 ^ r1.width ∧
        s.onlyWrites t r1 8) ∧
    (s.ramRange ((s.past 5).readReg r2) n.bytes = true →
      ∃ t, exec (.movRP n r1 r2) s = .next t ∧
        (t.readReg r1).toNat = (s.ramValue ((s.past 5).readReg r2) n).toNat % 2 ^ r1.width ∧ s.onlyWrites t r1 5)

/-- MOV into RAM: the size's low bytes of the source, at the effective address; nothing else changes (40_mov.md R90, R91;
30_encoding.md R68, R77). A source in memory is read whole before the first byte is written. -/
def Obligations.MovStoresAtEffectiveAddress : Prop :=
  ∀ (n : Size) (r1 r2 : Reg) (a1 a2 v : Word) (s : State), Memory.wf s.mem = true →
    (s.ramRange a1 n.bytes = true →
      (∃ t, exec (.movAI n a1 v) s = .next t ∧ s.storedAt t a1 n v.toNat (7 + n.bytes)) ∧
      (∃ t, exec (.movAR n a1 r2) s = .next t ∧ s.storedAt t a1 n ((s.past 8).readReg r2).toNat 8) ∧
      (s.ramRange a2 n.bytes = true →
        ∃ t, exec (.movAA n a1 a2) s = .next t ∧ s.storedAt t a1 n (s.ramValue a2 n).toNat 11) ∧
      (s.ramRange ((s.past 8).readReg r2) n.bytes = true →
        ∃ t, exec (.movAP n a1 r2) s = .next t ∧ s.storedAt t a1 n (s.ramValue ((s.past 8).readReg r2) n).toNat 8)) ∧
    (s.ramRange ((s.past (4 + n.bytes)).readReg r1) n.bytes = true →
      ∃ t, exec (.movPI n r1 v) s = .next t ∧
        s.storedAt t ((s.past (4 + n.bytes)).readReg r1) n v.toNat (4 + n.bytes)) ∧
    (s.ramRange ((s.past 5).readReg r1) n.bytes = true →
      (∃ t, exec (.movPR n r1 r2) s = .next t ∧
        s.storedAt t ((s.past 5).readReg r1) n ((s.past 5).readReg r2).toNat 5) ∧
      (s.ramRange ((s.past 5).readReg r2) n.bytes = true →
        ∃ t, exec (.movPP n r1 r2) s = .next t ∧
          s.storedAt t ((s.past 5).readReg r1) n (s.ramValue ((s.past 5).readReg r2) n).toNat 5)) ∧
    (s.ramRange ((s.past 8).readReg r1) n.bytes = true → s.ramRange a2 n.bytes = true →
      ∃ t, exec (.movPA n r1 a2) s = .next t ∧
        s.storedAt t ((s.past 8).readReg r1) n (s.ramValue a2 n).toNat 8)

/-- Every MOV whose data bytes are all served, by RAM or by regions, completes without a fault. The regions see its data reads and then
its data writes, each byte once, ascending, each write with its byte of the value moved; a register destination gets that value cut to
its view, and of a memory destination the bytes that no region claims get theirs in RAM; nothing else changes but `PC`
(40_mov.md R90, R91, R95; 20_memory.md R42 to R45). -/
def Obligations.MovAccessesBusInOrder : Prop :=
  ∀ (i : Instr) (s : State), isMov i = true → Memory.wf s.mem = true →
    (movReads i s).all s.mapped = true → (movWrites i s).all s.mapped = true →
    ∃ t, exec i s = .next t ∧ s.sameStatus t ∧ s.sameFlags t ∧ s.sameInterrupts t ∧ s.sameClock t ∧
      t.env.log = s.env.log ++ s.readEvents (movReads i s) ++
        s.writeEvents (movWrites i s) (bytesOf (movWrites i s).length (movValue i s)) ∧ t.env.schedule = s.env.schedule ∧
      (movDest i = none → s.sameRegs t ∧ t.pc = s.pc + BitVec.ofNat 32 i.length) ∧
      (∀ r, movDest i = some r → (t.readReg r).toNat = movValue i s % 2 ^ r.width ∧ s.sameRegsBut t r ∧
        (r ≠ .special .pc → t.pc = s.pc + BitVec.ofNat 32 i.length)) ∧
      (∀ k b, (movWrites i s)[k]? = some b → s.claimed b = false → (t.ramByte b).toNat = byteOf (movValue i s) k) ∧
      (∀ b : Word, s.claimed b = true ∨ b ∉ movWrites i s → t.ramByte b = s.ramByte b)

/-- A MOV whose source meets a byte nothing serves faults there and writes no register and no memory; one whose destination does faults
there with the bytes before it written, each to its region or to RAM; nothing else changes but `PC` (40_mov.md R90; 20_memory.md R48;
60_exceptions.md R171, R172). -/
def Obligations.MovBusErrorsAreRecorded : Prop :=
  ∀ (i : Instr) (s : State) (j : Nat) (b : Word), isMov i = true → Memory.wf s.mem = true →
    let failed := fun (t : State) =>
      s.faultedFrom t .busError b (s.encoding.opcode .mov) ((encode s.encoding i).getD 1 0) ∧
      t.pc = s.pc + BitVec.ofNat 32 i.length ∧ s.sameRegs t ∧ s.sameFlags t ∧ s.sameInterrupts t ∧ s.sameClock t ∧
      t.env.schedule = s.env.schedule
    ((movReads i s)[j]? = some b → ((movReads i s).take j).all s.mapped = true → s.mapped b = false →
      ∃ t, exec i s = .next t ∧ failed t ∧ s.sameMemory t ∧
        t.env.log = s.env.log ++ s.readEvents ((movReads i s).take j)) ∧
    ((movReads i s).all s.mapped = true → (movWrites i s)[j]? = some b → ((movWrites i s).take j).all s.mapped = true →
      s.mapped b = false →
      ∃ t, exec i s = .next t ∧ failed t ∧
        t.env.log = s.env.log ++ s.readEvents (movReads i s) ++
          s.writeEvents ((movWrites i s).take j) (bytesOf j (movValue i s)) ∧
        (∀ k c, k < j → (movWrites i s)[k]? = some c → s.claimed c = false → (t.ramByte c).toNat = byteOf (movValue i s) k) ∧
        (∀ c : Word, s.claimed c = true ∨ c ∉ (movWrites i s).take j → t.ramByte c = s.ramByte c))

/-! ## Compare and control transfer -/

/-- CMP computes the exact difference of the two unsigned operands and sets the four flags from it, all 16 bits of `FLAGS` being
written; nothing else changes but `PC` (41_compare_and_control.md R101). Where the flags stand is the configuration's. -/
def Obligations.CmpSetsFlagsFromDifference : Prop :=
  ∀ (r1 r2 : Reg) (v : Word) (s : State),
    let place := s.encoding.flags
    let law := fun (t : State) (a b : Nat) (len : Nat) =>
      (∀ k < 16, (t.flags.getLsbD k = true ↔
        ((a : Int) - b = 0 ∧ k = place.zero) ∨ ((a : Int) - b < 0 ∧ k = place.underflow) ∨
        ((a : Int) - b > 0xFFFFFFFF ∧ k = place.overflow) ∨ (((a : Int) - b) % 2 = 0 ∧ k = place.parity))) ∧
      t.pc = s.pc + BitVec.ofNat 32 len ∧ s.sameRegs t ∧ t.clocks = s.clocks ∧ s.sameSystem t ∧ s.sameMemory t ∧
      t.env = s.env
    (∃ t, exec (.cmpRR r1 r2) s = .next t ∧ law t ((s.past 4).readReg r1).toNat ((s.past 4).readReg r2).toNat 4) ∧
    (∃ t, exec (.cmpRI r1 v) s = .next t ∧ law t ((s.past 7).readReg r1).toNat v.toNat 7)

/-- The table of CMP outcomes, and the only values `FLAGS` can have after a CMP, with the flags where the spec puts them
(41_compare_and_control.md R113; 10_state.md R19). -/
def Obligations.CmpFlagOutcomes : Prop :=
  (∀ (r1 : Reg) (s t : State) (a b : Word) (f : Half), s.encoding.flags = FlagBits.spec →
    (a, b, f) ∈ ([(5, 5, 0x0009), (3, 5, 0x000A), (5, 3, 0x0008), (5, 4, 0x0000), (4, 5, 0x0002), (0xFFFFFFFF, 0, 0x0000),
      (0, 0xFFFFFFFF, 0x0002), (0x80000000, 0x7FFFFFFF, 0x0000)] : List (Word × Word × Half)) →
    (s.past 7).readReg r1 = a → exec (.cmpRI r1 b) s = .next t → t.flags = f) ∧
  (∀ (r1 r2 : Reg) (v : Word) (s t : State), s.encoding.flags = FlagBits.spec →
    exec (.cmpRR r1 r2) s = .next t ∨ exec (.cmpRI r1 v) s = .next t →
    t.flags ∈ ([0x0000, 0x0002, 0x0008, 0x0009, 0x000A] : List Half))

/-- JMP always, JE on Zero, JNE on its absence and JL on Underflow write `PC` with the absolute target; not taken, `PC` is past the
six bytes; nothing else changes (41_compare_and_control.md R100, R102 to R105). -/
def Obligations.JumpsWriteOnlyPc : Prop :=
  ∀ (t : Word) (s : State),
    let zero := s.flags.getLsbD s.encoding.flags.zero
    let underflow := s.flags.getLsbD s.encoding.flags.underflow
    exec (.jmp t) s = .next { s with pc := t } ∧
    exec (.je t) s = .next { s with pc := if zero = true then t else s.pc + 6 } ∧
    exec (.jne t) s = .next { s with pc := if zero = true then s.pc + 6 else t } ∧
    exec (.jl t) s = .next { s with pc := if underflow = true then t else s.pc + 6 }

/-- CALL, and CALLE with Zero set, push the address after the instruction as a qword and jump; CALLE with Zero clear only moves past
itself; a push that meets a byte nothing serves leaves `SP` decremented and `PC` past the instruction
(41_compare_and_control.md R106, R107; 60_exceptions.md R172). -/
def Obligations.CallPushesReturnAddress : Prop :=
  ∀ (target : Word) (s : State), Memory.wf s.mem = true →
    let call := fun (t : State) => t.pc = target ∧ t.sp = s.sp - 4 ∧ t.ramValue t.sp .qword = s.pc + 6 ∧
      s.sameMemoryBut t (s.sp - 4) 4 ∧ s.sameRegsBut t (.special .sp) ∧ s.sameFlags t ∧ s.sameSystem t ∧ t.env = s.env
    let failed := fun (t : State) (j : Nat) (op : Opcode) =>
      s.faultedFrom t .busError (s.sp - 4 + BitVec.ofNat 32 j) (s.encoding.opcode op) (s.encoding.mode (.single .imm)) ∧
      t.sp = s.sp - 4 ∧ t.pc = s.pc + 6 ∧ s.sameRegsBut t (.special .sp) ∧ s.sameFlags t ∧ s.sameInterrupts t ∧
      s.sameClock t ∧ s.sameMemoryBut t (s.sp - 4) j ∧
      t.env.log = s.env.log ++ s.writeEvents (addrsFrom (s.sp - 4) j) (bytesOf j (s.pc + 6).toNat) ∧
      t.env.schedule = s.env.schedule
    (s.ramRange (s.sp - 4) 4 = true →
      (∃ t, exec (.call target) s = .next t ∧ call t) ∧
      (s.zero = true → ∃ t, exec (.calle target) s = .next t ∧ call t)) ∧
    (s.zero = false → ∃ t, exec (.calle target) s = .next t ∧ s.onlyMovesPc t (s.pc + 6)) ∧
    (∀ j, s.firstUnmapped (s.sp - 4) 4 j = true →
      (∃ t, exec (.call target) s = .next t ∧ failed t j .call) ∧
      (s.zero = true → ∃ t, exec (.calle target) s = .next t ∧ failed t j .calle))

/-- RET pops a qword into `PC`; a pop that meets a byte nothing serves leaves `SP` as it was and `PC` past the instruction
(41_compare_and_control.md R108). -/
def Obligations.RetPopsProgramCounter : Prop :=
  ∀ s : State,
    (s.ramRange s.sp 4 = true →
      ∃ t, exec .ret s = .next t ∧ t.pc = s.ramValue s.sp .qword ∧ t.sp = s.sp + 4 ∧ s.sameRegsBut t (.special .sp) ∧
        s.sameFlags t ∧ s.sameSystem t ∧ s.sameMemory t ∧ t.env = s.env) ∧
    (∀ j, s.firstUnmapped s.sp 4 j = true →
      ∃ t, exec .ret s = .next t ∧
        s.faultedFrom t .busError (s.sp + BitVec.ofNat 32 j) (s.encoding.opcode .ret) 0 ∧ t.sp = s.sp ∧
        t.pc = s.pc + 1 ∧ s.sameRegs t ∧ s.sameFlags t ∧ s.sameInterrupts t ∧ s.sameClock t ∧ s.sameMemory t ∧
        t.env.log = s.env.log ++ s.readEvents (addrsFrom s.sp j) ∧ t.env.schedule = s.env.schedule)

/-- IRET pops the whole status word, then `PC`; `FLAGS`, `IE`, the pending slot and the fault record stay; where the second pop
fails, `SP` is past the first, `STATUS` has been replaced and gets Fault and Halted on top; a failing pop changes nothing else but the
record and `PC` (41_compare_and_control.md R109; 60_exceptions.md R171, R172). -/
def Obligations.IretPopsStatusThenProgramCounter : Prop :=
  ∀ s : State,
    (s.ramRange s.sp 4 = true → s.ramRange (s.sp + 4) 4 = true →
      ∃ t, exec .iret s = .next t ∧ t.status = s.ramValue s.sp .qword ∧ t.pc = s.ramValue (s.sp + 4) .qword ∧
        t.sp = s.sp + 8 ∧ s.sameRegsBut t (.special .sp) ∧ s.sameFlags t ∧ t.fault = s.fault ∧ s.sameInterrupts t ∧
        s.sameClock t ∧ s.sameMemory t ∧ t.env = s.env) ∧
    (∀ j, s.firstUnmapped s.sp 4 j = true →
      ∃ t, exec .iret s = .next t ∧
        s.faultedFrom t .busError (s.sp + BitVec.ofNat 32 j) (s.encoding.opcode .iret) 0 ∧ t.sp = s.sp ∧
        t.pc = s.pc + 1 ∧ s.sameRegs t ∧ s.sameFlags t ∧ s.sameInterrupts t ∧ s.sameClock t ∧ s.sameMemory t ∧
        t.env.log = s.env.log ++ s.readEvents (addrsFrom s.sp j) ∧ t.env.schedule = s.env.schedule) ∧
    (∀ j, s.ramRange s.sp 4 = true → s.firstUnmapped (s.sp + 4) 4 j = true →
      ∃ t, exec .iret s = .next t ∧
        (s.setStatus (s.ramValue s.sp .qword)).faultedFrom t .busError (s.sp + 4 + BitVec.ofNat 32 j) (s.encoding.opcode .iret) 0 ∧
        t.sp = s.sp + 4 ∧ t.pc = s.pc + 1 ∧ s.sameRegsBut t (.special .sp) ∧ s.sameFlags t ∧ s.sameInterrupts t ∧
        s.sameClock t ∧ s.sameMemory t ∧ t.env.log = s.env.log ++ s.readEvents (addrsFrom (s.sp + 4) j) ∧
        t.env.schedule = s.env.schedule)

/-- A CALL, and then a RET from any later state with the same `SP`, platform and return slot, comes back to the instruction after the
CALL with `SP` as it was (41_compare_and_control.md R106, R108). -/
def Obligations.CallThenRetReturns : Prop :=
  ∀ (target : Word) (s t u : State), Memory.wf s.mem = true → s.ramRange (s.sp - 4) 4 = true →
    exec (.call target) s = .next t → u.sp = t.sp → u.config = t.config →
    (∀ a ∈ addrsFrom t.sp 4, u.ramByte a = t.ramByte a) →
    ∃ w, exec .ret u = .next w ∧ w.pc = s.pc + 6 ∧ w.sp = s.sp

/-! ## Arithmetic -/

/-- ADD, MUL, SHL, OR and INC: the exact result on the zero-extended operands, reduced to the width of the destination view; no flag
changes, nor anything else; a shift count is not masked (42_alu.md R120 to R124, R133, R134). -/
def Obligations.AluWritesExactResultModWidth : Prop :=
  ∀ (r1 r2 : Reg) (v : Word) (s : State),
    let law := fun (i : Instr) (x : Nat) (len : Nat) =>
      ∃ t, exec i s = .next t ∧ (t.readReg r1).toNat = x % 2 ^ r1.width ∧ s.onlyWrites t r1 len
    let a := fun (len : Nat) => ((s.past len).readReg r1).toNat
    let b := ((s.past 4).readReg r2).toNat
    law (.addRR r1 r2) (a 4 + b) 4 ∧ law (.addRI r1 v) (a 7 + v.toNat) 7 ∧
    law (.mulRR r1 r2) (a 4 * b) 4 ∧ law (.mulRI r1 v) (a 7 * v.toNat) 7 ∧
    law (.shlRR r1 r2) (a 4 * 2 ^ b) 4 ∧ law (.shlRI r1 v) (a 7 * 2 ^ v.toNat) 7 ∧
    law (.orRR r1 r2) (a 4 ||| b) 4 ∧ law (.orRI r1 v) (a 7 ||| v.toNat) 7 ∧
    law (.inc r1) (a 3 + 1) 3

/-! ## Port I/O -/

/-- INB hands the literal, the low byte of the register or the byte of memory to the port's handler exactly once, and nothing in the core
changes but `PC` and what the handler raises. A byte that a region serves is that region's answer, read before the handler is called
(43_port_io.md R140 to R142; 20_memory.md R42, R54). -/
def Obligations.InbDeliversOneByte : Prop :=
  ∀ (p v : Byte) (r2 : Reg) (a2 : Word) (s : State), p ∈ s.config.portIn8 →
    (∃ t, exec (.inbII p v) s = .next t ∧ s.delivered t s.env p (v.setWidth 32) 4) ∧
    (∃ t, exec (.inbIR p r2) s = .next t ∧
      s.delivered t s.env p (BitVec.ofNat 32 (((s.past 4).readReg r2).toNat % 256)) 4) ∧
    (s.inRam a2 = true → ∃ t, exec (.inbIA p a2) s = .next t ∧ s.delivered t s.env p ((s.ramByte a2).setWidth 32) 7) ∧
    (∀ g, s.config.regionAt a2 = some g →
      let answer := (s.env.see (.regionRead g a2 (a2 - BitVec.ofNat 32 g.start))).regionAnswer g a2
      ∃ t, exec (.inbIA p a2) s = .next t ∧ s.delivered t answer.2 p (answer.1.setWidth 32) 7 ∧
        t.env.log = s.env.log ++
          [.regionRead g a2 (a2 - BitVec.ofNat 32 g.start), .portDeliver .w8 p (answer.1.setWidth 32)] ∧
        (∀ b rest, s.env.regionReplies = b :: rest → answer.1 = b))

/-- INB of a byte that nothing serves is a BusError at that address, raised before the port is looked for: whether or not the port has a
handler, none is called and nothing else changes but `PC` (43_port_io.md R140; 20_memory.md R48; 60_exceptions.md R171). -/
def Obligations.InbReadsItsByteBeforeThePort : Prop :=
  ∀ (p : Byte) (a2 : Word) (s : State), s.mapped a2 = false →
    ∃ t, exec (.inbIA p a2) s = .next t ∧
      s.faultedFrom t .busError a2 (s.encoding.opcode .inb) (s.encoding.mode (.pair .imm .abs)) ∧ t.pc = s.pc + 7 ∧
      s.sameRegs t ∧ s.sameFlags t ∧ s.sameInterrupts t ∧ s.sameClock t ∧ s.sameMemory t ∧ t.env = s.env

/-- OUTB asks the port's handler exactly once and writes the byte it answers, zero-extended, through the destination view
(43_port_io.md R142, R143; 20_memory.md R55). -/
def Obligations.OutbStoresAnswer : Prop :=
  ∀ (r1 : Reg) (p : Byte) (s : State), p ∈ s.config.portOut8 →
    let reply := ((s.env.see (.portRequest .w8 p)).portAnswer .w8 p).1
    ∃ t, exec (.outbRI r1 p) s = .next t ∧ (t.readReg r1).toNat = reply.value.toNat % 256 % 2 ^ r1.width ∧
      (∀ answer rest, s.env.portReplies = answer :: rest → reply = answer ∧ t.env.portReplies = rest) ∧
      t.env.log = s.env.log ++ [.portRequest .w8 p] ∧ t.env.schedule = s.env.schedule ∧
      (r1 ≠ .special .pc → t.pc = s.pc + 4) ∧ s.sameRegsBut t r1 ∧ s.sameFlags t ∧ s.sameStatus t ∧ s.sameClock t ∧
      s.sameMemory t ∧ s.sameButRaise t reply.raises

/-- A port instruction whose port has no 8-bit handler in the map of its direction faults with `PortUnclaimed`; no register, no memory
byte and no handler is touched. A byte that a region serves has been read before (43_port_io.md R140, R143; 20_memory.md R53 to R55). -/
def Obligations.UnclaimedPortFaults : Prop :=
  ∀ (p v : Byte) (r : Reg) (a2 : Word) (s : State),
    let failed := fun (t : State) (op : Opcode) (mode : Mode) (len : Nat) =>
      s.faultedFrom t .portUnclaimed (p.setWidth 32) (s.encoding.opcode op) (s.encoding.mode mode) ∧
      t.pc = s.pc + BitVec.ofNat 32 len ∧
      s.sameRegs t ∧ s.sameFlags t ∧ s.sameInterrupts t ∧ s.sameClock t ∧ s.sameMemory t
    (p ∉ s.config.portIn8 →
      (∃ t, exec (.inbII p v) s = .next t ∧ failed t .inb (.pair .imm .imm) 4 ∧ t.env = s.env) ∧
      (∃ t, exec (.inbIR p r) s = .next t ∧ failed t .inb (.pair .imm .reg) 4 ∧ t.env = s.env) ∧
      (s.inRam a2 = true → ∃ t, exec (.inbIA p a2) s = .next t ∧ failed t .inb (.pair .imm .abs) 7 ∧ t.env = s.env) ∧
      (s.claimed a2 = true → ∃ t, exec (.inbIA p a2) s = .next t ∧ failed t .inb (.pair .imm .abs) 7 ∧
        t.env.log = s.env.log ++ s.readEvents [a2] ∧ t.env.schedule = s.env.schedule)) ∧
    (p ∉ s.config.portOut8 → ∃ t, exec (.outbRI r p) s = .next t ∧ failed t .outb (.pair .reg .imm) 4 ∧ t.env = s.env)

/-! ## System -/

/-- STI, CLI, LDIDT and HLT, whole: what each writes, `PC` past it, and nothing else (44_system.md R150 to R153). -/
def Obligations.SystemInstructionsWriteTheirControlState : Prop :=
  ∀ (base : Word) (s : State),
    exec .sti s = .next { s with pc := s.pc + 1, ie := true } ∧
    exec .cli s = .next { s with pc := s.pc + 1, ie := false } ∧
    exec (.ldidt base) s = .next { s with pc := s.pc + 6, idtBase := base, idtSet := true } ∧
    exec .hlt s = .next { s with pc := s.pc + 1, status := s.status ||| (1#32 <<< s.encoding.status.halted.val) }

/-- The nineteen named, unimplemented instructions fault with `UnimplementedOpcode`, `PC` just past the opcode byte; nothing else
changes (30_encoding.md R62, R73; the rule of each instruction). -/
def Obligations.UnimplementedInstructionsFault : Prop :=
  ∀ (s : State) (i : Instr) (o : Opcode),
    (i, o) ∈ ([(.push, .push), (.pop, .pop), (.mmset, .mmset), (.mmcpy, .mmcpy), (.sub, .sub), (.div, .div), (.mod, .mod),
      (.dec, .dec), (.and, .and), (.not, .not), (.shr, .shr), (.jle, .jle), (.jg, .jg), (.jge, .jge), (.inw, .inw),
      (.inq, .inq), (.outw, .outw), (.outq, .outq), (.intr, .intr)] : List (Instr × Opcode)) →
    ∃ t, exec i s = .next t ∧ s.faultedFrom t .unimplementedOpcode 0 (s.encoding.opcode o) 0 ∧ t.pc = s.pc + 1 ∧
      s.sameRegs t ∧ s.sameFlags t ∧ s.sameInterrupts t ∧ s.sameClock t ∧ s.sameMemory t ∧ t.env = s.env

/-! ## PUSHA and POPA -/

/-- The frame PUSHA leaves, by offset from the new `SP` (45_stack_block.md R160, R166). -/
def Obligations.PushaStoresFrame : Prop :=
  ∀ s : State, Memory.wf s.mem = true → s.ramRange (s.sp - 68) 68 = true →
    ∃ t, exec .pusha s = .next t ∧ t.sp = s.sp - 68 ∧ t.pc = s.pc + 1 ∧
      (∀ (off : Word) (v : Word),
        (off, v) ∈ [(0, s.bp), (4, s.sp - 60), (8, s.pc + 1), (12, s.ss), (16, s.ds), (20, s.cs), (28, s.gpr.z), (32, s.gpr.y),
          (36, s.gpr.x), (40, s.gpr.w), (44, s.gpr.f), (48, s.gpr.e), (52, s.gpr.d), (56, s.gpr.c), (60, s.gpr.b),
          (64, s.gpr.a)] → t.ramValue (t.sp + off) .qword = v) ∧
      t.ramValue (t.sp + 24) .dword = s.clocks.setWidth 32 ∧ t.ramValue (t.sp + 26) .dword = s.flags.setWidth 32 ∧
      s.sameMemoryBut t (s.sp - 68) 68 ∧ s.sameRegsBut t (.special .sp) ∧ s.sameFlags t ∧ s.sameSystem t ∧ t.env = s.env

/-- A PUSHA whose push number `m` meets a byte nothing serves faults there: the pushes before it stay, each value at its own slot, `SP` is
where the failing push left it, and nothing else changes but `PC` and the bytes that push had written
(45_stack_block.md R160; 20_memory.md R45, R49; 60_exceptions.md R171, R172). -/
def Obligations.PushaStopsAtAFailingPush : Prop :=
  ∀ (s : State) (m j : Nat) (x : Saved) (slot : Nat → Word), Memory.wf s.mem = true →
    (∀ k, slot k = s.sp - BitVec.ofNat 32 (widthOf ((pushaOrder.take (k + 1)).map Saved.size))) → pushaOrder[m]? = some x →
    (∀ k y, k < m → pushaOrder[k]? = some y → s.ramRange (slot k) y.size.bytes = true) →
    s.firstUnmapped (slot m) x.size.bytes j = true →
    ∃ t, exec .pusha s = .next t ∧
      s.faultedFrom t .busError (slot m + BitVec.ofNat 32 j) (s.encoding.opcode .pusha) 0 ∧ t.sp = slot m ∧ t.pc = s.pc + 1 ∧
      (∀ k y, k < m → pushaOrder[k]? = some y →
        t.ramValue (slot k) y.size = y.value ((s.past 1).setSp (slot k + BitVec.ofNat 32 y.size.bytes))) ∧
      (∀ b : Word, b ∉ addrsFrom (slot m) j → (∀ k y, k < m → pushaOrder[k]? = some y → b ∉ addrsFrom (slot k) y.size.bytes) →
        t.ramByte b = s.ramByte b) ∧
      t.env.log = s.env.log ++ s.writeEvents (addrsFrom (slot m) j)
        (bytesOf j (x.value ((s.past 1).setSp (slot m + BitVec.ofNat 32 x.size.bytes))).toNat) ∧
      s.sameRegsBut t (.special .sp) ∧ s.sameFlags t ∧ s.sameInterrupts t ∧ s.sameClock t ∧ t.env.schedule = s.env.schedule

/-- POPA pops `BP` and `SP` at the old `SP` and the other sixteen at the popped one; it writes every register of the set, `PC` and all
of `FLAGS` among them, and no control state (45_stack_block.md R161). -/
def Obligations.PopaLoadsRegisterSet : Prop :=
  ∀ (s : State) (p : Word), p = s.ramValue (s.sp + 4) .qword → s.ramRange s.sp 8 = true → s.ramRange p 60 = true →
    ∃ t, exec .popa s = .next t ∧ t.bp = s.ramValue s.sp .qword ∧ t.sp = p + 60 ∧ t.pc = s.ramValue p .qword ∧
      t.ss = s.ramValue (p + 4) .qword ∧ t.ds = s.ramValue (p + 8) .qword ∧ t.cs = s.ramValue (p + 12) .qword ∧
      t.clocks.setWidth 32 = s.ramValue (p + 16) .dword ∧ t.flags.setWidth 32 = s.ramValue (p + 18) .dword ∧
      t.gpr.z = s.ramValue (p + 20) .qword ∧ t.gpr.y = s.ramValue (p + 24) .qword ∧ t.gpr.x = s.ramValue (p + 28) .qword ∧
      t.gpr.w = s.ramValue (p + 32) .qword ∧ t.gpr.f = s.ramValue (p + 36) .qword ∧ t.gpr.e = s.ramValue (p + 40) .qword ∧
      t.gpr.d = s.ramValue (p + 44) .qword ∧ t.gpr.c = s.ramValue (p + 48) .qword ∧ t.gpr.b = s.ramValue (p + 52) .qword ∧
      t.gpr.a = s.ramValue (p + 56) .qword ∧ s.sameSystem t ∧ s.sameMemory t ∧ t.env = s.env

/-- A POPA whose pop number `m` meets a byte nothing serves faults there: the registers already popped keep their new values, the others
their old ones, `SP` is where the failing pop found it (at the popped `SP` once `SP` has been popped), and memory is untouched
(45_stack_block.md R161; 20_memory.md R50; 60_exceptions.md R171, R172). -/
def Obligations.PopaStopsAtAFailingPop : Prop :=
  ∀ (s : State) (m j : Nat) (x : Saved) (order : List Saved) (slot : Nat → Word), order = pushaOrder.reverse →
    slot 0 = s.sp → slot 1 = s.sp + 4 →
    (∀ k, slot (k + 2) =
      s.ramValue (s.sp + 4) .qword + BitVec.ofNat 32 (widthOf (((order.drop 2).take k).map Saved.size))) →
    order[m]? = some x → (∀ k y, k < m → order[k]? = some y → s.ramRange (slot k) y.size.bytes = true) →
    s.firstUnmapped (slot m) x.size.bytes j = true →
    ∃ t, exec .popa s = .next t ∧
      s.faultedFrom t .busError (slot m + BitVec.ofNat 32 j) (s.encoding.opcode .popa) 0 ∧ t.sp = slot m ∧
      (∀ k y, k < m → order[k]? = some y → y ≠ .special .sp → y.value t = s.ramValue (slot k) y.size) ∧
      (∀ k y, m ≤ k → order[k]? = some y → y ≠ .special .sp → y.value t = y.value (s.past 1)) ∧
      s.sameInterrupts t ∧ s.sameClock t ∧ s.sameMemory t ∧
      t.env.log = s.env.log ++ s.readEvents (addrsFrom (slot m) j) ∧ t.env.schedule = s.env.schedule

/-- PUSHA, and then a POPA from any later state with the same `SP`, platform and frame, restores the whole register set: control comes
back to the instruction after the PUSHA (45_stack_block.md R160, R161). -/
def Obligations.PushaThenPopaRestoresRegisterSet : Prop :=
  ∀ s t u : State, Memory.wf s.mem = true → s.ramRange (s.sp - 68) 68 = true → exec .pusha s = .next t →
    u.sp = t.sp → u.config = t.config → (∀ a ∈ addrsFrom t.sp 68, u.ramByte a = t.ramByte a) →
    ∃ w, exec .popa u = .next w ∧ w.gpr = s.gpr ∧ w.flags = s.flags ∧ w.clocks = s.clocks ∧ w.cs = s.cs ∧ w.ds = s.ds ∧
      w.ss = s.ss ∧ w.bp = s.bp ∧ w.sp = s.sp ∧ w.pc = s.pc + 1

/-! ## Faults, interrupts, the tick -/

/-- An instruction that changes the fault record leaves it latched, with the instruction's opcode byte, mode byte and address, and
with Fault and Halted set (60_exceptions.md R171). -/
def Obligations.FaultRecordNamesTheInstruction : Prop :=
  ∀ (i : Instr) (s t : State), exec i s = .next t →
    t.fault = s.fault ∨
    (t.fault.latch = true ∧ t.fault.kind ≠ .none ∧ t.fault.opcode = (encode s.encoding i).headD 0 ∧
      t.fault.mode = (encode s.encoding i).tail.headD 0 ∧ t.fault.addr = s.pc ∧ t.halted = true ∧ t.faultBit = true)

/-- Interrupt entry: Halted cleared, `PC` and then the status word pushed, `PC` from the line's descriptor, the slot cleared; `IE`,
the line, the table pointer, `FLAGS`, the other registers and the rest of the machine stay (60_exceptions.md R182 to R184). -/
def Obligations.InterruptEntrySavesAndVectors : Prop :=
  ∀ (s : State) (entry : Word), Memory.wf s.mem = true → s.ipend = true → s.ie = true → s.idtSet = true →
    s.ramRange (s.sp - 8) 8 = true → entry = s.idtBase + 4 * s.iline.setWidth 32 → s.ramRange entry 4 = true →
    (service s).pc = (service s).ramValue entry .qword ∧
    (service s).sp = s.sp - 8 ∧ (service s).status = s.wakeStatus ∧
    (service s).ramValue (s.sp - 8) .qword = s.wakeStatus ∧
    (service s).ramValue (s.sp - 4) .qword = s.pc ∧
    (service s).ipend = false ∧ (service s).iline = s.iline ∧ (service s).ie = s.ie ∧ (service s).fault = s.fault ∧
    (service s).idtBase = s.idtBase ∧ (service s).idtSet = s.idtSet ∧ s.sameClock (service s) ∧ (service s).env = s.env ∧
    s.sameRegsBut (service s) (.special .sp) ∧ s.sameFlags (service s) ∧ s.sameMemoryBut (service s) (s.sp - 8) 8

/-- An interrupt entry whose first push, second push or descriptor read meets a byte nothing serves: the steps before it stay done, the
record comes from the service (opcode 0, mode 0, the current `PC`), `IPEND` stays 1 so that the next service tries again, and nothing
else changes (60_exceptions.md R183, R171, R172). -/
def Obligations.InterruptEntryStopsAtABusError : Prop :=
  ∀ (s : State) (entry : Word) (j : Nat), Memory.wf s.mem = true → s.ipend = true → s.ie = true → s.idtSet = true →
    entry = s.idtBase + 4 * s.iline.setWidth 32 →
    let failed := fun (bad sp : Word) (seen : List DeviceEvent) => s.faultedFrom (service s) .busError bad 0 0 ∧
      (service s).pc = s.pc ∧ (service s).sp = sp ∧ s.sameRegsBut (service s) (.special .sp) ∧ s.sameFlags (service s) ∧
      s.sameInterrupts (service s) ∧ s.sameClock (service s) ∧ (service s).env.log = s.env.log ++ seen ∧
      (service s).env.schedule = s.env.schedule
    (s.firstUnmapped (s.sp - 4) 4 j = true →
      failed (s.sp - 4 + BitVec.ofNat 32 j) (s.sp - 4) (s.writeEvents (addrsFrom (s.sp - 4) j) (bytesOf j s.pc.toNat)) ∧
      s.sameMemoryBut (service s) (s.sp - 4) j) ∧
    (s.ramRange (s.sp - 4) 4 = true → s.firstUnmapped (s.sp - 8) 4 j = true →
      failed (s.sp - 8 + BitVec.ofNat 32 j) (s.sp - 8) (s.writeEvents (addrsFrom (s.sp - 8) j) (bytesOf j s.wakeStatus.toNat)) ∧
      (service s).ramValue (s.sp - 4) .qword = s.pc ∧
      ∀ b : Word, b ∉ addrsFrom (s.sp - 4) 4 → b ∉ addrsFrom (s.sp - 8) j → (service s).ramByte b = s.ramByte b) ∧
    (s.ramRange (s.sp - 8) 8 = true → s.firstUnmapped entry 4 j = true →
      failed (entry + BitVec.ofNat 32 j) (s.sp - 8) (s.readEvents (addrsFrom entry j)) ∧
      (service s).ramValue (s.sp - 4) .qword = s.pc ∧
      (service s).ramValue (s.sp - 8) .qword = s.wakeStatus ∧ s.sameMemoryBut (service s) (s.sp - 8) 8)

/-- Interrupt entry, and then IRET from any later state with the same `SP`, platform and frame, restores `PC`, `SP` and the status
word, Halted apart, which entry cleared before saving it (60_exceptions.md R188; 41_compare_and_control.md R109). -/
def Obligations.InterruptThenIretRestores : Prop :=
  ∀ s u : State, Memory.wf s.mem = true → s.ipend = true → s.ie = true → s.idtSet = true → s.ramRange (s.sp - 8) 8 = true →
    s.ramRange (s.idtBase + 4 * s.iline.setWidth 32) 4 = true →
    u.sp = (service s).sp → u.config = s.config → (∀ a ∈ addrsFrom (s.sp - 8) 8, u.ramByte a = (service s).ramByte a) →
    ∃ w, exec .iret u = .next w ∧ w.pc = s.pc ∧ w.sp = s.sp ∧ w.status = s.wakeStatus ∧ w.halted = false

/-- An interrupt due while the table is unset faults from the service with the line and the current `PC`, and changes nothing else;
the next service does the same again (60_exceptions.md R185). -/
def Obligations.UnsetTableFaultsAndRepeats : Prop :=
  ∀ s : State, s.ipend = true → s.ie = true → s.idtSet = false →
    service s = { s with
      status := s.faultStatus
      fault := { latch := true, kind := .idtUnset, opcode := 0, mode := 0, addr := s.pc, info := s.iline.setWidth 32 } } ∧
    service (service s) = service s

/-- A line raised between two ticks while `IE` is 1 wakes a halted machine at the end of the next tick: the entry is made with the `PC`
the halt left (60_exceptions.md R175, R181 to R183, R186). -/
def Obligations.RaisedLineWakesHaltedMachine : Prop :=
  ∀ (s : State) (line : Byte), Memory.wf s.mem = true → s.encoding.wf = true → s.halted = true → s.on = true →
    s.ie = true → s.idtSet = true → s.clkStop = false → s.clkHalt = false → s.env.schedule = [[.raise line]] →
    s.ramRange (s.sp - 8) 8 = true → s.ramRange (s.idtBase + 4 * line.setWidth 32) 4 = true →
    ∃ t, step s = .next t ∧ t.pc = t.ramValue (s.idtBase + 4 * line.setWidth 32) .qword ∧ t.halted = false ∧
      t.on = true ∧
      t.sp = s.sp - 8 ∧ t.ramValue (s.sp - 4) .qword = s.pc ∧ t.ramValue (s.sp - 8) .qword = s.wakeStatus ∧
      t.ipend = false ∧ t.iline = line ∧ t.ie = true ∧ t.ticks = s.ticks + 1 ∧ t.fault = s.fault ∧
      s.sameRegsBut t (.special .sp) ∧ s.sameFlags t ∧ s.sameMemoryBut t (s.sp - 8) 8 ∧
      t.idtBase = s.idtBase ∧ t.idtSet = s.idtSet ∧ t.clkHalt = false ∧ t.clkStop = false ∧ t.config = s.config ∧
      t.env = { s.env with schedule := [] }

/-- A halted machine with no interrupt due and no outside agent acting changes nothing but the tick count, for any number of ticks
(60_exceptions.md R175, R193; 44_system.md R153). -/
def Obligations.HaltedMachineOnlyCountsTicks : Prop :=
  ∀ (s : State) (k : Nat), s.halted = true → s.on = true → (s.ipend && s.ie) = false → s.clkStop = false → s.clkHalt = false →
    s.env.schedule = [] → Sys2Proof.core.run k s = .next { s with ticks := s.ticks + k }

/-- A machine at rest with its clock running, in an environment that at most raises lines, stays at rest: a step counts its tick, takes the
actions due off the schedule and changes nothing else, whether interrupts are disabled or none is raised (60_exceptions.md R175, R177,
R181). That a machine with `IE` 1 and a line already pending is not at rest is the model's reading, log 7: R177 names only what the
environment raises. -/
def Obligations.RestingMachineStaysAtRest : Prop :=
  ∀ s : State, s.atRest = true → s.clkStop = false → s.clkHalt = false →
    (∀ acts ∈ s.env.schedule, ∀ a ∈ acts, a.isRaise = true) →
    step s = .next { s with ticks := s.ticks + 1, env := { s.env with schedule := s.env.schedule.tail } } ∧
    ({ s with ticks := s.ticks + 1, env := { s.env with schedule := s.env.schedule.tail } } : State).atRest = true

/-- A tick that ends with On clear stops the clock, and there is no further step (60_exceptions.md R177, R187). That a stopped machine
with no outside action left is the model's fault `clockStopped` is the model's choice, log 7. -/
def Obligations.ClearedOnStopsTheClock : Prop :=
  ∀ s t : State, s.env.schedule = [] → s.clkStop = false → s.clkHalt = false → step s = .next t →
    (t.on = false → t.clkStop = true ∧ step t = .fault .clockStopped) ∧ (t.on = true → t.clkStop = false)

/-- A clock stopped from outside ends ticking and its state stays readable: the step of the gap in which it stops answers the state with
`CLKSTOP` set and with all the other actions of that gap done, and no tick; only after the last gap there is no further step
(60_exceptions.md R177, R192, R198, R199). That the end is the fault `clockStopped` is the model's choice, log 7. -/
def Obligations.StoppedClockLeavesItsStateReadable : Prop :=
  ∀ (s : State) (before after : List HostAction) (rest : List (List HostAction)),
    s.env.schedule = (before ++ .clockStop :: after) :: rest → .reset ∉ after →
    ∃ t, t = applyActions (before ++ .clockStop :: after) (s.setEnv { s.env with schedule := rest }) ∧ step s = .next t ∧
      t.clkStop = true ∧ (.reset ∉ before → t.ticks = s.ticks ∧ t.gpr = s.gpr ∧ t.pc = s.pc ∧ s.sameMemory t ∧ t.fault = s.fault) ∧
      (rest = [] → step t = .fault .clockStopped) ∧ (∀ acts more, rest = acts :: more → step t = clocked (applyDue t))

/-- While the clock is halted no tick occurs and nothing changes; resuming it goes on from the same state (60_exceptions.md R192). -/
def Obligations.HaltedClockFreezesTheMachine : Prop :=
  ∀ s : State, s.clkStop = false → s.clkHalt = true →
    (s.env.schedule = [] → step s = .next s) ∧
    (s.env.schedule = [[.clockResume]] → step s = tick { s with clkHalt := false, env := { s.env with schedule := [] } })

/-- A raise is dropped while `IE` is 0; while it is 1 the slot holds the last line raised (60_exceptions.md R181). -/
def Obligations.RaiseKeepsOnlyTheLastLine : Prop :=
  ∀ (s : State) (lines : List Byte) (line : Byte),
    applyActions ((lines ++ [line]).map .raise) s =
      if s.ie then { s with ipend := true, iline := line } else s

/-! ## Invariants and whole-machine rules -/

/-- Every step keeps memory canonical and below `MEM_SIZE`, the fault record at its reset value until a fault latches, and the table
pointer at its reset value until LDIDT executes (20_memory.md R40, R48; 10_state.md R26, R27, R32). The canonical form is the model's
own (log 1). -/
def Obligations.StepKeepsInvariant : Prop :=
  ∀ s t : State, s.invariant = true → step s = .next t → t.invariant = true

/-- The state after reset has the invariant. -/
def Obligations.ResetHasInvariant : Prop :=
  State.reset.invariant = true ∧ ∀ (k : Config) (e : Env), Config.wf k = true → (State.resetOn k e).invariant = true

/-- No step changes the configuration (10_state.md R30; 20_memory.md R41, R53). -/
def Obligations.ConfigurationNeverChanges : Prop :=
  ∀ s t : State, step s = .next t → t.config = s.config

/-- Once a fault has latched, only the host's reset clears the latch (10_state.md R27; 60_exceptions.md R176). -/
def Obligations.OnlyResetClearsFaultLatch : Prop :=
  ∀ s t : State, s.fault.latch = true → HostAction.reset ∉ s.env.schedule.headD [] → step s = .next t →
    t.fault.latch = true

/-- Who writes what: over all sixty instructions, `FLAGS` only CMP and POPA, `CLOCKS` only POPA, `IE` only STI and CLI, the table
pointer only LDIDT, `STATUS` only HLT and IRET but for a fault's own bits, the clock and the configuration none
(10_state.md R20, R21, R23, R24, R26, R28, R30). -/
def Obligations.ControlStateHasOnlyItsWriters : Prop :=
  ∀ (i : Instr) (s t : State), exec i s = .next t →
    ((∀ r v, i ≠ .cmpRI r v) → (∀ r q, i ≠ .cmpRR r q) → i ≠ .popa → t.flags = s.flags) ∧
    (i ≠ .popa → t.clocks = s.clocks) ∧
    (i ≠ .sti → i ≠ .cli → t.ie = s.ie) ∧
    ((∀ v, i ≠ .ldidt v) → t.idtBase = s.idtBase ∧ t.idtSet = s.idtSet) ∧
    (i ≠ .hlt → i ≠ .iret →
      t.status = s.status ∨ (t.status = s.faultStatus ∧ t.fault.latch = true)) ∧
    s.sameClock t

/-- Every instruction, in every state, has a next state: no meaning stops the model (30_encoding.md R73; 60_exceptions.md R171). -/
def Obligations.EveryInstructionHasANextState : Prop :=
  ∀ (i : Instr) (s : State), ∃ t, exec i s = .next t

/-- The host's reset gives every piece of state its reset value and RAM the platform's initial contents; On is the only
status bit set (10_state.md R32; 70_reset_and_hazards.md R210). That the outside agents' own state stays is the model's choice, log 8. -/
def Obligations.HostResetGivesResetValues : Prop :=
  ∀ s t : State, t = applyAction s .reset →
    (∀ r : Reg, t.readReg r = 0) ∧ t.flags = 0 ∧ t.clocks = 0 ∧ t.status = 1#32 <<< s.encoding.status.on.val ∧
    t.ie = false ∧ t.ipend = false ∧ t.iline = 0 ∧ t.idtSet = false ∧ t.idtBase = 0 ∧
    t.fault = { latch := false, kind := .none, opcode := 0, mode := 0, addr := 0, info := 0 } ∧
    t.ticks = 0 ∧ t.clkHalt = false ∧ t.clkStop = false ∧ t.mem = s.config.mem0 ∧ t.config = s.config

/-! ## A fault and an interrupt in one tick -/

/-- A fault of the fetch in a tick in which an interrupt is due: the fault is recorded, and the entry follows in the same tick. Halted is
set and at once cleared, the status word saved has Fault set, and the `PC` saved is the one the fault left: for an illegal encoding, for
an unserved opcode byte and for an unserved byte of a later field (60_exceptions.md R186, R171, R173, R182, R183). That `FINFO` is the
mode byte for `ImpossibleMode` and `UnimplementedMode` is the model's reading, log 17. -/
def Obligations.FetchFaultThenDueInterrupt : Prop :=
  ∀ (s : State) (entry : Word), s.ready = true → s.on = true → s.encoding.wf = true → Memory.wf s.mem = true →
    s.ipend = true → s.ie = true → s.idtSet = true → s.ramRange (s.sp - 8) 8 = true →
    entry = s.idtBase + 4 * s.iline.setWidth 32 → s.ramRange entry 4 = true →
    let entered := fun (t : State) (k : FaultKind) (info : Word) (seen : List Byte) (pc : Word) =>
      t.fault = { latch := true, kind := k, opcode := seen.headD 0, mode := seen.tail.headD 0, addr := s.pc, info := info } ∧
      t.status = s.status ||| (1#32 <<< s.encoding.status.fault.val) ∧ t.halted = false ∧ t.pc = t.ramValue entry .qword ∧
      t.sp = s.sp - 8 ∧ t.ramValue (s.sp - 8) .qword = t.status ∧ t.ramValue (s.sp - 4) .qword = pc ∧
      t.ipend = false ∧ t.iline = s.iline ∧ t.ie = true ∧ t.idtBase = s.idtBase ∧ t.idtSet = true ∧
      s.sameRegsBut t (.special .sp) ∧ s.sameFlags t ∧ s.sameMemoryBut t (s.sp - 8) 8 ∧ t.ticks = s.ticks + 1 ∧
      t.clkHalt = s.clkHalt ∧ t.clkStop = s.clkStop ∧ t.config = s.config ∧ t.env.schedule = s.env.schedule
    (∀ (bs : List Byte) (e : Reject), decode s.encoding bs = .error e → e ≠ .truncated →
      decode s.encoding bs.dropLast = .error .truncated → s.ramHolds s.pc bs = true →
      ∃ t, step s = .next t ∧ entered t (rejectKind e) (rejectInfo e) bs (s.pc + BitVec.ofNat 32 bs.length) ∧ t.env = s.env) ∧
    (s.mapped s.pc = false → ∃ t, step s = .next t ∧ entered t .busError s.pc [] s.pc ∧ t.env = s.env) ∧
    (∀ (i : Instr) (m j : Nat) (n : Size) (seen : List Byte) (field : Word), i.wf = true → i.fields[m]? = some n →
      seen = (encode s.encoding i).take (widthOf (i.fields.take m)) → field = s.pc + BitVec.ofNat 32 seen.length →
      s.ramHolds s.pc seen = true → s.firstUnmapped field n.bytes j = true →
      ∃ t, step s = .next t ∧ entered t .busError (field + BitVec.ofNat 32 j) seen field ∧
        t.env.log = s.env.log ++ s.readEvents (addrsFrom field j))
end

