-- ==== Sys2Proof/Laws/Memory.lean ====
section
/-! SUPPORT. The laws of memory: reading after writing, and every operation keeps the canonical form and the bound on addresses. -/

namespace Sys2Proof.Machine

/-- A list of rising addresses that starts above `a` does not list `a`. -/
theorem memGet_below {lo a : Nat} (m : Memory) (h : memWfFrom lo m = true) (ha : a < lo) : memGet m a = unlistedByte := by
  induction m generalizing lo with
  | nil => rfl
  | cons c rest ih =>
    obtain ⟨b, v⟩ := c
    simp only [memWfFrom, Bool.and_eq_true, decide_eq_true_eq] at h
    have hab : a ≠ b := by omega
    simpa [memGet, hab] using ih h.2 (by omega)

/-- Canonical from a bound is canonical from any lower one. -/
theorem memWfFrom_mono {lo lo' : Nat} (m : Memory) (h : memWfFrom lo m = true) (hl : lo' ≤ lo) : memWfFrom lo' m = true := by
  cases m with
  | nil => rfl
  | cons c rest =>
    obtain ⟨b, v⟩ := c
    simp only [memWfFrom, Bool.and_eq_true, decide_eq_true_eq] at h ⊢
    exact ⟨⟨by omega, h.1.2⟩, h.2⟩

theorem memWfFrom_memCons {lo a : Nat} (v : Byte) (m : Memory) (hl : lo ≤ a) (h : memWfFrom (a + 1) m = true) :
    memWfFrom lo (memCons a v m) = true := by
  unfold memCons
  split
  · exact memWfFrom_mono m h (by omega)
  · rename_i hv
    simp [memWfFrom, hl, h, hv]

/-- Writing keeps the canonical form. -/
theorem memSet_wfFrom {lo a : Nat} (m : Memory) (v : Byte) (h : memWfFrom lo m = true) (hl : lo ≤ a) :
    memWfFrom lo (memSet m a v) = true := by
  induction m generalizing lo with
  | nil => exact memWfFrom_memCons v [] hl rfl
  | cons c rest ih =>
    obtain ⟨b, w⟩ := c
    have h0 := h
    simp only [memWfFrom, Bool.and_eq_true, decide_eq_true_eq] at h
    unfold memSet
    split
    · exact memWfFrom_memCons v _ hl (by simpa [memWfFrom, h.1.2, h.2] using ‹a < b›)
    · split
      · rename_i hab
        subst hab
        exact memWfFrom_memCons v rest hl h.2
      · simp only [memWfFrom, h.1.1, h.1.2, decide_true, Bool.true_and]
        exact ih h.2 (by omega)

/-- Writing keeps the canonical form. -/
theorem memSet_wf (m : Memory) (a : Nat) (v : Byte) (h : Memory.wf m = true) : Memory.wf (memSet m a v) = true :=
  memSet_wfFrom m v h (Nat.zero_le a)

theorem memGet_memCons_same (a : Nat) (v : Byte) (m : Memory) (h : memGet m a = unlistedByte) :
    memGet (memCons a v m) a = v := by
  unfold memCons
  split
  · rename_i hv; rw [h, hv]
  · simp [memGet]

theorem memGet_memCons_other {a b : Nat} (v : Byte) (m : Memory) (h : b ≠ a) : memGet (memCons a v m) b = memGet m b := by
  unfold memCons
  split
  · rfl
  · simp [memGet, h]

/-- A byte written is read back. -/
theorem memGet_memSet_sameFrom {lo : Nat} (m : Memory) (a : Nat) (v : Byte) (h : memWfFrom lo m = true) :
    memGet (memSet m a v) a = v := by
  induction m generalizing lo with
  | nil => exact memGet_memCons_same a v [] rfl
  | cons c rest ih =>
    obtain ⟨b, w⟩ := c
    simp only [memWfFrom, Bool.and_eq_true, decide_eq_true_eq] at h
    unfold memSet
    split
    · rename_i hab
      refine memGet_memCons_same a v _ (memGet_below (lo := b) _ ?_ hab)
      simp [memWfFrom, h.1.2, h.2]
    · split
      · rename_i hab
        subst hab
        exact memGet_memCons_same a v rest (memGet_below rest h.2 (by omega))
      · rename_i hab
        simpa [memGet, hab] using ih h.2

/-- A byte written is read back. -/
theorem memGet_memSet_same (m : Memory) (a : Nat) (v : Byte) (h : Memory.wf m = true) : memGet (memSet m a v) a = v :=
  memGet_memSet_sameFrom m a v h

/-- Every other byte is as it was, in any list. -/
theorem memGet_memSet_other (m : Memory) {a b : Nat} (v : Byte) (h : b ≠ a) : memGet (memSet m a v) b = memGet m b := by
  induction m with
  | nil => exact memGet_memCons_other v [] h
  | cons c rest ih =>
    obtain ⟨e, w⟩ := c
    unfold memSet
    split
    · exact memGet_memCons_other v _ h
    · split
      · rename_i hab
        subst hab
        rw [memGet_memCons_other v rest h]
        simp [memGet, h]
      · simp only [memGet, ih]

/-- Writing below a bound keeps every listed address below it. -/
theorem memSet_below {n : Nat} (m : Memory) {a : Nat} (v : Byte) (h : memBelow n m = true) (ha : a < n) :
    memBelow n (memSet m a v) = true := by
  have cons : ∀ m : Memory, memBelow n m = true → memBelow n (memCons a v m) = true := by
    intro m hm
    unfold memCons
    split
    · exact hm
    · simpa [memBelow, ha] using hm
  induction m with
  | nil => exact cons [] h
  | cons c rest ih =>
    obtain ⟨b, w⟩ := c
    have h' : b < n ∧ memBelow n rest = true := by simpa [memBelow] using h
    unfold memSet
    split
    · exact cons _ h
    · split
      · exact cons _ h'.2
      · have := ih h'.2
        simp only [memBelow, List.all_cons, Bool.and_eq_true, decide_eq_true_eq] at this ⊢
        exact ⟨h'.1, this⟩

end Sys2Proof.Machine
end

