-- ==== Sys2Proof/Laws/State.lean ====
section
/-! SUPPORT. One lemma per field per update of the state: every field but the ones an update names is as it was. -/

namespace Sys2Proof.Machine.State

variable (s : State)

@[simp] theorem setGpr_gpr (r : GReg) (v : Word) : (s.setGpr r v).gpr = s.gpr.set r v := rfl
@[simp] theorem setGpr_cs (r : GReg) (v : Word) : (s.setGpr r v).cs = s.cs := rfl
@[simp] theorem setGpr_ds (r : GReg) (v : Word) : (s.setGpr r v).ds = s.ds := rfl
@[simp] theorem setGpr_ss (r : GReg) (v : Word) : (s.setGpr r v).ss = s.ss := rfl
@[simp] theorem setGpr_pc (r : GReg) (v : Word) : (s.setGpr r v).pc = s.pc := rfl
@[simp] theorem setGpr_sp (r : GReg) (v : Word) : (s.setGpr r v).sp = s.sp := rfl
@[simp] theorem setGpr_bp (r : GReg) (v : Word) : (s.setGpr r v).bp = s.bp := rfl
@[simp] theorem setGpr_flags (r : GReg) (v : Word) : (s.setGpr r v).flags = s.flags := rfl
@[simp] theorem setGpr_clocks (r : GReg) (v : Word) : (s.setGpr r v).clocks = s.clocks := rfl
@[simp] theorem setGpr_status (r : GReg) (v : Word) : (s.setGpr r v).status = s.status := rfl
@[simp] theorem setGpr_ie (r : GReg) (v : Word) : (s.setGpr r v).ie = s.ie := rfl
@[simp] theorem setGpr_ipend (r : GReg) (v : Word) : (s.setGpr r v).ipend = s.ipend := rfl
@[simp] theorem setGpr_iline (r : GReg) (v : Word) : (s.setGpr r v).iline = s.iline := rfl
@[simp] theorem setGpr_idtBase (r : GReg) (v : Word) : (s.setGpr r v).idtBase = s.idtBase := rfl
@[simp] theorem setGpr_idtSet (r : GReg) (v : Word) : (s.setGpr r v).idtSet = s.idtSet := rfl
@[simp] theorem setGpr_fault (r : GReg) (v : Word) : (s.setGpr r v).fault = s.fault := rfl
@[simp] theorem setGpr_ticks (r : GReg) (v : Word) : (s.setGpr r v).ticks = s.ticks := rfl
@[simp] theorem setGpr_clkHalt (r : GReg) (v : Word) : (s.setGpr r v).clkHalt = s.clkHalt := rfl
@[simp] theorem setGpr_clkStop (r : GReg) (v : Word) : (s.setGpr r v).clkStop = s.clkStop := rfl
@[simp] theorem setGpr_mem (r : GReg) (v : Word) : (s.setGpr r v).mem = s.mem := rfl
@[simp] theorem setGpr_config (r : GReg) (v : Word) : (s.setGpr r v).config = s.config := rfl
@[simp] theorem setGpr_env (r : GReg) (v : Word) : (s.setGpr r v).env = s.env := rfl

@[simp] theorem setPc_gpr (v : Word) : (s.setPc v).gpr = s.gpr := rfl
@[simp] theorem setPc_cs (v : Word) : (s.setPc v).cs = s.cs := rfl
@[simp] theorem setPc_ds (v : Word) : (s.setPc v).ds = s.ds := rfl
@[simp] theorem setPc_ss (v : Word) : (s.setPc v).ss = s.ss := rfl
@[simp] theorem setPc_pc (v : Word) : (s.setPc v).pc = v := rfl
@[simp] theorem setPc_sp (v : Word) : (s.setPc v).sp = s.sp := rfl
@[simp] theorem setPc_bp (v : Word) : (s.setPc v).bp = s.bp := rfl
@[simp] theorem setPc_flags (v : Word) : (s.setPc v).flags = s.flags := rfl
@[simp] theorem setPc_clocks (v : Word) : (s.setPc v).clocks = s.clocks := rfl
@[simp] theorem setPc_status (v : Word) : (s.setPc v).status = s.status := rfl
@[simp] theorem setPc_ie (v : Word) : (s.setPc v).ie = s.ie := rfl
@[simp] theorem setPc_ipend (v : Word) : (s.setPc v).ipend = s.ipend := rfl
@[simp] theorem setPc_iline (v : Word) : (s.setPc v).iline = s.iline := rfl
@[simp] theorem setPc_idtBase (v : Word) : (s.setPc v).idtBase = s.idtBase := rfl
@[simp] theorem setPc_idtSet (v : Word) : (s.setPc v).idtSet = s.idtSet := rfl
@[simp] theorem setPc_fault (v : Word) : (s.setPc v).fault = s.fault := rfl
@[simp] theorem setPc_ticks (v : Word) : (s.setPc v).ticks = s.ticks := rfl
@[simp] theorem setPc_clkHalt (v : Word) : (s.setPc v).clkHalt = s.clkHalt := rfl
@[simp] theorem setPc_clkStop (v : Word) : (s.setPc v).clkStop = s.clkStop := rfl
@[simp] theorem setPc_mem (v : Word) : (s.setPc v).mem = s.mem := rfl
@[simp] theorem setPc_config (v : Word) : (s.setPc v).config = s.config := rfl
@[simp] theorem setPc_env (v : Word) : (s.setPc v).env = s.env := rfl

@[simp] theorem setSp_gpr (v : Word) : (s.setSp v).gpr = s.gpr := rfl
@[simp] theorem setSp_cs (v : Word) : (s.setSp v).cs = s.cs := rfl
@[simp] theorem setSp_ds (v : Word) : (s.setSp v).ds = s.ds := rfl
@[simp] theorem setSp_ss (v : Word) : (s.setSp v).ss = s.ss := rfl
@[simp] theorem setSp_pc (v : Word) : (s.setSp v).pc = s.pc := rfl
@[simp] theorem setSp_sp (v : Word) : (s.setSp v).sp = v := rfl
@[simp] theorem setSp_bp (v : Word) : (s.setSp v).bp = s.bp := rfl
@[simp] theorem setSp_flags (v : Word) : (s.setSp v).flags = s.flags := rfl
@[simp] theorem setSp_clocks (v : Word) : (s.setSp v).clocks = s.clocks := rfl
@[simp] theorem setSp_status (v : Word) : (s.setSp v).status = s.status := rfl
@[simp] theorem setSp_ie (v : Word) : (s.setSp v).ie = s.ie := rfl
@[simp] theorem setSp_ipend (v : Word) : (s.setSp v).ipend = s.ipend := rfl
@[simp] theorem setSp_iline (v : Word) : (s.setSp v).iline = s.iline := rfl
@[simp] theorem setSp_idtBase (v : Word) : (s.setSp v).idtBase = s.idtBase := rfl
@[simp] theorem setSp_idtSet (v : Word) : (s.setSp v).idtSet = s.idtSet := rfl
@[simp] theorem setSp_fault (v : Word) : (s.setSp v).fault = s.fault := rfl
@[simp] theorem setSp_ticks (v : Word) : (s.setSp v).ticks = s.ticks := rfl
@[simp] theorem setSp_clkHalt (v : Word) : (s.setSp v).clkHalt = s.clkHalt := rfl
@[simp] theorem setSp_clkStop (v : Word) : (s.setSp v).clkStop = s.clkStop := rfl
@[simp] theorem setSp_mem (v : Word) : (s.setSp v).mem = s.mem := rfl
@[simp] theorem setSp_config (v : Word) : (s.setSp v).config = s.config := rfl
@[simp] theorem setSp_env (v : Word) : (s.setSp v).env = s.env := rfl

@[simp] theorem setFlags_gpr (v : Half) : (s.setFlags v).gpr = s.gpr := rfl
@[simp] theorem setFlags_cs (v : Half) : (s.setFlags v).cs = s.cs := rfl
@[simp] theorem setFlags_ds (v : Half) : (s.setFlags v).ds = s.ds := rfl
@[simp] theorem setFlags_ss (v : Half) : (s.setFlags v).ss = s.ss := rfl
@[simp] theorem setFlags_pc (v : Half) : (s.setFlags v).pc = s.pc := rfl
@[simp] theorem setFlags_sp (v : Half) : (s.setFlags v).sp = s.sp := rfl
@[simp] theorem setFlags_bp (v : Half) : (s.setFlags v).bp = s.bp := rfl
@[simp] theorem setFlags_flags (v : Half) : (s.setFlags v).flags = v := rfl
@[simp] theorem setFlags_clocks (v : Half) : (s.setFlags v).clocks = s.clocks := rfl
@[simp] theorem setFlags_status (v : Half) : (s.setFlags v).status = s.status := rfl
@[simp] theorem setFlags_ie (v : Half) : (s.setFlags v).ie = s.ie := rfl
@[simp] theorem setFlags_ipend (v : Half) : (s.setFlags v).ipend = s.ipend := rfl
@[simp] theorem setFlags_iline (v : Half) : (s.setFlags v).iline = s.iline := rfl
@[simp] theorem setFlags_idtBase (v : Half) : (s.setFlags v).idtBase = s.idtBase := rfl
@[simp] theorem setFlags_idtSet (v : Half) : (s.setFlags v).idtSet = s.idtSet := rfl
@[simp] theorem setFlags_fault (v : Half) : (s.setFlags v).fault = s.fault := rfl
@[simp] theorem setFlags_ticks (v : Half) : (s.setFlags v).ticks = s.ticks := rfl
@[simp] theorem setFlags_clkHalt (v : Half) : (s.setFlags v).clkHalt = s.clkHalt := rfl
@[simp] theorem setFlags_clkStop (v : Half) : (s.setFlags v).clkStop = s.clkStop := rfl
@[simp] theorem setFlags_mem (v : Half) : (s.setFlags v).mem = s.mem := rfl
@[simp] theorem setFlags_config (v : Half) : (s.setFlags v).config = s.config := rfl
@[simp] theorem setFlags_env (v : Half) : (s.setFlags v).env = s.env := rfl

@[simp] theorem setClocks_gpr (v : Half) : (s.setClocks v).gpr = s.gpr := rfl
@[simp] theorem setClocks_cs (v : Half) : (s.setClocks v).cs = s.cs := rfl
@[simp] theorem setClocks_ds (v : Half) : (s.setClocks v).ds = s.ds := rfl
@[simp] theorem setClocks_ss (v : Half) : (s.setClocks v).ss = s.ss := rfl
@[simp] theorem setClocks_pc (v : Half) : (s.setClocks v).pc = s.pc := rfl
@[simp] theorem setClocks_sp (v : Half) : (s.setClocks v).sp = s.sp := rfl
@[simp] theorem setClocks_bp (v : Half) : (s.setClocks v).bp = s.bp := rfl
@[simp] theorem setClocks_flags (v : Half) : (s.setClocks v).flags = s.flags := rfl
@[simp] theorem setClocks_clocks (v : Half) : (s.setClocks v).clocks = v := rfl
@[simp] theorem setClocks_status (v : Half) : (s.setClocks v).status = s.status := rfl
@[simp] theorem setClocks_ie (v : Half) : (s.setClocks v).ie = s.ie := rfl
@[simp] theorem setClocks_ipend (v : Half) : (s.setClocks v).ipend = s.ipend := rfl
@[simp] theorem setClocks_iline (v : Half) : (s.setClocks v).iline = s.iline := rfl
@[simp] theorem setClocks_idtBase (v : Half) : (s.setClocks v).idtBase = s.idtBase := rfl
@[simp] theorem setClocks_idtSet (v : Half) : (s.setClocks v).idtSet = s.idtSet := rfl
@[simp] theorem setClocks_fault (v : Half) : (s.setClocks v).fault = s.fault := rfl
@[simp] theorem setClocks_ticks (v : Half) : (s.setClocks v).ticks = s.ticks := rfl
@[simp] theorem setClocks_clkHalt (v : Half) : (s.setClocks v).clkHalt = s.clkHalt := rfl
@[simp] theorem setClocks_clkStop (v : Half) : (s.setClocks v).clkStop = s.clkStop := rfl
@[simp] theorem setClocks_mem (v : Half) : (s.setClocks v).mem = s.mem := rfl
@[simp] theorem setClocks_config (v : Half) : (s.setClocks v).config = s.config := rfl
@[simp] theorem setClocks_env (v : Half) : (s.setClocks v).env = s.env := rfl

@[simp] theorem setStatus_gpr (v : Word) : (s.setStatus v).gpr = s.gpr := rfl
@[simp] theorem setStatus_cs (v : Word) : (s.setStatus v).cs = s.cs := rfl
@[simp] theorem setStatus_ds (v : Word) : (s.setStatus v).ds = s.ds := rfl
@[simp] theorem setStatus_ss (v : Word) : (s.setStatus v).ss = s.ss := rfl
@[simp] theorem setStatus_pc (v : Word) : (s.setStatus v).pc = s.pc := rfl
@[simp] theorem setStatus_sp (v : Word) : (s.setStatus v).sp = s.sp := rfl
@[simp] theorem setStatus_bp (v : Word) : (s.setStatus v).bp = s.bp := rfl
@[simp] theorem setStatus_flags (v : Word) : (s.setStatus v).flags = s.flags := rfl
@[simp] theorem setStatus_clocks (v : Word) : (s.setStatus v).clocks = s.clocks := rfl
@[simp] theorem setStatus_status (v : Word) : (s.setStatus v).status = v := rfl
@[simp] theorem setStatus_ie (v : Word) : (s.setStatus v).ie = s.ie := rfl
@[simp] theorem setStatus_ipend (v : Word) : (s.setStatus v).ipend = s.ipend := rfl
@[simp] theorem setStatus_iline (v : Word) : (s.setStatus v).iline = s.iline := rfl
@[simp] theorem setStatus_idtBase (v : Word) : (s.setStatus v).idtBase = s.idtBase := rfl
@[simp] theorem setStatus_idtSet (v : Word) : (s.setStatus v).idtSet = s.idtSet := rfl
@[simp] theorem setStatus_fault (v : Word) : (s.setStatus v).fault = s.fault := rfl
@[simp] theorem setStatus_ticks (v : Word) : (s.setStatus v).ticks = s.ticks := rfl
@[simp] theorem setStatus_clkHalt (v : Word) : (s.setStatus v).clkHalt = s.clkHalt := rfl
@[simp] theorem setStatus_clkStop (v : Word) : (s.setStatus v).clkStop = s.clkStop := rfl
@[simp] theorem setStatus_mem (v : Word) : (s.setStatus v).mem = s.mem := rfl
@[simp] theorem setStatus_config (v : Word) : (s.setStatus v).config = s.config := rfl
@[simp] theorem setStatus_env (v : Word) : (s.setStatus v).env = s.env := rfl

@[simp] theorem setStatusBit_gpr (i : Nat) : (s.setStatusBit i).gpr = s.gpr := rfl
@[simp] theorem setStatusBit_cs (i : Nat) : (s.setStatusBit i).cs = s.cs := rfl
@[simp] theorem setStatusBit_ds (i : Nat) : (s.setStatusBit i).ds = s.ds := rfl
@[simp] theorem setStatusBit_ss (i : Nat) : (s.setStatusBit i).ss = s.ss := rfl
@[simp] theorem setStatusBit_pc (i : Nat) : (s.setStatusBit i).pc = s.pc := rfl
@[simp] theorem setStatusBit_sp (i : Nat) : (s.setStatusBit i).sp = s.sp := rfl
@[simp] theorem setStatusBit_bp (i : Nat) : (s.setStatusBit i).bp = s.bp := rfl
@[simp] theorem setStatusBit_flags (i : Nat) : (s.setStatusBit i).flags = s.flags := rfl
@[simp] theorem setStatusBit_clocks (i : Nat) : (s.setStatusBit i).clocks = s.clocks := rfl
@[simp] theorem setStatusBit_status (i : Nat) : (s.setStatusBit i).status = setBit s.status i := rfl
@[simp] theorem setStatusBit_ie (i : Nat) : (s.setStatusBit i).ie = s.ie := rfl
@[simp] theorem setStatusBit_ipend (i : Nat) : (s.setStatusBit i).ipend = s.ipend := rfl
@[simp] theorem setStatusBit_iline (i : Nat) : (s.setStatusBit i).iline = s.iline := rfl
@[simp] theorem setStatusBit_idtBase (i : Nat) : (s.setStatusBit i).idtBase = s.idtBase := rfl
@[simp] theorem setStatusBit_idtSet (i : Nat) : (s.setStatusBit i).idtSet = s.idtSet := rfl
@[simp] theorem setStatusBit_fault (i : Nat) : (s.setStatusBit i).fault = s.fault := rfl
@[simp] theorem setStatusBit_ticks (i : Nat) : (s.setStatusBit i).ticks = s.ticks := rfl
@[simp] theorem setStatusBit_clkHalt (i : Nat) : (s.setStatusBit i).clkHalt = s.clkHalt := rfl
@[simp] theorem setStatusBit_clkStop (i : Nat) : (s.setStatusBit i).clkStop = s.clkStop := rfl
@[simp] theorem setStatusBit_mem (i : Nat) : (s.setStatusBit i).mem = s.mem := rfl
@[simp] theorem setStatusBit_config (i : Nat) : (s.setStatusBit i).config = s.config := rfl
@[simp] theorem setStatusBit_env (i : Nat) : (s.setStatusBit i).env = s.env := rfl

@[simp] theorem clearStatusBit_gpr (i : Nat) : (s.clearStatusBit i).gpr = s.gpr := rfl
@[simp] theorem clearStatusBit_cs (i : Nat) : (s.clearStatusBit i).cs = s.cs := rfl
@[simp] theorem clearStatusBit_ds (i : Nat) : (s.clearStatusBit i).ds = s.ds := rfl
@[simp] theorem clearStatusBit_ss (i : Nat) : (s.clearStatusBit i).ss = s.ss := rfl
@[simp] theorem clearStatusBit_pc (i : Nat) : (s.clearStatusBit i).pc = s.pc := rfl
@[simp] theorem clearStatusBit_sp (i : Nat) : (s.clearStatusBit i).sp = s.sp := rfl
@[simp] theorem clearStatusBit_bp (i : Nat) : (s.clearStatusBit i).bp = s.bp := rfl
@[simp] theorem clearStatusBit_flags (i : Nat) : (s.clearStatusBit i).flags = s.flags := rfl
@[simp] theorem clearStatusBit_clocks (i : Nat) : (s.clearStatusBit i).clocks = s.clocks := rfl
@[simp] theorem clearStatusBit_status (i : Nat) : (s.clearStatusBit i).status = clearBit s.status i := rfl
@[simp] theorem clearStatusBit_ie (i : Nat) : (s.clearStatusBit i).ie = s.ie := rfl
@[simp] theorem clearStatusBit_ipend (i : Nat) : (s.clearStatusBit i).ipend = s.ipend := rfl
@[simp] theorem clearStatusBit_iline (i : Nat) : (s.clearStatusBit i).iline = s.iline := rfl
@[simp] theorem clearStatusBit_idtBase (i : Nat) : (s.clearStatusBit i).idtBase = s.idtBase := rfl
@[simp] theorem clearStatusBit_idtSet (i : Nat) : (s.clearStatusBit i).idtSet = s.idtSet := rfl
@[simp] theorem clearStatusBit_fault (i : Nat) : (s.clearStatusBit i).fault = s.fault := rfl
@[simp] theorem clearStatusBit_ticks (i : Nat) : (s.clearStatusBit i).ticks = s.ticks := rfl
@[simp] theorem clearStatusBit_clkHalt (i : Nat) : (s.clearStatusBit i).clkHalt = s.clkHalt := rfl
@[simp] theorem clearStatusBit_clkStop (i : Nat) : (s.clearStatusBit i).clkStop = s.clkStop := rfl
@[simp] theorem clearStatusBit_mem (i : Nat) : (s.clearStatusBit i).mem = s.mem := rfl
@[simp] theorem clearStatusBit_config (i : Nat) : (s.clearStatusBit i).config = s.config := rfl
@[simp] theorem clearStatusBit_env (i : Nat) : (s.clearStatusBit i).env = s.env := rfl

@[simp] theorem setIe_gpr (v : Bool) : (s.setIe v).gpr = s.gpr := rfl
@[simp] theorem setIe_cs (v : Bool) : (s.setIe v).cs = s.cs := rfl
@[simp] theorem setIe_ds (v : Bool) : (s.setIe v).ds = s.ds := rfl
@[simp] theorem setIe_ss (v : Bool) : (s.setIe v).ss = s.ss := rfl
@[simp] theorem setIe_pc (v : Bool) : (s.setIe v).pc = s.pc := rfl
@[simp] theorem setIe_sp (v : Bool) : (s.setIe v).sp = s.sp := rfl
@[simp] theorem setIe_bp (v : Bool) : (s.setIe v).bp = s.bp := rfl
@[simp] theorem setIe_flags (v : Bool) : (s.setIe v).flags = s.flags := rfl
@[simp] theorem setIe_clocks (v : Bool) : (s.setIe v).clocks = s.clocks := rfl
@[simp] theorem setIe_status (v : Bool) : (s.setIe v).status = s.status := rfl
@[simp] theorem setIe_ie (v : Bool) : (s.setIe v).ie = v := rfl
@[simp] theorem setIe_ipend (v : Bool) : (s.setIe v).ipend = s.ipend := rfl
@[simp] theorem setIe_iline (v : Bool) : (s.setIe v).iline = s.iline := rfl
@[simp] theorem setIe_idtBase (v : Bool) : (s.setIe v).idtBase = s.idtBase := rfl
@[simp] theorem setIe_idtSet (v : Bool) : (s.setIe v).idtSet = s.idtSet := rfl
@[simp] theorem setIe_fault (v : Bool) : (s.setIe v).fault = s.fault := rfl
@[simp] theorem setIe_ticks (v : Bool) : (s.setIe v).ticks = s.ticks := rfl
@[simp] theorem setIe_clkHalt (v : Bool) : (s.setIe v).clkHalt = s.clkHalt := rfl
@[simp] theorem setIe_clkStop (v : Bool) : (s.setIe v).clkStop = s.clkStop := rfl
@[simp] theorem setIe_mem (v : Bool) : (s.setIe v).mem = s.mem := rfl
@[simp] theorem setIe_config (v : Bool) : (s.setIe v).config = s.config := rfl
@[simp] theorem setIe_env (v : Bool) : (s.setIe v).env = s.env := rfl

@[simp] theorem setIdt_gpr (v : Word) : (s.setIdt v).gpr = s.gpr := rfl
@[simp] theorem setIdt_cs (v : Word) : (s.setIdt v).cs = s.cs := rfl
@[simp] theorem setIdt_ds (v : Word) : (s.setIdt v).ds = s.ds := rfl
@[simp] theorem setIdt_ss (v : Word) : (s.setIdt v).ss = s.ss := rfl
@[simp] theorem setIdt_pc (v : Word) : (s.setIdt v).pc = s.pc := rfl
@[simp] theorem setIdt_sp (v : Word) : (s.setIdt v).sp = s.sp := rfl
@[simp] theorem setIdt_bp (v : Word) : (s.setIdt v).bp = s.bp := rfl
@[simp] theorem setIdt_flags (v : Word) : (s.setIdt v).flags = s.flags := rfl
@[simp] theorem setIdt_clocks (v : Word) : (s.setIdt v).clocks = s.clocks := rfl
@[simp] theorem setIdt_status (v : Word) : (s.setIdt v).status = s.status := rfl
@[simp] theorem setIdt_ie (v : Word) : (s.setIdt v).ie = s.ie := rfl
@[simp] theorem setIdt_ipend (v : Word) : (s.setIdt v).ipend = s.ipend := rfl
@[simp] theorem setIdt_iline (v : Word) : (s.setIdt v).iline = s.iline := rfl
@[simp] theorem setIdt_idtBase (v : Word) : (s.setIdt v).idtBase = v := rfl
@[simp] theorem setIdt_idtSet (v : Word) : (s.setIdt v).idtSet = true := rfl
@[simp] theorem setIdt_fault (v : Word) : (s.setIdt v).fault = s.fault := rfl
@[simp] theorem setIdt_ticks (v : Word) : (s.setIdt v).ticks = s.ticks := rfl
@[simp] theorem setIdt_clkHalt (v : Word) : (s.setIdt v).clkHalt = s.clkHalt := rfl
@[simp] theorem setIdt_clkStop (v : Word) : (s.setIdt v).clkStop = s.clkStop := rfl
@[simp] theorem setIdt_mem (v : Word) : (s.setIdt v).mem = s.mem := rfl
@[simp] theorem setIdt_config (v : Word) : (s.setIdt v).config = s.config := rfl
@[simp] theorem setIdt_env (v : Word) : (s.setIdt v).env = s.env := rfl

@[simp] theorem clearPending_gpr : (s.clearPending).gpr = s.gpr := rfl
@[simp] theorem clearPending_cs : (s.clearPending).cs = s.cs := rfl
@[simp] theorem clearPending_ds : (s.clearPending).ds = s.ds := rfl
@[simp] theorem clearPending_ss : (s.clearPending).ss = s.ss := rfl
@[simp] theorem clearPending_pc : (s.clearPending).pc = s.pc := rfl
@[simp] theorem clearPending_sp : (s.clearPending).sp = s.sp := rfl
@[simp] theorem clearPending_bp : (s.clearPending).bp = s.bp := rfl
@[simp] theorem clearPending_flags : (s.clearPending).flags = s.flags := rfl
@[simp] theorem clearPending_clocks : (s.clearPending).clocks = s.clocks := rfl
@[simp] theorem clearPending_status : (s.clearPending).status = s.status := rfl
@[simp] theorem clearPending_ie : (s.clearPending).ie = s.ie := rfl
@[simp] theorem clearPending_ipend : (s.clearPending).ipend = false := rfl
@[simp] theorem clearPending_iline : (s.clearPending).iline = s.iline := rfl
@[simp] theorem clearPending_idtBase : (s.clearPending).idtBase = s.idtBase := rfl
@[simp] theorem clearPending_idtSet : (s.clearPending).idtSet = s.idtSet := rfl
@[simp] theorem clearPending_fault : (s.clearPending).fault = s.fault := rfl
@[simp] theorem clearPending_ticks : (s.clearPending).ticks = s.ticks := rfl
@[simp] theorem clearPending_clkHalt : (s.clearPending).clkHalt = s.clkHalt := rfl
@[simp] theorem clearPending_clkStop : (s.clearPending).clkStop = s.clkStop := rfl
@[simp] theorem clearPending_mem : (s.clearPending).mem = s.mem := rfl
@[simp] theorem clearPending_config : (s.clearPending).config = s.config := rfl
@[simp] theorem clearPending_env : (s.clearPending).env = s.env := rfl

@[simp] theorem countTick_gpr : (s.countTick).gpr = s.gpr := rfl
@[simp] theorem countTick_cs : (s.countTick).cs = s.cs := rfl
@[simp] theorem countTick_ds : (s.countTick).ds = s.ds := rfl
@[simp] theorem countTick_ss : (s.countTick).ss = s.ss := rfl
@[simp] theorem countTick_pc : (s.countTick).pc = s.pc := rfl
@[simp] theorem countTick_sp : (s.countTick).sp = s.sp := rfl
@[simp] theorem countTick_bp : (s.countTick).bp = s.bp := rfl
@[simp] theorem countTick_flags : (s.countTick).flags = s.flags := rfl
@[simp] theorem countTick_clocks : (s.countTick).clocks = s.clocks := rfl
@[simp] theorem countTick_status : (s.countTick).status = s.status := rfl
@[simp] theorem countTick_ie : (s.countTick).ie = s.ie := rfl
@[simp] theorem countTick_ipend : (s.countTick).ipend = s.ipend := rfl
@[simp] theorem countTick_iline : (s.countTick).iline = s.iline := rfl
@[simp] theorem countTick_idtBase : (s.countTick).idtBase = s.idtBase := rfl
@[simp] theorem countTick_idtSet : (s.countTick).idtSet = s.idtSet := rfl
@[simp] theorem countTick_fault : (s.countTick).fault = s.fault := rfl
@[simp] theorem countTick_ticks : (s.countTick).ticks = s.ticks + 1 := rfl
@[simp] theorem countTick_clkHalt : (s.countTick).clkHalt = s.clkHalt := rfl
@[simp] theorem countTick_clkStop : (s.countTick).clkStop = s.clkStop := rfl
@[simp] theorem countTick_mem : (s.countTick).mem = s.mem := rfl
@[simp] theorem countTick_config : (s.countTick).config = s.config := rfl
@[simp] theorem countTick_env : (s.countTick).env = s.env := rfl

@[simp] theorem setClkHalt_gpr (v : Bool) : (s.setClkHalt v).gpr = s.gpr := rfl
@[simp] theorem setClkHalt_cs (v : Bool) : (s.setClkHalt v).cs = s.cs := rfl
@[simp] theorem setClkHalt_ds (v : Bool) : (s.setClkHalt v).ds = s.ds := rfl
@[simp] theorem setClkHalt_ss (v : Bool) : (s.setClkHalt v).ss = s.ss := rfl
@[simp] theorem setClkHalt_pc (v : Bool) : (s.setClkHalt v).pc = s.pc := rfl
@[simp] theorem setClkHalt_sp (v : Bool) : (s.setClkHalt v).sp = s.sp := rfl
@[simp] theorem setClkHalt_bp (v : Bool) : (s.setClkHalt v).bp = s.bp := rfl
@[simp] theorem setClkHalt_flags (v : Bool) : (s.setClkHalt v).flags = s.flags := rfl
@[simp] theorem setClkHalt_clocks (v : Bool) : (s.setClkHalt v).clocks = s.clocks := rfl
@[simp] theorem setClkHalt_status (v : Bool) : (s.setClkHalt v).status = s.status := rfl
@[simp] theorem setClkHalt_ie (v : Bool) : (s.setClkHalt v).ie = s.ie := rfl
@[simp] theorem setClkHalt_ipend (v : Bool) : (s.setClkHalt v).ipend = s.ipend := rfl
@[simp] theorem setClkHalt_iline (v : Bool) : (s.setClkHalt v).iline = s.iline := rfl
@[simp] theorem setClkHalt_idtBase (v : Bool) : (s.setClkHalt v).idtBase = s.idtBase := rfl
@[simp] theorem setClkHalt_idtSet (v : Bool) : (s.setClkHalt v).idtSet = s.idtSet := rfl
@[simp] theorem setClkHalt_fault (v : Bool) : (s.setClkHalt v).fault = s.fault := rfl
@[simp] theorem setClkHalt_ticks (v : Bool) : (s.setClkHalt v).ticks = s.ticks := rfl
@[simp] theorem setClkHalt_clkHalt (v : Bool) : (s.setClkHalt v).clkHalt = v := rfl
@[simp] theorem setClkHalt_clkStop (v : Bool) : (s.setClkHalt v).clkStop = s.clkStop := rfl
@[simp] theorem setClkHalt_mem (v : Bool) : (s.setClkHalt v).mem = s.mem := rfl
@[simp] theorem setClkHalt_config (v : Bool) : (s.setClkHalt v).config = s.config := rfl
@[simp] theorem setClkHalt_env (v : Bool) : (s.setClkHalt v).env = s.env := rfl

@[simp] theorem stopClock_gpr : (s.stopClock).gpr = s.gpr := rfl
@[simp] theorem stopClock_cs : (s.stopClock).cs = s.cs := rfl
@[simp] theorem stopClock_ds : (s.stopClock).ds = s.ds := rfl
@[simp] theorem stopClock_ss : (s.stopClock).ss = s.ss := rfl
@[simp] theorem stopClock_pc : (s.stopClock).pc = s.pc := rfl
@[simp] theorem stopClock_sp : (s.stopClock).sp = s.sp := rfl
@[simp] theorem stopClock_bp : (s.stopClock).bp = s.bp := rfl
@[simp] theorem stopClock_flags : (s.stopClock).flags = s.flags := rfl
@[simp] theorem stopClock_clocks : (s.stopClock).clocks = s.clocks := rfl
@[simp] theorem stopClock_status : (s.stopClock).status = s.status := rfl
@[simp] theorem stopClock_ie : (s.stopClock).ie = s.ie := rfl
@[simp] theorem stopClock_ipend : (s.stopClock).ipend = s.ipend := rfl
@[simp] theorem stopClock_iline : (s.stopClock).iline = s.iline := rfl
@[simp] theorem stopClock_idtBase : (s.stopClock).idtBase = s.idtBase := rfl
@[simp] theorem stopClock_idtSet : (s.stopClock).idtSet = s.idtSet := rfl
@[simp] theorem stopClock_fault : (s.stopClock).fault = s.fault := rfl
@[simp] theorem stopClock_ticks : (s.stopClock).ticks = s.ticks := rfl
@[simp] theorem stopClock_clkHalt : (s.stopClock).clkHalt = s.clkHalt := rfl
@[simp] theorem stopClock_clkStop : (s.stopClock).clkStop = true := rfl
@[simp] theorem stopClock_mem : (s.stopClock).mem = s.mem := rfl
@[simp] theorem stopClock_config : (s.stopClock).config = s.config := rfl
@[simp] theorem stopClock_env : (s.stopClock).env = s.env := rfl

@[simp] theorem setMem_gpr (m : Memory) : (s.setMem m).gpr = s.gpr := rfl
@[simp] theorem setMem_cs (m : Memory) : (s.setMem m).cs = s.cs := rfl
@[simp] theorem setMem_ds (m : Memory) : (s.setMem m).ds = s.ds := rfl
@[simp] theorem setMem_ss (m : Memory) : (s.setMem m).ss = s.ss := rfl
@[simp] theorem setMem_pc (m : Memory) : (s.setMem m).pc = s.pc := rfl
@[simp] theorem setMem_sp (m : Memory) : (s.setMem m).sp = s.sp := rfl
@[simp] theorem setMem_bp (m : Memory) : (s.setMem m).bp = s.bp := rfl
@[simp] theorem setMem_flags (m : Memory) : (s.setMem m).flags = s.flags := rfl
@[simp] theorem setMem_clocks (m : Memory) : (s.setMem m).clocks = s.clocks := rfl
@[simp] theorem setMem_status (m : Memory) : (s.setMem m).status = s.status := rfl
@[simp] theorem setMem_ie (m : Memory) : (s.setMem m).ie = s.ie := rfl
@[simp] theorem setMem_ipend (m : Memory) : (s.setMem m).ipend = s.ipend := rfl
@[simp] theorem setMem_iline (m : Memory) : (s.setMem m).iline = s.iline := rfl
@[simp] theorem setMem_idtBase (m : Memory) : (s.setMem m).idtBase = s.idtBase := rfl
@[simp] theorem setMem_idtSet (m : Memory) : (s.setMem m).idtSet = s.idtSet := rfl
@[simp] theorem setMem_fault (m : Memory) : (s.setMem m).fault = s.fault := rfl
@[simp] theorem setMem_ticks (m : Memory) : (s.setMem m).ticks = s.ticks := rfl
@[simp] theorem setMem_clkHalt (m : Memory) : (s.setMem m).clkHalt = s.clkHalt := rfl
@[simp] theorem setMem_clkStop (m : Memory) : (s.setMem m).clkStop = s.clkStop := rfl
@[simp] theorem setMem_mem (m : Memory) : (s.setMem m).mem = m := rfl
@[simp] theorem setMem_config (m : Memory) : (s.setMem m).config = s.config := rfl
@[simp] theorem setMem_env (m : Memory) : (s.setMem m).env = s.env := rfl

@[simp] theorem setEnv_gpr (e : Env) : (s.setEnv e).gpr = s.gpr := rfl
@[simp] theorem setEnv_cs (e : Env) : (s.setEnv e).cs = s.cs := rfl
@[simp] theorem setEnv_ds (e : Env) : (s.setEnv e).ds = s.ds := rfl
@[simp] theorem setEnv_ss (e : Env) : (s.setEnv e).ss = s.ss := rfl
@[simp] theorem setEnv_pc (e : Env) : (s.setEnv e).pc = s.pc := rfl
@[simp] theorem setEnv_sp (e : Env) : (s.setEnv e).sp = s.sp := rfl
@[simp] theorem setEnv_bp (e : Env) : (s.setEnv e).bp = s.bp := rfl
@[simp] theorem setEnv_flags (e : Env) : (s.setEnv e).flags = s.flags := rfl
@[simp] theorem setEnv_clocks (e : Env) : (s.setEnv e).clocks = s.clocks := rfl
@[simp] theorem setEnv_status (e : Env) : (s.setEnv e).status = s.status := rfl
@[simp] theorem setEnv_ie (e : Env) : (s.setEnv e).ie = s.ie := rfl
@[simp] theorem setEnv_ipend (e : Env) : (s.setEnv e).ipend = s.ipend := rfl
@[simp] theorem setEnv_iline (e : Env) : (s.setEnv e).iline = s.iline := rfl
@[simp] theorem setEnv_idtBase (e : Env) : (s.setEnv e).idtBase = s.idtBase := rfl
@[simp] theorem setEnv_idtSet (e : Env) : (s.setEnv e).idtSet = s.idtSet := rfl
@[simp] theorem setEnv_fault (e : Env) : (s.setEnv e).fault = s.fault := rfl
@[simp] theorem setEnv_ticks (e : Env) : (s.setEnv e).ticks = s.ticks := rfl
@[simp] theorem setEnv_clkHalt (e : Env) : (s.setEnv e).clkHalt = s.clkHalt := rfl
@[simp] theorem setEnv_clkStop (e : Env) : (s.setEnv e).clkStop = s.clkStop := rfl
@[simp] theorem setEnv_mem (e : Env) : (s.setEnv e).mem = s.mem := rfl
@[simp] theorem setEnv_config (e : Env) : (s.setEnv e).config = s.config := rfl
@[simp] theorem setEnv_env (e : Env) : (s.setEnv e).env = e := rfl

@[simp] theorem raiseFault_gpr (o : Origin) (k : FaultKind) (info : Word) : (s.raiseFault o k info).gpr = s.gpr := rfl
@[simp] theorem raiseFault_cs (o : Origin) (k : FaultKind) (info : Word) : (s.raiseFault o k info).cs = s.cs := rfl
@[simp] theorem raiseFault_ds (o : Origin) (k : FaultKind) (info : Word) : (s.raiseFault o k info).ds = s.ds := rfl
@[simp] theorem raiseFault_ss (o : Origin) (k : FaultKind) (info : Word) : (s.raiseFault o k info).ss = s.ss := rfl
@[simp] theorem raiseFault_pc (o : Origin) (k : FaultKind) (info : Word) : (s.raiseFault o k info).pc = s.pc := rfl
@[simp] theorem raiseFault_sp (o : Origin) (k : FaultKind) (info : Word) : (s.raiseFault o k info).sp = s.sp := rfl
@[simp] theorem raiseFault_bp (o : Origin) (k : FaultKind) (info : Word) : (s.raiseFault o k info).bp = s.bp := rfl
@[simp] theorem raiseFault_flags (o : Origin) (k : FaultKind) (info : Word) : (s.raiseFault o k info).flags = s.flags := rfl
@[simp] theorem raiseFault_clocks (o : Origin) (k : FaultKind) (info : Word) : (s.raiseFault o k info).clocks = s.clocks := rfl
@[simp] theorem raiseFault_status (o : Origin) (k : FaultKind) (info : Word) : (s.raiseFault o k info).status = s.faultStatus := rfl
@[simp] theorem raiseFault_ie (o : Origin) (k : FaultKind) (info : Word) : (s.raiseFault o k info).ie = s.ie := rfl
@[simp] theorem raiseFault_ipend (o : Origin) (k : FaultKind) (info : Word) : (s.raiseFault o k info).ipend = s.ipend := rfl
@[simp] theorem raiseFault_iline (o : Origin) (k : FaultKind) (info : Word) : (s.raiseFault o k info).iline = s.iline := rfl
@[simp] theorem raiseFault_idtBase (o : Origin) (k : FaultKind) (info : Word) : (s.raiseFault o k info).idtBase = s.idtBase := rfl
@[simp] theorem raiseFault_idtSet (o : Origin) (k : FaultKind) (info : Word) : (s.raiseFault o k info).idtSet = s.idtSet := rfl
@[simp] theorem raiseFault_fault (o : Origin) (k : FaultKind) (info : Word) : (s.raiseFault o k info).fault = { latch := true, kind := k, opcode := o.opcode, mode := o.mode, addr := o.addr, info := info } := rfl
@[simp] theorem raiseFault_ticks (o : Origin) (k : FaultKind) (info : Word) : (s.raiseFault o k info).ticks = s.ticks := rfl
@[simp] theorem raiseFault_clkHalt (o : Origin) (k : FaultKind) (info : Word) : (s.raiseFault o k info).clkHalt = s.clkHalt := rfl
@[simp] theorem raiseFault_clkStop (o : Origin) (k : FaultKind) (info : Word) : (s.raiseFault o k info).clkStop = s.clkStop := rfl
@[simp] theorem raiseFault_mem (o : Origin) (k : FaultKind) (info : Word) : (s.raiseFault o k info).mem = s.mem := rfl
@[simp] theorem raiseFault_config (o : Origin) (k : FaultKind) (info : Word) : (s.raiseFault o k info).config = s.config := rfl
@[simp] theorem raiseFault_env (o : Origin) (k : FaultKind) (info : Word) : (s.raiseFault o k info).env = s.env := rfl

@[simp] theorem setSpecial_gpr (r : SReg) (v : Word) : (s.setSpecial r v).gpr = s.gpr := by cases r <;> rfl
@[simp] theorem setSpecial_flags (r : SReg) (v : Word) : (s.setSpecial r v).flags = s.flags := by cases r <;> rfl
@[simp] theorem setSpecial_clocks (r : SReg) (v : Word) : (s.setSpecial r v).clocks = s.clocks := by cases r <;> rfl
@[simp] theorem setSpecial_status (r : SReg) (v : Word) : (s.setSpecial r v).status = s.status := by cases r <;> rfl
@[simp] theorem setSpecial_ie (r : SReg) (v : Word) : (s.setSpecial r v).ie = s.ie := by cases r <;> rfl
@[simp] theorem setSpecial_ipend (r : SReg) (v : Word) : (s.setSpecial r v).ipend = s.ipend := by cases r <;> rfl
@[simp] theorem setSpecial_iline (r : SReg) (v : Word) : (s.setSpecial r v).iline = s.iline := by cases r <;> rfl
@[simp] theorem setSpecial_idtBase (r : SReg) (v : Word) : (s.setSpecial r v).idtBase = s.idtBase := by cases r <;> rfl
@[simp] theorem setSpecial_idtSet (r : SReg) (v : Word) : (s.setSpecial r v).idtSet = s.idtSet := by cases r <;> rfl
@[simp] theorem setSpecial_fault (r : SReg) (v : Word) : (s.setSpecial r v).fault = s.fault := by cases r <;> rfl
@[simp] theorem setSpecial_ticks (r : SReg) (v : Word) : (s.setSpecial r v).ticks = s.ticks := by cases r <;> rfl
@[simp] theorem setSpecial_clkHalt (r : SReg) (v : Word) : (s.setSpecial r v).clkHalt = s.clkHalt := by cases r <;> rfl
@[simp] theorem setSpecial_clkStop (r : SReg) (v : Word) : (s.setSpecial r v).clkStop = s.clkStop := by cases r <;> rfl
@[simp] theorem setSpecial_mem (r : SReg) (v : Word) : (s.setSpecial r v).mem = s.mem := by cases r <;> rfl
@[simp] theorem setSpecial_config (r : SReg) (v : Word) : (s.setSpecial r v).config = s.config := by cases r <;> rfl
@[simp] theorem setSpecial_env (r : SReg) (v : Word) : (s.setSpecial r v).env = s.env := by cases r <;> rfl

@[simp] theorem writeReg_flags (r : Reg) (w : Word) : (s.writeReg r w).flags = s.flags := by cases r <;> simp [writeReg]
@[simp] theorem writeReg_clocks (r : Reg) (w : Word) : (s.writeReg r w).clocks = s.clocks := by cases r <;> simp [writeReg]
@[simp] theorem writeReg_status (r : Reg) (w : Word) : (s.writeReg r w).status = s.status := by cases r <;> simp [writeReg]
@[simp] theorem writeReg_ie (r : Reg) (w : Word) : (s.writeReg r w).ie = s.ie := by cases r <;> simp [writeReg]
@[simp] theorem writeReg_ipend (r : Reg) (w : Word) : (s.writeReg r w).ipend = s.ipend := by cases r <;> simp [writeReg]
@[simp] theorem writeReg_iline (r : Reg) (w : Word) : (s.writeReg r w).iline = s.iline := by cases r <;> simp [writeReg]
@[simp] theorem writeReg_idtBase (r : Reg) (w : Word) : (s.writeReg r w).idtBase = s.idtBase := by cases r <;> simp [writeReg]
@[simp] theorem writeReg_idtSet (r : Reg) (w : Word) : (s.writeReg r w).idtSet = s.idtSet := by cases r <;> simp [writeReg]
@[simp] theorem writeReg_fault (r : Reg) (w : Word) : (s.writeReg r w).fault = s.fault := by cases r <;> simp [writeReg]
@[simp] theorem writeReg_ticks (r : Reg) (w : Word) : (s.writeReg r w).ticks = s.ticks := by cases r <;> simp [writeReg]
@[simp] theorem writeReg_clkHalt (r : Reg) (w : Word) : (s.writeReg r w).clkHalt = s.clkHalt := by cases r <;> simp [writeReg]
@[simp] theorem writeReg_clkStop (r : Reg) (w : Word) : (s.writeReg r w).clkStop = s.clkStop := by cases r <;> simp [writeReg]
@[simp] theorem writeReg_mem (r : Reg) (w : Word) : (s.writeReg r w).mem = s.mem := by cases r <;> simp [writeReg]
@[simp] theorem writeReg_config (r : Reg) (w : Word) : (s.writeReg r w).config = s.config := by cases r <;> simp [writeReg]
@[simp] theorem writeReg_env (r : Reg) (w : Word) : (s.writeReg r w).env = s.env := by cases r <;> simp [writeReg]

theorem setSpecial_special (r q : SReg) (v : Word) : (s.setSpecial r v).special q = if q = r then v else s.special q := by
  cases r <;> cases q <;> rfl

theorem special_setGpr (q : SReg) (r : GReg) (v : Word) : (s.setGpr r v).special q = s.special q := by cases q <;> rfl

theorem setSpecial_pc (r : SReg) (v : Word) : (s.setSpecial r v).pc = if r = .pc then v else s.pc := by cases r <;> rfl

theorem setSpecial_sp (r : SReg) (v : Word) : (s.setSpecial r v).sp = if r = .sp then v else s.sp := by cases r <;> rfl

theorem writeReg_pc (r : Reg) (w : Word) (h : r ≠ .special .pc) : (s.writeReg r w).pc = s.pc := by
  cases r with
  | view g v => rfl
  | special q => cases q <;> first | rfl | exact absurd rfl h

theorem writeReg_sp (r : Reg) (w : Word) (h : r ≠ .special .sp) : (s.writeReg r w).sp = s.sp := by
  cases r with
  | view g v => rfl
  | special q => cases q <;> first | rfl | exact absurd rfl h

end Sys2Proof.Machine.State
end

