-- ==== Sys2Proof/Laws/Bus.lean ====
section
/-! SUPPORT. What the bus, the stack and the ports can do, said once: a wide access is a sequence of byte accesses; what each
leaves unchanged; what it answers in RAM; when it faults, and with what. -/

namespace Sys2Proof.Machine

/-! ## Sequencing -/

@[simp] theorem ok_andThen {α β : Type} (a : α) (s : State) (f : α → State → Res β) : (Res.ok a s).andThen f = f a s := rfl

@[simp] theorem trap_andThen {α β : Type} (k : FaultKind) (i : Word) (s : State) (f : α → State → Res β) :
    (Res.trap k i s : Res α).andThen f = .trap k i s := rfl

theorem andThen_assoc {α β γ : Type} (r : Res α) (f : α → State → Res β) (g : β → State → Res γ) :
    (r.andThen f).andThen g = r.andThen fun a s => (f a s).andThen g := by
  cases r <;> rfl

theorem andThen_eq_ok {α β : Type} {r : Res α} {f : α → State → Res β} {b : β} {t : State} :
    r.andThen f = .ok b t ↔ ∃ a s, r = .ok a s ∧ f a s = .ok b t := by
  cases r <;> simp

theorem andThen_eq_trap {α β : Type} {r : Res α} {f : α → State → Res β} {k : FaultKind} {i : Word} {t : State} :
    r.andThen f = .trap k i t ↔ r = .trap k i t ∨ ∃ a s, r = .ok a s ∧ f a s = .trap k i t := by
  cases r <;> simp

/-- The state an operation leaves, done or faulted. -/
def Res.state {α : Type} : Res α → State
  | .ok _ s => s
  | .trap _ _ s => s

@[simp] theorem res_state_ok {α : Type} (a : α) (s : State) : (Res.ok a s).state = s := rfl

@[simp] theorem res_state_trap {α : Type} (k : FaultKind) (i : Word) (s : State) : (Res.trap k i s : Res α).state = s := rfl

/-! ## Wide accesses as sequences of byte accesses -/

/-- Reads `k` bytes from `a` upward. -/
def readBytes : Nat → Word → State → Res (List Byte)
  | 0, _, s => .ok [] s
  | k + 1, a, s => (readByte s a).andThen fun b t => (readBytes k (a + 1) t).andThen fun bs u => .ok (b :: bs) u

/-- Writes bytes from `a` upward. -/
def writeBytes : List Byte → Word → State → Res Unit
  | [], _, s => .ok () s
  | b :: bs, a, s => (writeByte s a b).andThen fun _ t => writeBytes bs (a + 1) t

/-- The little-endian number of the first bytes of a list. -/
def leValue (n : Size) (bs : List Byte) : Word :=
  match takeField n bs with
  | some (v, _) => v
  | none => 0

theorem word_add_assoc (a b c : Word) : a + b + c = a + (b + c) := BitVec.add_assoc a b c

theorem memRead_eq_readBytes (s : State) (a : Word) (n : Size) :
    memRead s a n = (readBytes n.bytes a s).andThen fun bs t => .ok (leValue n bs) t := by
  cases n <;> simp [memRead, readHalf, readWord, readBytes, andThen_assoc, Size.bytes, leValue, takeField, word_add_assoc]

theorem memWrite_eq_writeBytes (s : State) (a : Word) (n : Size) (v : Word) :
    memWrite s a n v = writeBytes (leBytes n v) a s := by
  have unit : ∀ r : Res Unit, (r.andThen fun _ t => .ok () t) = r := fun r => by cases r <;> rfl
  have e : ∀ (w : Word) (i j : Nat), i + 8 ≤ 16 → (w.extractLsb' j 16).extractLsb' i 8 = w.extractLsb' (j + i) 8 := by
    intro w i j h
    apply BitVec.eq_of_getLsbD_eq
    intro k hk
    simp [hk, show i + k < 16 by omega, Nat.add_assoc]
  cases n <;>
    simp [memWrite, writeHalf, writeWord, writeBytes, leBytes, andThen_assoc, unit, e, word_add_assoc]

/-! ## One byte -/

/-- All a byte read can do (20_memory.md R42). -/
theorem readByte_ok {s t : State} {a : Word} {v : Byte} (h : readByte s a = .ok v t) :
    (∃ g, s.config.regionAt a = some g ∧ v = ((s.env.see (.regionRead g a (g.relative a))).regionAnswer g a).1 ∧
      t = s.setEnv ((s.env.see (.regionRead g a (g.relative a))).regionAnswer g a).2) ∨
    (s.config.regionAt a = none ∧ a.toNat < s.config.memSize ∧ v = memGet s.mem a.toNat ∧ t = s) := by
  unfold readByte at h
  split at h
  · rename_i g hg
    injection h with h1 h2
    exact .inl ⟨g, hg, h1.symm, h2.symm⟩
  · rename_i hg
    split at h
    · rename_i ha
      injection h with h1 h2
      exact .inr ⟨hg, ha, h1.symm, h2.symm⟩
    · cases h

/-- When and how a byte read faults (20_memory.md R48). -/
theorem readByte_trap {s t : State} {a : Word} {k : FaultKind} {i : Word} (h : readByte s a = .trap k i t) :
    k = .busError ∧ i = a ∧ t = s ∧ s.mapped a = false := by
  unfold readByte at h
  split at h
  · cases h
  · rename_i hg
    split at h
    · cases h
    · rename_i ha
      injection h with h1 h2 h3
      exact ⟨h1.symm, h2.symm, h3.symm, by simp [State.mapped, hg]; omega⟩

theorem readByte_unmapped {s : State} {a : Word} (h : s.mapped a = false) : readByte s a = .trap .busError a s := by
  simp only [State.mapped, Bool.or_eq_false_iff, Option.isSome_eq_false_iff, Option.isNone_iff_eq_none,
    decide_eq_false_iff_not] at h
  simp [readByte, h.1, h.2]

theorem readByte_ram {s : State} {a : Word} (h : s.inRam a = true) : readByte s a = .ok (s.ramByte a) s := by
  simp only [State.inRam, Bool.and_eq_true, Option.isNone_iff_eq_none, decide_eq_true_eq] at h
  simp [readByte, h.1, h.2, State.ramByte]

/-- All a byte write can do (20_memory.md R43). -/
theorem writeByte_ok {s t : State} {a : Word} {v : Byte} {u : Unit} (h : writeByte s a v = .ok u t) :
    (∃ g, s.config.regionAt a = some g ∧ t = s.setEnv (s.env.see (.regionWrite g a (g.relative a) v))) ∨
    (s.config.regionAt a = none ∧ a.toNat < s.config.memSize ∧ t = s.setMem (memSet s.mem a.toNat v)) := by
  unfold writeByte at h
  split at h
  · rename_i g hg
    injection h with h1 h2
    exact .inl ⟨g, hg, h2.symm⟩
  · rename_i hg
    split at h
    · rename_i ha
      injection h with h1 h2
      exact .inr ⟨hg, ha, h2.symm⟩
    · cases h

/-- When and how a byte write faults (20_memory.md R48). -/
theorem writeByte_trap {s t : State} {a : Word} {v : Byte} {k : FaultKind} {i : Word} (h : writeByte s a v = .trap k i t) :
    k = .busError ∧ i = a ∧ t = s ∧ s.mapped a = false := by
  unfold writeByte at h
  split at h
  · cases h
  · rename_i hg
    split at h
    · cases h
    · rename_i ha
      injection h with h1 h2 h3
      exact ⟨h1.symm, h2.symm, h3.symm, by simp [State.mapped, hg]; omega⟩

theorem writeByte_unmapped {s : State} {a : Word} (v : Byte) (h : s.mapped a = false) :
    writeByte s a v = .trap .busError a s := by
  simp only [State.mapped, Bool.or_eq_false_iff, Option.isSome_eq_false_iff, Option.isNone_iff_eq_none,
    decide_eq_false_iff_not] at h
  simp [writeByte, h.1, h.2]

theorem writeByte_ram {s : State} {a : Word} (v : Byte) (h : s.inRam a = true) :
    writeByte s a v = .ok () (s.setMem (memSet s.mem a.toNat v)) := by
  simp only [State.inRam, Bool.and_eq_true, Option.isNone_iff_eq_none, decide_eq_true_eq] at h
  simp [writeByte, h.1, h.2]

/-! ## Frames: reads change nothing but the environment, writes nothing but memory and the environment -/

theorem readByte_frame (s : State) (a : Word) : (readByte s a).state = s.setEnv (readByte s a).state.env := by
  unfold readByte
  split
  · rfl
  · split <;> rfl

theorem writeByte_frame (s : State) (a : Word) (v : Byte) :
    (writeByte s a v).state = (s.setMem (writeByte s a v).state.mem).setEnv (writeByte s a v).state.env := by
  unfold writeByte
  split
  · rfl
  · split <;> rfl

theorem readBytes_frame (k : Nat) (a : Word) (s : State) : (readBytes k a s).state = s.setEnv (readBytes k a s).state.env := by
  induction k generalizing a s with
  | zero => rfl
  | succ k ih =>
    have h := readByte_frame s a
    unfold readBytes
    cases hr : readByte s a with
    | trap k' i t => rw [hr] at h; exact h
    | ok b t =>
      rw [hr] at h
      simp only [res_state_ok] at h
      have h2 := ih (a + 1) t
      simp only [ok_andThen]
      cases hr2 : readBytes k (a + 1) t with
      | trap k' i u => rw [hr2] at h2; simp only [trap_andThen, res_state_trap] at *; rw [h2, h]; rfl
      | ok bs u => rw [hr2] at h2; simp only [ok_andThen, res_state_ok] at *; rw [h2, h]; rfl

theorem writeBytes_frame (bs : List Byte) (a : Word) (s : State) :
    (writeBytes bs a s).state = (s.setMem (writeBytes bs a s).state.mem).setEnv (writeBytes bs a s).state.env := by
  induction bs generalizing a s with
  | nil => rfl
  | cons b bs ih =>
    have h := writeByte_frame s a b
    unfold writeBytes
    cases hr : writeByte s a b with
    | trap k' i t => rw [hr] at h; exact h
    | ok u t =>
      rw [hr] at h
      simp only [res_state_ok] at h
      simp only [ok_andThen]
      rw [ih (a + 1) t, h]
      rfl

/-- A bus read, done or faulted, changes nothing but the environment. -/
theorem memRead_frame (s : State) (a : Word) (n : Size) : (memRead s a n).state = s.setEnv (memRead s a n).state.env := by
  have h := readBytes_frame n.bytes a s
  rw [memRead_eq_readBytes]
  cases hr : readBytes n.bytes a s <;> rw [hr] at h <;> exact h

/-- A bus write, done or faulted, changes nothing but memory and the environment. -/
theorem memWrite_frame (s : State) (a : Word) (n : Size) (v : Word) :
    (memWrite s a n v).state = (s.setMem (memWrite s a n v).state.mem).setEnv (memWrite s a n v).state.env := by
  rw [memWrite_eq_writeBytes]
  exact writeBytes_frame _ _ _

/-- A bus read that is done. -/
theorem memRead_ok_frame {s t : State} {a : Word} {n : Size} {v : Word} (h : memRead s a n = .ok v t) :
    t = s.setEnv t.env := by
  have := memRead_frame s a n
  rwa [h] at this

/-- A bus write that is done. -/
theorem memWrite_ok_frame {s t : State} {a : Word} {n : Size} {v : Word} {u : Unit} (h : memWrite s a n v = .ok u t) :
    t = (s.setMem t.mem).setEnv t.env := by
  have := memWrite_frame s a n v
  rwa [h] at this

/-! ## RAM -/

/-- Memory with bytes stored from `a` upward, modulo 2^32. -/
def storeBytes : List Byte → Word → Memory → Memory
  | [], _, m => m
  | b :: bs, a, m => storeBytes bs (a + 1) (memSet m a.toNat b)

theorem addrsFrom_succ (a : Word) (k : Nat) : addrsFrom a (k + 1) = a :: addrsFrom (a + 1) k := by
  simp only [addrsFrom, List.range_succ_eq_map, List.map_cons, List.map_map]
  congr 1
  · simp
  · apply List.map_congr_left
    intro i _
    simp only [Function.comp, Nat.succ_eq_add_one]
    rw [word_add_assoc]
    congr 1
    apply BitVec.eq_of_toNat_eq
    simp [BitVec.toNat_ofNat, Nat.add_comm]

theorem ramRange_succ (s : State) (a : Word) (k : Nat) :
    s.ramRange a (k + 1) = (s.inRam a && s.ramRange (a + 1) k) := by
  simp [State.ramRange, addrsFrom_succ]

theorem mappedRange_succ (s : State) (a : Word) (k : Nat) :
    s.mappedRange a (k + 1) = (s.mapped a && s.mappedRange (a + 1) k) := by
  simp [State.mappedRange, addrsFrom_succ]

theorem readBytes_ram {k : Nat} {a : Word} {s : State} (h : s.ramRange a k = true) :
    readBytes k a s = .ok ((addrsFrom a k).map s.ramByte) s := by
  induction k generalizing a with
  | zero => rfl
  | succ k ih =>
    rw [ramRange_succ, Bool.and_eq_true] at h
    simp only [readBytes, readByte_ram h.1, ih h.2, addrsFrom_succ, ok_andThen, List.map_cons]

@[simp] theorem inRam_setMem (s : State) (m : Memory) (a : Word) : (s.setMem m).inRam a = s.inRam a := rfl

theorem ramRange_setMem (s : State) (m : Memory) (a : Word) (k : Nat) : (s.setMem m).ramRange a k = s.ramRange a k := rfl

theorem writeBytes_ram {bs : List Byte} {a : Word} {s : State} (h : s.ramRange a bs.length = true) :
    writeBytes bs a s = .ok () (s.setMem (storeBytes bs a s.mem)) := by
  induction bs generalizing a s with
  | nil => rfl
  | cons b bs ih =>
    rw [List.length_cons, ramRange_succ, Bool.and_eq_true] at h
    simp only [writeBytes, writeByte_ram b h.1, ok_andThen]
    rw [ih (by rw [ramRange_setMem]; exact h.2)]
    rfl

@[simp] theorem leBytes_length (n : Size) (v : Word) : (leBytes n v).length = n.bytes := by cases n <;> rfl

/-- Reading RAM answers its bytes, little-endian, and changes nothing (20_memory.md R42, R44). -/
theorem memRead_ram {s : State} {a : Word} {n : Size} (h : s.ramRange a n.bytes = true) :
    memRead s a n = .ok (s.ramValue a n) s := by
  rw [memRead_eq_readBytes, readBytes_ram h]
  cases n <;>
    simp [Size.bytes, addrsFrom_succ, leValue, takeField, State.ramValue, word_add_assoc]

/-- Writing RAM stores the low bytes of the value and changes nothing else (20_memory.md R43, R45). -/
theorem memWrite_ram {s : State} {a : Word} {n : Size} (v : Word) (h : s.ramRange a n.bytes = true) :
    memWrite s a n v = .ok () (s.setMem (storeBytes (leBytes n v) a s.mem)) := by
  rw [memWrite_eq_writeBytes]
  exact writeBytes_ram (by simpa using h)

theorem storeBytes_wf (bs : List Byte) (a : Word) (m : Memory) (h : Memory.wf m = true) :
    Memory.wf (storeBytes bs a m) = true := by
  induction bs generalizing a m with
  | nil => exact h
  | cons b bs ih => exact ih _ _ (memSet_wf m _ b h)

theorem toNat_ne_of_ne {a b : Word} (h : a ≠ b) : a.toNat ≠ b.toNat := fun e => h (BitVec.eq_of_toNat_eq e)

/-- A byte outside the stored ones is as it was. -/
theorem storeBytes_other (bs : List Byte) (a b : Word) (m : Memory) (h : b ∉ addrsFrom a bs.length) :
    memGet (storeBytes bs a m) b.toNat = memGet m b.toNat := by
  induction bs generalizing a m with
  | nil => rfl
  | cons c bs ih =>
    rw [List.length_cons, addrsFrom_succ, List.mem_cons, not_or] at h
    rw [storeBytes, ih _ _ h.2, memGet_memSet_other _ _ (toNat_ne_of_ne h.1)]

theorem mem_addrsFrom {a b : Word} {k : Nat} : b ∈ addrsFrom a k ↔ ∃ i < k, b = a + BitVec.ofNat 32 i := by
  simp [addrsFrom, eq_comm]

/-- A stored byte is read back, for lists short enough not to meet themselves around the address space. -/
theorem storeBytes_get (bs : List Byte) (a : Word) (m : Memory) (hm : Memory.wf m = true) (hl : bs.length < 2 ^ 32)
    {i : Nat} (hi : i < bs.length) :
    memGet (storeBytes bs a m) (a + BitVec.ofNat 32 i).toNat = bs[i] := by
  induction bs generalizing a m i with
  | nil => simp at hi
  | cons c bs ih =>
    rw [List.length_cons] at hl hi
    cases i with
    | zero =>
      have : a ∉ addrsFrom (a + 1) bs.length := by
        rw [mem_addrsFrom]
        rintro ⟨j, hj, e⟩
        have e' := congrArg BitVec.toNat e
        simp only [BitVec.toNat_add, BitVec.toNat_ofNat] at e'
        have := a.isLt
        have one : (1 : Word).toNat = 1 := rfl
        omega
      simp only [storeBytes, BitVec.add_zero, List.getElem_cons_zero]
      rw [storeBytes_other _ _ _ _ this, memGet_memSet_same _ _ _ hm]
    | succ j =>
      have e : a + BitVec.ofNat 32 (j + 1) = a + 1 + BitVec.ofNat 32 j := by
        rw [word_add_assoc]
        congr 1
        apply BitVec.eq_of_toNat_eq
        simp [BitVec.toNat_ofNat, Nat.add_comm]
      rw [e]
      simpa [storeBytes] using ih (a + 1) _ (memSet_wf m _ c hm) (by omega) (i := j) (by omega)

/-- The number a size's bytes make is the value they were taken from, cut to the size. -/
theorem leValue_leBytes (n : Size) (v : Word) : leValue n (leBytes n v) = n.cut v := by
  apply BitVec.eq_of_getLsbD_eq
  intro i hi
  cases n with
  | word =>
    simp only [leValue, leBytes, takeField, Size.cut, BitVec.getLsbD_setWidth, BitVec.getLsbD_extractLsb', Nat.zero_add]
  | dword =>
    simp only [leValue, leBytes, takeField, Size.cut, BitVec.getLsbD_setWidth, BitVec.getLsbD_extractLsb',
      BitVec.getLsbD_append, hi]
    by_cases h : i < 8
    · simp [h, show i < 16 by omega]
    · by_cases h2 : i < 16
      · simp [h, h2, show i - 8 < 8 by omega, show 8 + (i - 8) = i by omega]
      · simp [h, h2, show ¬ i - 8 < 8 by omega]
  | qword =>
    simp only [leValue, leBytes, takeField, Size.cut, BitVec.getLsbD_extractLsb', BitVec.getLsbD_append]
    by_cases h : i < 8
    · simp [h, show i < 16 by omega]
    · by_cases h2 : i < 16
      · simp [h, h2, show i - 8 < 8 by omega, show 8 + (i - 8) = i by omega]
      · by_cases h3 : i < 24
        · simp [h2, show i - 16 < 8 by omega, show 16 + (i - 16) = i by omega]
        · simp [h2, show ¬ i - 16 < 8 by omega, show i - 16 - 8 < 8 by omega, show 24 + (i - 16 - 8) = i by omega]

end Sys2Proof.Machine
end

