-- ==== Sys2Proof/Laws/Mapped.lean ====
section
/-! SUPPORT. Accesses over bytes that regions or RAM serve, and accesses that meet a byte nothing serves: what they answer, what the
regions see, what they leave (20_memory.md R42 to R48). -/

namespace Sys2Proof.Machine

@[simp] theorem mapped_setEnv (s : State) (e : Env) : (s.setEnv e).mapped = s.mapped := rfl
@[simp] theorem mapped_setMem (s : State) (m : Memory) : (s.setMem m).mapped = s.mapped := rfl
@[simp] theorem claimed_setEnv (s : State) (e : Env) : (s.setEnv e).claimed = s.claimed := rfl
@[simp] theorem claimed_setMem (s : State) (m : Memory) : (s.setMem m).claimed = s.claimed := rfl
@[simp] theorem inRam_setEnv (s : State) (e : Env) : (s.setEnv e).inRam = s.inRam := rfl

theorem mapped_of_config {s t : State} (h : t.config = s.config) : t.mapped = s.mapped := by
  funext a; simp only [State.mapped, h]

theorem claimed_of_config {s t : State} (h : t.config = s.config) : t.claimed = s.claimed := by
  funext a; simp only [State.claimed, h]

theorem inRam_of_config {s t : State} (h : t.config = s.config) : t.inRam = s.inRam := by
  funext a; simp only [State.inRam, h]

theorem ramRange_of_config {s t : State} (h : t.config = s.config) (a : Word) (n : Nat) : t.ramRange a n = s.ramRange a n := by
  simp only [State.ramRange, inRam_of_config h]

theorem mappedRange_of_config {s t : State} (h : t.config = s.config) (a : Word) (n : Nat) :
    t.mappedRange a n = s.mappedRange a n := by
  simp only [State.mappedRange, mapped_of_config h]

/-- An address of RAM is one that something serves. -/
theorem mapped_of_inRam {s : State} {a : Word} (h : s.inRam a = true) : s.mapped a = true := by
  simp only [State.inRam, Bool.and_eq_true] at h
  simp [State.mapped, h.2]

/-- No region claims an address of RAM. -/
theorem claimed_of_inRam {s : State} {a : Word} (h : s.inRam a = true) : s.claimed a = false := by
  simp only [State.inRam, Bool.and_eq_true, Option.isNone_iff_eq_none] at h
  simp [State.claimed, h.1]

/-- What the answer of a region adds to its device's log. -/
theorem regionAnswer_log (e : Env) (g : Region) (a : Word) : (e.regionAnswer g a).2.log = e.log := by
  unfold Env.regionAnswer; split <;> rfl

/-- The answer of a region leaves the schedule. -/
theorem regionAnswer_schedule (e : Env) (g : Region) (a : Word) : (e.regionAnswer g a).2.schedule = e.schedule := by
  unfold Env.regionAnswer; split <;> rfl

/-- The answer of a port handler leaves the log. -/
theorem portAnswer_log (e : Env) (w : PortWidth) (p : Byte) : (e.portAnswer w p).2.log = e.log := by
  unfold Env.portAnswer; split <;> rfl

/-- The answer of a port handler leaves the schedule. -/
theorem portAnswer_schedule (e : Env) (w : PortWidth) (p : Byte) : (e.portAnswer w p).2.schedule = e.schedule := by
  unfold Env.portAnswer; split <;> rfl

/-- A region that claims an address claims it. -/
theorem claimed_of_regionAt {s : State} {a : Word} {g : Region} (h : s.config.regionAt a = some g) : s.claimed a = true := by
  simp [State.claimed, h]

/-- An address that something serves and no region claims is RAM's. -/
theorem inRam_of_mapped {s : State} {a : Word} (h : s.mapped a = true) (hg : s.config.regionAt a = none) : s.inRam a = true := by
  simp only [State.mapped, hg] at h
  simpa [State.inRam, hg] using h

theorem word_add_succ (a : Word) (j : Nat) : a + BitVec.ofNat 32 (j + 1) = a + 1 + BitVec.ofNat 32 j := by
  rw [word_add_assoc]
  congr 1
  apply BitVec.eq_of_toNat_eq
  simp [BitVec.toNat_ofNat, Nat.add_comm]

/-- A range of addresses in two parts. -/
theorem addrsFrom_add (a : Word) (m n : Nat) : addrsFrom a (m + n) = addrsFrom a m ++ addrsFrom (a + BitVec.ofNat 32 m) n := by
  induction m generalizing a with
  | zero => simp [addrsFrom]
  | succ m ih => rw [Nat.succ_add, addrsFrom_succ, addrsFrom_succ, ih, word_add_succ, List.cons_append]

/-- RAM serves a range where it serves both its parts. -/
theorem ramRange_add (s : State) (a : Word) (m n : Nat) :
    s.ramRange a (m + n) = (s.ramRange a m && s.ramRange (a + BitVec.ofNat 32 m) n) := by
  simp only [State.ramRange, addrsFrom_add, List.all_append]

/-- Two ranges that do not meet, within the address space. -/
theorem addrsFrom_apart {a b c : Word} {m n : Nat} (hb : b ∈ addrsFrom a m) (hc : c ∈ addrsFrom (a + BitVec.ofNat 32 m) n)
    (h : m + n ≤ 2 ^ 32) : b ≠ c := by
  rw [mem_addrsFrom] at hb hc
  obtain ⟨i, hi, rfl⟩ := hb
  obtain ⟨j, hj, rfl⟩ := hc
  intro e
  have e' := congrArg BitVec.toNat e
  simp only [BitVec.toNat_add, BitVec.toNat_ofNat] at e'
  have := a.isLt
  omega

theorem busBytes_setEnv (s : State) (e' : Env) (as : List Word) (e : Env) : (s.setEnv e').busBytes as e = s.busBytes as e := by
  induction as generalizing e with
  | nil => rfl
  | cons a rest ih =>
    simp only [State.busBytes, State.setEnv_config]
    split
    · simp only [ih]
    · rw [ih]; rfl

/-- A byte read that something serves changes only the environment. -/
theorem readByte_mapped {s : State} {a : Word} (h : s.mapped a = true) :
    ∃ v e, readByte s a = .ok v (s.setEnv e) ∧ e.schedule = s.env.schedule := by
  cases hg : s.config.regionAt a with
  | some g =>
    exact ⟨((s.env.see (.regionRead g a (g.relative a))).regionAnswer g a).1,
      ((s.env.see (.regionRead g a (g.relative a))).regionAnswer g a).2, by simp only [readByte, hg],
      regionAnswer_schedule _ _ _⟩
  | none => exact ⟨_, s.env, readByte_ram (inRam_of_mapped h hg), rfl⟩

/-- A byte write that something serves changes only memory and the environment. -/
theorem writeByte_mapped {s : State} {a : Word} (v : Byte) (h : s.mapped a = true) :
    ∃ m e, writeByte s a v = .ok () ((s.setMem m).setEnv e) := by
  cases hg : s.config.regionAt a with
  | some g => exact ⟨s.mem, _, by simp only [writeByte, hg]; rfl⟩
  | none => exact ⟨memSet s.mem a.toNat v, s.env, writeByte_ram v (inRam_of_mapped h hg)⟩

/-- Reading bytes that are all served: the bytes are the bus's, and the regions that claim them see the accesses, once each in order
(20_memory.md R42, R44, R58). -/
theorem readBytes_mapped {k : Nat} {a : Word} {s : State} (h : s.mappedRange a k = true) :
    ∃ e, readBytes k a s = .ok (s.busBytes (addrsFrom a k) s.env) (s.setEnv e) ∧ e.schedule = s.env.schedule ∧
      e.log = s.env.log ++ s.readEvents (addrsFrom a k) := by
  induction k generalizing a s with
  | zero => exact ⟨s.env, rfl, rfl, by simp [addrsFrom, State.readEvents]⟩
  | succ k ih =>
    rw [mappedRange_succ, Bool.and_eq_true] at h
    cases hg : s.config.regionAt a with
    | some g =>
      obtain ⟨e, hr, hs, hl⟩ := ih (a := a + 1) (s := s.setEnv ((s.env.see (.regionRead g a (g.relative a))).regionAnswer g a).2) h.2
      refine ⟨e, ?_, ?_, ?_⟩
      · rw [busBytes_setEnv] at hr
        simp only [readBytes, readByte, hg, ok_andThen, hr, addrsFrom_succ, State.busBytes]
        rfl
      · rw [hs, State.setEnv_env, regionAnswer_schedule]; rfl
      · rw [hl, State.setEnv_env, regionAnswer_log, addrsFrom_succ]
        simp [State.readEvents, hg, Env.see, Region.relative]
    | none =>
      obtain ⟨e, hr, hs, hl⟩ := ih (a := a + 1) (s := s) h.2
      refine ⟨e, ?_, hs, ?_⟩
      · simp only [readBytes, readByte_ram (inRam_of_mapped h.1 hg), ok_andThen, hr, addrsFrom_succ, State.busBytes, hg]
      · rw [hl, addrsFrom_succ]
        simp [State.readEvents, hg]

/-- Writing bytes that are all served: the regions see theirs, once each in order, and RAM takes the others (20_memory.md R43, R45). -/
theorem writeBytes_mapped {bs : List Byte} {a : Word} {s : State} (h : s.mappedRange a bs.length = true) :
    ∃ m e, writeBytes bs a s = .ok () ((s.setMem m).setEnv e) ∧ e.schedule = s.env.schedule ∧
      e.log = s.env.log ++ s.writeEvents (addrsFrom a bs.length) bs ∧
      (∀ b : Word, (s.claimed b = true ∨ b ∉ addrsFrom a bs.length) → memGet m b.toNat = memGet s.mem b.toNat) := by
  induction bs generalizing a s with
  | nil => exact ⟨s.mem, s.env, rfl, rfl, by simp [State.writeEvents], fun _ _ => rfl⟩
  | cons c bs ih =>
    rw [List.length_cons, mappedRange_succ, Bool.and_eq_true] at h
    cases hg : s.config.regionAt a with
    | some g =>
      obtain ⟨m, e, hr, hs, hl, hb⟩ := ih (a := a + 1) (s := s.setEnv (s.env.see (.regionWrite g a (g.relative a) c))) h.2
      refine ⟨m, e, ?_, hs, ?_, ?_⟩
      · simp only [writeBytes, writeByte, hg, ok_andThen, hr]; rfl
      · rw [hl, List.length_cons, addrsFrom_succ]
        simp [State.writeEvents, hg, Env.see, Region.relative]
      · intro b h'
        rw [List.length_cons, addrsFrom_succ, List.mem_cons, not_or] at h'
        exact hb b (h'.imp_right And.right)
    | none =>
      obtain ⟨m, e, hr, hs, hl, hb⟩ := ih (a := a + 1) (s := s.setMem (memSet s.mem a.toNat c)) h.2
      have ha := inRam_of_mapped h.1 hg
      refine ⟨m, e, ?_, hs, ?_, ?_⟩
      · simp only [writeBytes, writeByte_ram c ha, ok_andThen, hr]; rfl
      · rw [hl, List.length_cons, addrsFrom_succ]
        simp [State.writeEvents, hg]
      · intro b h'
        rw [List.length_cons, addrsFrom_succ, List.mem_cons, not_or] at h'
        rw [hb b (h'.imp_right And.right)]
        refine memGet_memSet_other _ _ (toNat_ne_of_ne ?_)
        rcases h' with h' | h'
        · rintro rfl
          rw [claimed_of_inRam ha] at h'
          cases h'
        · exact h'.1

/-- The bytes of a write that no region claims are in RAM after it (20_memory.md R43, R45). -/
theorem writeBytes_unclaimed {bs : List Byte} {a : Word} {s t : State} {u : Unit} (hm : Memory.wf s.mem = true)
    (hl : bs.length ≤ 2 ^ 32) (h : s.mappedRange a bs.length = true) (hw : writeBytes bs a s = .ok u t) {k : Nat} {v : Byte}
    (hk : bs[k]? = some v) (hc : s.claimed (a + BitVec.ofNat 32 k) = false) : t.ramByte (a + BitVec.ofNat 32 k) = v := by
  induction bs generalizing a s k with
  | nil => simp at hk
  | cons c bs ih =>
    rw [List.length_cons] at h hl
    rw [mappedRange_succ, Bool.and_eq_true] at h
    cases k with
    | zero =>
      simp only [List.getElem?_cons_zero, Option.some.injEq, BitVec.add_zero] at hk hc ⊢
      subst hk
      have hg : s.config.regionAt a = none := by simpa [State.claimed] using hc
      simp only [writeBytes, writeByte_ram c (inRam_of_mapped h.1 hg), ok_andThen] at hw
      obtain ⟨m, e, hr, -, -, hb⟩ := writeBytes_mapped (bs := bs) (a := a + 1) (s := s.setMem (memSet s.mem a.toNat c)) h.2
      rw [hr] at hw
      injection hw with _ hw
      rw [← hw, State.ramByte, State.setEnv_mem, State.setMem_mem, hb]
      · exact memGet_memSet_same _ _ _ hm
      · refine .inr fun ha => ?_
        exact addrsFrom_apart (m := 1) (b := a) (by simp [addrsFrom]) ha (by omega) rfl
    | succ k =>
      rw [List.getElem?_cons_succ] at hk
      rw [word_add_succ] at hc ⊢
      cases hg : s.config.regionAt a with
      | some g =>
        simp only [writeBytes, writeByte, hg, ok_andThen] at hw
        exact ih (s := s.setEnv (s.env.see (.regionWrite g a (g.relative a) c))) hm (by omega) h.2 hw hk hc
      | none =>
        simp only [writeBytes, writeByte_ram c (inRam_of_mapped h.1 hg), ok_andThen] at hw
        exact ih (s := s.setMem (memSet s.mem a.toNat c)) (memSet_wf _ _ _ hm) (by omega) h.2 hw hk hc

/-- A read in two parts. -/
theorem readBytes_add (j m : Nat) (a : Word) (s : State) :
    readBytes (j + m) a s = (readBytes j a s).andThen fun bs t =>
      (readBytes m (a + BitVec.ofNat 32 j) t).andThen fun cs u => .ok (bs ++ cs) u := by
  induction j generalizing a s with
  | zero =>
    simp only [Nat.zero_add, readBytes, ok_andThen, BitVec.add_zero, List.nil_append]
    cases readBytes m a s <;> rfl
  | succ j ih =>
    rw [Nat.succ_add]
    simp only [readBytes, andThen_assoc, ih, ok_andThen, List.cons_append, word_add_succ]

theorem firstUnmapped_iff {s : State} {a : Word} {n j : Nat} :
    s.firstUnmapped a n j = true ↔ j < n ∧ s.mappedRange a j = true ∧ s.mapped (a + BitVec.ofNat 32 j) = false := by
  simp [State.firstUnmapped, and_assoc]

/-- Reading bytes of which the `j`th is the first that nothing serves: the regions have seen the reads of the bytes before it. -/
theorem readBytes_unmapped {k j : Nat} {a : Word} {s : State} (h : s.firstUnmapped a k j = true) :
    ∃ e, readBytes k a s = .trap .busError (a + BitVec.ofNat 32 j) (s.setEnv e) ∧ e.schedule = s.env.schedule ∧
      e.log = s.env.log ++ s.readEvents (addrsFrom a j) := by
  rw [firstUnmapped_iff] at h
  obtain ⟨e, hr, hs, hl⟩ := readBytes_mapped h.2.1
  refine ⟨e, ?_, hs, hl⟩
  obtain ⟨m, rfl⟩ : ∃ m, k = j + (m + 1) := ⟨k - j - 1, by omega⟩
  rw [readBytes_add, hr, ok_andThen, readBytes, readByte_unmapped (by simpa using h.2.2)]
  rfl

/-- Writing bytes of which the `j`th is the first that nothing serves: the bytes before it have been written. -/
theorem writeBytes_unmapped {bs : List Byte} {j : Nat} {a : Word} {s : State} (h : s.firstUnmapped a bs.length j = true) :
    ∃ t, writeBytes (bs.take j) a s = .ok () t ∧ writeBytes bs a s = .trap .busError (a + BitVec.ofNat 32 j) t := by
  induction bs generalizing a s j with
  | nil => rw [firstUnmapped_iff] at h; simp at h
  | cons c bs ih =>
    rw [firstUnmapped_iff, List.length_cons] at h
    cases j with
    | zero =>
      refine ⟨s, rfl, ?_⟩
      simp only [BitVec.add_zero] at h ⊢
      rw [writeBytes, writeByte_unmapped c h.2.2]
      rfl
    | succ j =>
      rw [mappedRange_succ, Bool.and_eq_true, word_add_succ] at h
      obtain ⟨m, e, hr⟩ := writeByte_mapped c h.2.1.1
      obtain ⟨t, h1, h2⟩ := ih (a := a + 1) (s := (s.setMem m).setEnv e) (j := j)
        (firstUnmapped_iff.2 ⟨by omega, h.2.1.2, h.2.2⟩)
      refine ⟨t, ?_, ?_⟩
      · simp only [List.take_succ_cons, writeBytes, hr, ok_andThen, h1]
      · rw [word_add_succ]
        simp only [writeBytes, hr, ok_andThen, h2]

/-- A wide read whose bytes are all served. -/
theorem memRead_mapped {s : State} {a : Word} {n : Size} (h : s.mappedRange a n.bytes = true) :
    ∃ e, memRead s a n = .ok (leValue n (s.busBytes (addrsFrom a n.bytes) s.env)) (s.setEnv e) ∧ e.schedule = s.env.schedule ∧
      e.log = s.env.log ++ s.readEvents (addrsFrom a n.bytes) := by
  obtain ⟨e, hr, hs, hl⟩ := readBytes_mapped h
  exact ⟨e, by rw [memRead_eq_readBytes, hr]; rfl, hs, hl⟩

/-- A wide write whose bytes are all served. -/
theorem memWrite_mapped {s : State} {a : Word} {n : Size} (v : Word) (h : s.mappedRange a n.bytes = true) :
    ∃ m e, memWrite s a n v = .ok () ((s.setMem m).setEnv e) ∧ e.schedule = s.env.schedule ∧
      e.log = s.env.log ++ s.writeEvents (addrsFrom a n.bytes) (leBytes n v) ∧
      (∀ b : Word, (s.claimed b = true ∨ b ∉ addrsFrom a n.bytes) → memGet m b.toNat = memGet s.mem b.toNat) := by
  rw [memWrite_eq_writeBytes]
  simpa using writeBytes_mapped (bs := leBytes n v) (a := a) (s := s) (by simpa using h)

/-- The bytes of a wide write that no region claims are in RAM after it. -/
theorem memWrite_unclaimed {s t : State} {a v : Word} {n : Size} {u : Unit} (hm : Memory.wf s.mem = true)
    (h : s.mappedRange a n.bytes = true) (hw : memWrite s a n v = .ok u t) {k : Nat} {b : Byte} (hk : (leBytes n v)[k]? = some b)
    (hc : s.claimed (a + BitVec.ofNat 32 k) = false) : t.ramByte (a + BitVec.ofNat 32 k) = b := by
  rw [memWrite_eq_writeBytes] at hw
  exact writeBytes_unclaimed hm (by cases n <;> simp [Size.bytes]) (by simpa using h) hw hk hc

/-- A wide read that meets a byte nothing serves: BusError there, and only the environment has changed (20_memory.md R44, R48). -/
theorem memRead_unmapped {s : State} {a : Word} {n : Size} {j : Nat} (h : s.firstUnmapped a n.bytes j = true) :
    ∃ e, memRead s a n = .trap .busError (a + BitVec.ofNat 32 j) (s.setEnv e) ∧ e.schedule = s.env.schedule ∧
      e.log = s.env.log ++ s.readEvents (addrsFrom a j) := by
  obtain ⟨e, hr, hs, hl⟩ := readBytes_unmapped h
  exact ⟨e, by rw [memRead_eq_readBytes, hr]; rfl, hs, hl⟩

/-- A wide write that meets a byte nothing serves: BusError there, the bytes before it written (20_memory.md R45, R48). -/
theorem memWrite_unmapped {s : State} {a : Word} {n : Size} (v : Word) {j : Nat} (h : s.firstUnmapped a n.bytes j = true) :
    ∃ t, writeBytes ((leBytes n v).take j) a s = .ok () t ∧
      memWrite s a n v = .trap .busError (a + BitVec.ofNat 32 j) t := by
  rw [memWrite_eq_writeBytes]
  exact writeBytes_unmapped (by simpa using h)

/-- What a write that meets a byte nothing serves has done: the regions have seen the writes of the bytes before it, and RAM has taken
the others of them. -/
theorem memWrite_unmapped_frame {s : State} {a : Word} {n : Size} (v : Word) {j : Nat} (h : s.firstUnmapped a n.bytes j = true) :
    ∃ m e, memWrite s a n v = .trap .busError (a + BitVec.ofNat 32 j) ((s.setMem m).setEnv e) ∧
      e.schedule = s.env.schedule ∧ e.log = s.env.log ++ s.writeEvents (addrsFrom a j) ((leBytes n v).take j) ∧
      (∀ b : Word, (s.claimed b = true ∨ b ∉ addrsFrom a j) → memGet m b.toNat = memGet s.mem b.toNat) := by
  obtain ⟨t, h1, h2⟩ := memWrite_unmapped v h
  rw [firstUnmapped_iff] at h
  have hl : ((leBytes n v).take j).length = j := by simp; omega
  obtain ⟨m, e, h3, hs, hg, hb⟩ := writeBytes_mapped (bs := (leBytes n v).take j) (a := a) (s := s) (by rw [hl]; exact h.2.1)
  rw [h3] at h1
  injection h1 with _ h1
  rw [hl] at hg hb
  exact ⟨m, e, by rw [h2, h1], hs, hg, hb⟩

/-- Of a write that meets a byte nothing serves, the bytes before it that no region claims are in RAM. -/
theorem memWrite_unmapped_bytes {s t : State} {a i v : Word} {n : Size} {j : Nat} {k : FaultKind} (hm : Memory.wf s.mem = true)
    (h : s.firstUnmapped a n.bytes j = true) (hw : memWrite s a n v = .trap k i t) {m : Nat} (hj : m < j) {b : Byte}
    (hk : (leBytes n v)[m]? = some b) (hc : s.claimed (a + BitVec.ofNat 32 m) = false) :
    t.ramByte (a + BitVec.ofNat 32 m) = b := by
  obtain ⟨t', h1, h2⟩ := memWrite_unmapped v h
  rw [h2] at hw
  injection hw with _ _ hw
  subst hw
  rw [firstUnmapped_iff] at h
  have hl : ((leBytes n v).take j).length = j := by simp; omega
  have hn : n.bytes ≤ 4 := by cases n <;> decide
  exact writeBytes_unclaimed hm (by omega) (by rw [hl]; exact h.2.1) h1 (by rwa [List.getElem?_take_of_lt hj]) hc

/-- `leBytes` is `bytesOf`. -/
theorem leBytes_eq_bytesOf (n : Size) (v : Word) : leBytes n v = bytesOf n.bytes v.toNat := by
  have e : ∀ k, v.extractLsb' (8 * k) 8 = BitVec.ofNat 8 (byteOf v.toNat k) := by
    intro k
    apply BitVec.eq_of_toNat_eq
    simp [byteOf, Nat.shiftRight_eq_div_pow, Nat.pow_mul]
  have e0 := e 0
  have e1 := e 1
  have e2 := e 2
  have e3 := e 3
  simp only [Nat.mul_zero, Nat.reduceMul] at e0 e1 e2 e3
  cases n <;> simp [leBytes, bytesOf, Size.bytes, List.range_succ, e0, e1, e2, e3]

/-- `leValue` is `leNumber`. -/
theorem leValue_toNat {n : Size} {bs : List Byte} (h : bs.length = n.bytes) : (leValue n bs).toNat = leNumber bs := by
  cases n with
  | word =>
    obtain ⟨b, rfl⟩ := List.length_eq_one_iff.1 h
    simp [leValue, takeField, leNumber]
    omega
  | dword =>
    obtain ⟨b, c, rfl⟩ := List.length_eq_two.1 h
    have h1 := b.isLt
    have h2 := c.isLt
    simp only [leValue, takeField, leNumber, BitVec.toNat_setWidth, BitVec.toNat_append]
    rw [← Nat.shiftLeft_add_eq_or_of_lt h1, Nat.shiftLeft_eq]
    omega
  | qword =>
    match bs, h with
    | [b, c, d, e], _ =>
      have h1 := b.isLt
      have h2 := c.isLt
      have h3 := d.isLt
      have h4 := e.isLt
      simp only [leValue, takeField, leNumber, BitVec.toNat_append]
      rw [← Nat.shiftLeft_add_eq_or_of_lt h1, ← Nat.shiftLeft_add_eq_or_of_lt h3, ← Nat.shiftLeft_add_eq_or_of_lt (by
        rw [Nat.shiftLeft_eq]; omega)]
      simp only [Nat.shiftLeft_eq]
      omega

end Sys2Proof.Machine
end

