-- ==== Sys2Proof/Laws/Registers.lean ====
section
/-! SUPPORT. The laws of the register file: reading after writing a general register, a view, a register operand. -/

namespace Sys2Proof

namespace Machine

theorem gprs_get_set (g : GPRs) (r q : GReg) (v : Word) : (g.set r v).get q = if q = r then v else g.get q := by
  cases r <;> cases q <;> rfl

@[simp] theorem gprs_get_set_same (g : GPRs) (r : GReg) (v : Word) : (g.set r v).get r = v := by simp [gprs_get_set]

theorem gprs_get_set_other (g : GPRs) {r q : GReg} (v : Word) (h : q ≠ r) : (g.set r v).get q = g.get q := by
  simp [gprs_get_set, h]

end Machine

/-- A bit of a view's value is the bit of the backing value at the view's place. -/
theorem view_read_bit (v : View) (g : Word) (i : Nat) (hi : i < 32) :
    (v.read g).getLsbD i = (decide (i < v.width) && g.getLsbD (v.low + i)) := by
  simp only [View.read, BitVec.getLsbD_setWidth, BitVec.getLsbD_extractLsb', hi, decide_true, Bool.true_and]

/-- A bit of a view's mask. -/
theorem view_mask_bit (v : View) (i : Fin 32) :
    v.mask.getLsbD i = (decide (v.low ≤ i.val) && decide (i.val < v.low + v.width)) := by
  revert i; cases v <;> decide

/-- A bit of the backing value after a write: the written value's where the view covers it, else as it was. -/
theorem view_write_bit (v : View) (g x : Word) (i : Nat) (hi : i < 32) :
    (v.write g x).getLsbD i =
      if v.low ≤ i ∧ i < v.low + v.width then x.getLsbD (i - v.low) else g.getLsbD i := by
  have h := view_mask_bit v ⟨i, hi⟩
  simp only [View.write, BitVec.getLsbD_or, BitVec.getLsbD_and, BitVec.getLsbD_not, BitVec.getLsbD_shiftLeft, h, hi]
  by_cases c : v.low ≤ i
  · by_cases d : i < v.low + v.width <;> simp [c, d, Nat.not_lt.mpr c]
  · simp [c, Nat.lt_of_not_le c]

/-- What a view reads after a write through it: the low bits of the value written (10_state.md R15). -/
theorem view_read_write (v : View) (g x : Word) : v.read (v.write g x) = (x.setWidth v.width).setWidth 32 := by
  apply BitVec.eq_of_getLsbD_eq
  intro i hi
  rw [view_read_bit _ _ _ hi, BitVec.getLsbD_setWidth, BitVec.getLsbD_setWidth]
  by_cases c : i < v.width
  · have h32 : v.low + i < 32 := by cases v <;> simp [View.low, View.width] at * <;> omega
    rw [view_write_bit _ _ _ _ h32]
    simp [c, hi]
  · simp [c]

/-- A view that shares no bit with the one written reads as before (10_state.md R15). -/
theorem view_read_write_disjoint (v u : View) (g x : Word)
    (h : u.low + u.width ≤ v.low ∨ v.low + v.width ≤ u.low) : u.read (v.write g x) = u.read g := by
  apply BitVec.eq_of_getLsbD_eq
  intro i hi
  rw [view_read_bit _ _ _ hi, view_read_bit _ _ _ hi]
  by_cases c : i < u.width
  · have h32 : u.low + i < 32 := by cases u <;> simp [View.low, View.width] at * <;> omega
    rw [view_write_bit _ _ _ _ h32, if_neg (by omega)]
  · simp [c]

/-- The full view is the backing value. -/
@[simp] theorem view_read_full (g : Word) : View.full.read g = g := by
  apply BitVec.eq_of_getLsbD_eq
  intro i hi
  rw [view_read_bit _ _ _ hi]
  simp [View.low, View.width, hi]

/-- A write to the full view replaces all 32 bits. -/
@[simp] theorem view_write_full (g x : Word) : View.full.write g x = x := by
  apply BitVec.eq_of_getLsbD_eq
  intro i hi
  rw [view_write_bit _ _ _ _ hi]
  simp [View.low, View.width, hi]

end Sys2Proof
end

