-- ==== Sys2Proof/Laws/Exec.lean ====
section
/-! SUPPORT. The frame every meaning runs in, the fault record, the stack, the ports, interrupt entry and return: each said once. -/

namespace Sys2Proof.Machine

/-! ## The frame of a meaning -/

theorem perform_ok {i : Instr} {body : State → Res Unit} {s t : State} {u : Unit}
    (h : body (s.past i.length) = .ok u t) : perform i body s = .next t := by
  unfold perform State.past at *
  rw [h]

theorem perform_trap {i : Instr} {body : State → Res Unit} {s t : State} {k : FaultKind} {info : Word}
    (h : body (s.past i.length) = .trap k info t) :
    perform i body s = .next (t.raiseFault (originOf (encode s.config.encoding i) s.pc) k info) := by
  unfold perform State.past at *
  rw [h]

/-- All a meaning can answer: the state its execute phase leaves, or that state with the fault recorded. -/
theorem perform_cases {i : Instr} {body : State → Res Unit} {s t : State} (h : perform i body s = .next t) :
    (∃ u, body (s.past i.length) = .ok u t) ∨
    (∃ k info u, body (s.past i.length) = .trap k info u ∧ t = u.raiseFault (originOf (encode s.config.encoding i) s.pc) k info) := by
  cases hb : body (s.past i.length) with
  | ok u v => rw [perform_ok hb] at h; injection h with h; exact .inl ⟨u, by rw [h]⟩
  | trap k info u => rw [perform_trap hb] at h; injection h with h; exact .inr ⟨k, info, u, rfl, h.symm⟩

/-- Every meaning has a next state (60_exceptions.md R171: a fault is one). -/
theorem perform_next (i : Instr) (body : State → Res Unit) (s : State) : ∃ t, perform i body s = .next t := by
  cases hb : body (s.past i.length) with
  | ok u v => exact ⟨_, perform_ok hb⟩
  | trap k info u => exact ⟨_, perform_trap hb⟩

@[simp] theorem past_pc (s : State) (n : Nat) : (s.past n).pc = s.pc + BitVec.ofNat 32 n := rfl
@[simp] theorem past_sp (s : State) (n : Nat) : (s.past n).sp = s.sp := rfl
@[simp] theorem past_gpr (s : State) (n : Nat) : (s.past n).gpr = s.gpr := rfl
@[simp] theorem past_flags (s : State) (n : Nat) : (s.past n).flags = s.flags := rfl
@[simp] theorem past_clocks (s : State) (n : Nat) : (s.past n).clocks = s.clocks := rfl
@[simp] theorem past_status (s : State) (n : Nat) : (s.past n).status = s.status := rfl
@[simp] theorem past_fault (s : State) (n : Nat) : (s.past n).fault = s.fault := rfl
@[simp] theorem past_mem (s : State) (n : Nat) : (s.past n).mem = s.mem := rfl
@[simp] theorem past_env (s : State) (n : Nat) : (s.past n).env = s.env := rfl
@[simp] theorem past_config (s : State) (n : Nat) : (s.past n).config = s.config := rfl
@[simp] theorem past_cs (s : State) (n : Nat) : (s.past n).cs = s.cs := rfl
@[simp] theorem past_ds (s : State) (n : Nat) : (s.past n).ds = s.ds := rfl
@[simp] theorem past_ss (s : State) (n : Nat) : (s.past n).ss = s.ss := rfl
@[simp] theorem past_bp (s : State) (n : Nat) : (s.past n).bp = s.bp := rfl
@[simp] theorem past_ie (s : State) (n : Nat) : (s.past n).ie = s.ie := rfl
@[simp] theorem past_ipend (s : State) (n : Nat) : (s.past n).ipend = s.ipend := rfl
@[simp] theorem past_iline (s : State) (n : Nat) : (s.past n).iline = s.iline := rfl
@[simp] theorem past_idtBase (s : State) (n : Nat) : (s.past n).idtBase = s.idtBase := rfl
@[simp] theorem past_idtSet (s : State) (n : Nat) : (s.past n).idtSet = s.idtSet := rfl
@[simp] theorem past_ticks (s : State) (n : Nat) : (s.past n).ticks = s.ticks := rfl
@[simp] theorem past_clkHalt (s : State) (n : Nat) : (s.past n).clkHalt = s.clkHalt := rfl
@[simp] theorem past_clkStop (s : State) (n : Nat) : (s.past n).clkStop = s.clkStop := rfl
@[simp] theorem past_mapped (s : State) (n : Nat) : (s.past n).mapped = s.mapped := rfl
@[simp] theorem past_claimed (s : State) (n : Nat) : (s.past n).claimed = s.claimed := rfl

theorem past_ramRange (s : State) (n : Nat) (a : Word) (k : Nat) : (s.past n).ramRange a k = s.ramRange a k := rfl
theorem past_ramValue (s : State) (n : Nat) (a : Word) (k : Size) : (s.past n).ramValue a k = s.ramValue a k := by
  cases k <;> rfl
theorem past_firstUnmapped (s : State) (n : Nat) (a : Word) (k j : Nat) :
    (s.past n).firstUnmapped a k j = s.firstUnmapped a k j := rfl

/-! ## The status word and the fault record (10_state.md R22; 60_exceptions.md R171) -/

theorem oneBit_getLsbD (i : Nat) {j : Nat} (hj : j < 32) : (1#32 <<< i).getLsbD j = decide (j = i) := by
  rw [BitVec.getLsbD_shiftLeft, BitVec.getLsbD_one]
  by_cases h : j < i
  · simp [h, show j ≠ i by omega]
  · by_cases e : j = i
    · simp [e, show i < 32 by omega]
    · simp [e, show j - i ≠ 0 by omega]

/-- The bits of a word with one bit set. -/
theorem setBit_getLsbD (v : Word) (i : Nat) {j : Nat} (hj : j < 32) : (setBit v i).getLsbD j = (v.getLsbD j || decide (j = i)) := by
  rw [setBit, BitVec.getLsbD_or, oneBit_getLsbD i hj]

/-- The bits of a word with one bit cleared. -/
theorem clearBit_getLsbD (v : Word) (i : Nat) {j : Nat} (hj : j < 32) : (clearBit v i).getLsbD j = (v.getLsbD j && decide (j ≠ i)) := by
  rw [clearBit, BitVec.getLsbD_and, BitVec.getLsbD_not, oneBit_getLsbD i hj]
  simp [hj]

/-- The bits of the status word a fault leaves (60_exceptions.md R171). -/
theorem faultStatus_getLsbD (s : State) {j : Nat} (hj : j < 32) :
    s.faultStatus.getLsbD j = (s.status.getLsbD j || decide (j = s.bits.fault) || decide (j = s.bits.halted)) := by
  rw [State.faultStatus, setBit_getLsbD _ _ hj, setBit_getLsbD _ _ hj]

/-- The bits of the status word interrupt entry leaves (60_exceptions.md R183). -/
theorem wakeStatus_getLsbD (s : State) {j : Nat} (hj : j < 32) :
    s.wakeStatus.getLsbD j = (s.status.getLsbD j && decide (j ≠ s.bits.halted)) := clearBit_getLsbD _ _ hj

/-- A fault's status word under the spec's positions (10_state.md R22). -/
theorem faultStatus_spec {s : State} (h : s.bits = StatusBits.spec) : s.faultStatus = s.status ||| 0x00000022#32 := by
  simp only [State.faultStatus, setBit, h, StatusBits.spec, BitVec.or_assoc]
  congr 1

/-- An entry's status word under the spec's positions (10_state.md R22). -/
theorem wakeStatus_spec {s : State} (h : s.bits = StatusBits.spec) : s.wakeStatus = s.status &&& 0xFFFFFFFD#32 := by
  simp only [State.wakeStatus, clearBit, h, StatusBits.spec]
  congr 1

/-- The status word a fault leaves has Halted and Fault set, and On as it was where On has a place of its own. -/
theorem faultStatus_bits (s : State) :
    s.faultStatus.getLsbD s.bits.halted = true ∧ s.faultStatus.getLsbD s.bits.fault = true ∧
      (s.config.encoding.wf = true → s.faultStatus.getLsbD s.bits.on = s.on) := by
  refine ⟨?_, ?_, fun h => ?_⟩
  · rw [faultStatus_getLsbD _ s.bits.halted.isLt]; simp
  · rw [faultStatus_getLsbD _ s.bits.fault.isLt]; simp
  · rw [faultStatus_getLsbD _ s.bits.on.isLt]
    simp only [Encoding.wf, Bool.and_eq_true, StatusBits.wf, decide_eq_true_eq, List.nodup_cons, List.mem_cons, not_or] at h
    have h1 : s.bits.on.val ≠ s.bits.fault.val := fun e => h.2.1.2.2.2.2.1 (Fin.ext e)
    have h2 : s.bits.on.val ≠ s.bits.halted.val := fun e => h.2.1.1 (Fin.ext e)
    simp [State.on, h1, h2]

/-- The status word interrupt entry leaves has Halted clear, and On as it was where On has a place of its own. -/
theorem wakeStatus_bits (s : State) :
    s.wakeStatus.getLsbD s.bits.halted = false ∧ (s.config.encoding.wf = true → s.wakeStatus.getLsbD s.bits.on = s.on) := by
  refine ⟨?_, fun h => ?_⟩
  · rw [wakeStatus_getLsbD _ s.bits.halted.isLt]; simp
  · rw [wakeStatus_getLsbD _ s.bits.on.isLt]
    simp only [Encoding.wf, Bool.and_eq_true, StatusBits.wf, decide_eq_true_eq, List.nodup_cons, List.mem_cons, not_or] at h
    have h2 : s.bits.on.val ≠ s.bits.halted.val := fun e => h.2.1.1 (Fin.ext e)
    simp [State.on, h2]

@[simp] theorem faultStatus_of_status (s : State) (m : Memory) (e : Env) : ((s.setMem m).setEnv e).faultStatus = s.faultStatus := rfl
@[simp] theorem past_faultStatus (s : State) (n : Nat) : (s.past n).faultStatus = s.faultStatus := rfl

/-- The status word a fault leaves depends on the status word and the configuration alone. -/
theorem faultStatus_congr {s t : State} (h : t.status = s.status) (hc : t.config = s.config) : t.faultStatus = s.faultStatus := by
  simp only [State.faultStatus, State.bits, h, hc]

/-- Raising a fault, whole: two status bits and the record, and nothing else. -/
theorem raiseFault_eq (s : State) (o : Origin) (k : FaultKind) (info : Word) :
    s.raiseFault o k info = { s with
      status := s.faultStatus
      fault := { latch := true, kind := k, opcode := o.opcode, mode := o.mode, addr := o.addr, info := info } } := rfl

/-- A fault clears no status bit. -/
theorem raiseFault_on {s : State} (o : Origin) (k : FaultKind) (info : Word) (h : s.on = true) : (s.raiseFault o k info).on = true := by
  show s.faultStatus.getLsbD s.bits.on = true
  rw [faultStatus_getLsbD _ s.bits.on.isLt, show s.status.getLsbD s.bits.on = true from h]
  rfl

/-- A fault of a machine that was not halted, followed by an interrupt entry, leaves the status word with Fault set and Halted clear
(60_exceptions.md R186). -/
theorem raiseFault_wakeStatus {s : State} (o : Origin) (k : FaultKind) (info : Word) (hw : s.config.encoding.wf = true)
    (hh : s.halted = false) :
    (s.raiseFault o k info).wakeStatus = s.status ||| (1#32 <<< s.config.encoding.status.fault.val) := by
  have hne : s.bits.fault ≠ s.bits.halted := by
    intro h
    simp [Encoding.wf, StatusBits.wf, h] at hw
  apply BitVec.eq_of_getLsbD_eq
  intro i hi
  rw [wakeStatus_getLsbD _ hi]
  show (s.faultStatus.getLsbD i && decide (i ≠ s.bits.halted)) = (setBit s.status s.bits.fault).getLsbD i
  rw [faultStatus_getLsbD _ hi, setBit_getLsbD _ _ hi]
  by_cases h : i = s.bits.halted.val
  · subst h
    have h1 : s.status.getLsbD s.bits.halted.val = false := hh
    have h2 : ¬ s.bits.halted.val = s.bits.fault.val := fun e => hne (Fin.ext e.symm)
    rw [h1]
    simp [h2]
  · simp [h]

/-! ## The stack (20_memory.md R49, R50) -/

/-- A push into RAM. -/
theorem push_ram {s : State} {n : Size} (v : Word) (h : s.ramRange (s.sp - BitVec.ofNat 32 n.bytes) n.bytes = true) :
    push s n v = .ok () ((s.setSp (s.sp - BitVec.ofNat 32 n.bytes)).setMem
      (storeBytes (leBytes n v) (s.sp - BitVec.ofNat 32 n.bytes) s.mem)) := by
  simp only [push]
  exact memWrite_ram v h

/-- A pop from RAM. -/
theorem pop_ram {s : State} {n : Size} (h : s.ramRange s.sp n.bytes = true) :
    pop s n = .ok (s.ramValue s.sp n) (s.setSp (s.sp + BitVec.ofNat 32 n.bytes)) := by
  simp only [pop, memRead_ram h, ok_andThen]

/-- A push that meets a byte nothing serves: `SP` is already lower. -/
theorem push_unmapped {s : State} {n : Size} (v : Word) {j : Nat}
    (h : s.firstUnmapped (s.sp - BitVec.ofNat 32 n.bytes) n.bytes j = true) :
    ∃ m e, push s n v = .trap .busError (s.sp - BitVec.ofNat 32 n.bytes + BitVec.ofNat 32 j)
        (((s.setSp (s.sp - BitVec.ofNat 32 n.bytes)).setMem m).setEnv e) ∧
      e.schedule = s.env.schedule ∧
      e.log = s.env.log ++ s.writeEvents (addrsFrom (s.sp - BitVec.ofNat 32 n.bytes) j) ((leBytes n v).take j) ∧
      (∀ b : Word, (s.claimed b = true ∨ b ∉ addrsFrom (s.sp - BitVec.ofNat 32 n.bytes) j) →
        memGet m b.toNat = memGet s.mem b.toNat) :=
  memWrite_unmapped_frame (s := s.setSp (s.sp - BitVec.ofNat 32 n.bytes)) v h

/-- A pop that meets a byte nothing serves: `SP` stays. -/
theorem pop_unmapped {s : State} {n : Size} {j : Nat} (h : s.firstUnmapped s.sp n.bytes j = true) :
    ∃ e, pop s n = .trap .busError (s.sp + BitVec.ofNat 32 j) (s.setEnv e) ∧ e.schedule = s.env.schedule ∧
      e.log = s.env.log ++ s.readEvents (addrsFrom s.sp j) := by
  obtain ⟨e, hr, hs, hl⟩ := memRead_unmapped h
  exact ⟨e, by simp only [pop, hr, trap_andThen], hs, hl⟩

/-- All a push can change, done or faulted. -/
theorem push_frame (s : State) (n : Size) (v : Word) :
    (push s n v).state = ((s.setSp (s.sp - BitVec.ofNat 32 n.bytes)).setMem (push s n v).state.mem).setEnv (push s n v).state.env := by
  have h := memWrite_frame (s.setSp (s.sp - BitVec.ofNat 32 n.bytes)) (s.sp - BitVec.ofNat 32 n.bytes) n v
  exact h

/-- All a pop can change when it is done. -/
theorem pop_ok_frame {s t : State} {n : Size} {v : Word} (h : pop s n = .ok v t) :
    t = (s.setSp (s.sp + BitVec.ofNat 32 n.bytes)).setEnv t.env := by
  unfold pop at h
  obtain ⟨w, u, h1, h2⟩ := andThen_eq_ok.1 h
  injection h2 with h2 h3
  have h4 := memRead_ok_frame h1
  rw [← h3, h4]
  rfl

/-- All a pop can change when it faults. -/
theorem pop_trap_frame {s t : State} {n : Size} {k : FaultKind} {i : Word} (h : pop s n = .trap k i t) :
    t = s.setEnv t.env := by
  unfold pop at h
  rcases andThen_eq_trap.1 h with h1 | ⟨w, u, -, h2⟩
  · have := memRead_frame s s.sp n
    rwa [h1] at this
  · cases h2

/-! ## A value in RAM -/

theorem ramValue_of_bytes {s t : State} {a : Word} {n : Size} (h : ∀ b ∈ addrsFrom a n.bytes, t.ramByte b = s.ramByte b) :
    t.ramValue a n = s.ramValue a n := by
  have hk : ∀ k < n.bytes, t.ramByte (a + BitVec.ofNat 32 k) = s.ramByte (a + BitVec.ofNat 32 k) :=
    fun k hk => h _ (mem_addrsFrom.2 ⟨k, hk, rfl⟩)
  cases n with
  | word => have h0 := hk 0 (by decide); simp only [BitVec.add_zero] at h0; simp [State.ramValue, h0]
  | dword =>
    have h0 := hk 0 (by decide)
    have h1 := hk 1 (by decide)
    simp only [BitVec.add_zero] at h0 h1
    simp [State.ramValue, h0, h1]
  | qword =>
    have h0 := hk 0 (by decide)
    have h1 := hk 1 (by decide)
    have h2 := hk 2 (by decide)
    have h3 := hk 3 (by decide)
    simp only [BitVec.add_zero] at h0 h1 h2 h3
    simp [State.ramValue, h0, h1, h2, h3]

/-- The value in RAM as the little-endian number of its bytes. -/
theorem ramValue_eq_leValue (s : State) (a : Word) (n : Size) :
    s.ramValue a n = leValue n ((addrsFrom a n.bytes).map s.ramByte) := by
  cases n <;> simp [Size.bytes, addrsFrom_succ, leValue, takeField, State.ramValue, word_add_assoc]

/-- The stored bytes, read back one by one. -/
theorem storeBytes_map (bs : List Byte) (a : Word) (m : Memory) (hm : Memory.wf m = true) (hl : bs.length < 2 ^ 32) :
    ((addrsFrom a bs.length).map fun b => memGet (storeBytes bs a m) b.toNat) = bs := by
  apply List.ext_getElem
  · simp [addrsFrom]
  · intro i h1 h2
    simp only [addrsFrom, List.map_map, List.getElem_map, List.getElem_range, Function.comp]
    exact storeBytes_get bs a m hm hl h2

/-- The value stored in RAM, read back. -/
theorem ramValue_storeBytes (s : State) (a : Word) (n : Size) (v : Word) (hm : Memory.wf s.mem = true) :
    (s.setMem (storeBytes (leBytes n v) a s.mem)).ramValue a n = n.cut v := by
  rw [ramValue_eq_leValue, ← leValue_leBytes]
  congr 1
  have := storeBytes_map (leBytes n v) a s.mem hm (by cases n <;> simp [Size.bytes])
  rw [leBytes_length] at this
  exact this

/-- The low bytes of a value, as a number. -/
theorem size_cut_toNat (n : Size) (v : Word) : (n.cut v).toNat = v.toNat % 2 ^ (8 * n.bytes) := by
  have := v.isLt
  cases n <;> simp [Size.cut, Size.bytes] <;> omega

/-- The value in RAM is below the bound of its size. -/
theorem ramValue_lt (s : State) (a : Word) (n : Size) : (s.ramValue a n).toNat < 2 ^ (8 * n.bytes) := by
  cases n with
  | word => simp only [State.ramValue, Size.bytes, BitVec.toNat_setWidth]; have := (s.ramByte a).isLt; omega
  | dword =>
    simp only [State.ramValue, Size.bytes, BitVec.toNat_setWidth]
    have := (s.ramByte (a + 1) ++ s.ramByte a).isLt
    omega
  | qword => exact (s.ramValue a .qword).isLt

/-- Memory with every byte as before answers every value as before. -/
theorem ramByte_setMem (s : State) (m : Memory) (a : Word) : (s.setMem m).ramByte a = memGet m a.toNat := rfl

theorem sameMemory_of {s t : State} (h : t.mem = s.mem) : s.sameMemory t := fun a => by rw [State.ramByte, State.ramByte, h]

/-! ## The register file -/

theorem readReg_writeReg_apart {s : State} {r q : Reg} (w : Word) (h : q.apart r = true) :
    (s.writeReg r w).readReg q = s.readReg q := by
  cases r with
  | view g v =>
    cases q with
    | view g' v' =>
      simp only [Reg.apart, Bool.or_eq_true, bne_iff_ne, ne_eq, decide_eq_true_eq] at h
      simp only [State.readReg, State.writeReg, State.setGpr_gpr, gprs_get_set]
      split
      · rename_i e
        subst e
        rw [view_read_write_disjoint]
        rcases h with (h | h) | h
        · exact absurd rfl h
        · exact .inr h
        · exact .inl h
      · rfl
    | special q => simp only [State.readReg, State.writeReg, State.special_setGpr]
  | special r =>
    cases q with
    | view g v => simp only [State.readReg, State.writeReg, State.setSpecial_gpr]
    | special q =>
      simp only [Reg.apart, bne_iff_ne, ne_eq] at h
      simp only [State.readReg, State.writeReg, State.setSpecial_special, h, if_false]

/-- A register operand reads back the low bits written to it. -/
theorem readReg_writeReg_same (s : State) (r : Reg) (w : Word) :
    ((s.writeReg r w).readReg r).toNat = w.toNat % 2 ^ r.width := by
  cases r with
  | view g v =>
    simp only [State.readReg, State.writeReg, State.setGpr_gpr, gprs_get_set_same, view_read_write, Reg.width]
    rw [BitVec.toNat_setWidth, BitVec.toNat_setWidth]
    apply Nat.mod_eq_of_lt
    refine lt_of_lt_of_le (Nat.mod_lt _ (by positivity)) ?_
    exact Nat.pow_le_pow_right (by decide) (by cases v <;> decide)
  | special r =>
    simp only [State.readReg, State.writeReg, State.setSpecial_special, if_true, Reg.width]
    rw [Nat.mod_eq_of_lt w.isLt]

theorem readReg_congr {s t : State} (hg : t.gpr = s.gpr) (hs : ∀ r, t.special r = s.special r) (q : Reg) :
    t.readReg q = s.readReg q := by
  cases q with
  | view g v => simp only [State.readReg, hg]
  | special r => exact hs r

/-- No register but `PC` changes where none of the fields behind them does. -/
theorem sameRegs_of {s t : State} (hg : t.gpr = s.gpr) (hcs : t.cs = s.cs) (hds : t.ds = s.ds) (hss : t.ss = s.ss)
    (hsp : t.sp = s.sp) (hbp : t.bp = s.bp) : s.sameRegs t := by
  intro q hq
  cases q with
  | view g v => simp only [State.readReg, hg]
  | special r => cases r <;> first | assumption | exact absurd rfl hq

/-- No register but `PC` and `SP` changes where none of the fields behind the others does. -/
theorem sameRegsBut_sp_of {s t : State} (hg : t.gpr = s.gpr) (hcs : t.cs = s.cs) (hds : t.ds = s.ds) (hss : t.ss = s.ss)
    (hbp : t.bp = s.bp) : s.sameRegsBut t (.special .sp) := by
  intro q ha hq
  cases q with
  | view g v => simp only [State.readReg, hg]
  | special r => cases r <;> first | assumption | exact absurd rfl hq | (simp [Reg.apart] at ha)

/-- Writing a register from a state whose registers are as before but for `PC`. -/
theorem sameRegsBut_writeReg {s t : State} (h : s.sameRegs t) (r : Reg) (w : Word) : s.sameRegsBut (t.writeReg r w) r := by
  intro q ha hq
  rw [readReg_writeReg_apart w ha]
  exact h q hq

theorem past_sameRegs (s : State) (n : Nat) : s.sameRegs (s.past n) := sameRegs_of rfl rfl rfl rfl rfl rfl

/-! ## The ports (43_port_io.md R142) -/

theorem raiseLine_eq (s : State) (line : Byte) :
    s.raiseLine line = { s with ipend := s.ie || s.ipend, iline := if s.ie then line else s.iline } := by
  obtain ⟨⟩ := s
  rename_i ie _ _ _ _ _ _ _ _ _ _ _
  cases ie <;> rfl

/-- All a handler's answer can change. -/
theorem handlerRaise_eq (s : State) (r : Option Byte) :
    s.handlerRaise r = { s with
      ipend := (match r with | some _ => s.ie || s.ipend | none => s.ipend)
      iline := (match r with | some line => if s.ie then line else s.iline | none => s.iline) } := by
  cases r with
  | none => rfl
  | some line => exact raiseLine_eq s line

@[simp] theorem handlerRaise_gpr (s : State) (r : Option Byte) : (s.handlerRaise r).gpr = s.gpr := by rw [handlerRaise_eq]
@[simp] theorem handlerRaise_cs (s : State) (r : Option Byte) : (s.handlerRaise r).cs = s.cs := by rw [handlerRaise_eq]
@[simp] theorem handlerRaise_ds (s : State) (r : Option Byte) : (s.handlerRaise r).ds = s.ds := by rw [handlerRaise_eq]
@[simp] theorem handlerRaise_ss (s : State) (r : Option Byte) : (s.handlerRaise r).ss = s.ss := by rw [handlerRaise_eq]
@[simp] theorem handlerRaise_pc (s : State) (r : Option Byte) : (s.handlerRaise r).pc = s.pc := by rw [handlerRaise_eq]
@[simp] theorem handlerRaise_sp (s : State) (r : Option Byte) : (s.handlerRaise r).sp = s.sp := by rw [handlerRaise_eq]
@[simp] theorem handlerRaise_bp (s : State) (r : Option Byte) : (s.handlerRaise r).bp = s.bp := by rw [handlerRaise_eq]
@[simp] theorem handlerRaise_flags (s : State) (r : Option Byte) : (s.handlerRaise r).flags = s.flags := by rw [handlerRaise_eq]
@[simp] theorem handlerRaise_clocks (s : State) (r : Option Byte) : (s.handlerRaise r).clocks = s.clocks := by rw [handlerRaise_eq]
@[simp] theorem handlerRaise_status (s : State) (r : Option Byte) : (s.handlerRaise r).status = s.status := by rw [handlerRaise_eq]
@[simp] theorem handlerRaise_ie (s : State) (r : Option Byte) : (s.handlerRaise r).ie = s.ie := by rw [handlerRaise_eq]
@[simp] theorem handlerRaise_idtBase (s : State) (r : Option Byte) : (s.handlerRaise r).idtBase = s.idtBase := by rw [handlerRaise_eq]
@[simp] theorem handlerRaise_idtSet (s : State) (r : Option Byte) : (s.handlerRaise r).idtSet = s.idtSet := by rw [handlerRaise_eq]
@[simp] theorem handlerRaise_fault (s : State) (r : Option Byte) : (s.handlerRaise r).fault = s.fault := by rw [handlerRaise_eq]
@[simp] theorem handlerRaise_ticks (s : State) (r : Option Byte) : (s.handlerRaise r).ticks = s.ticks := by rw [handlerRaise_eq]
@[simp] theorem handlerRaise_clkHalt (s : State) (r : Option Byte) : (s.handlerRaise r).clkHalt = s.clkHalt := by rw [handlerRaise_eq]
@[simp] theorem handlerRaise_clkStop (s : State) (r : Option Byte) : (s.handlerRaise r).clkStop = s.clkStop := by rw [handlerRaise_eq]
@[simp] theorem handlerRaise_mem (s : State) (r : Option Byte) : (s.handlerRaise r).mem = s.mem := by rw [handlerRaise_eq]
@[simp] theorem handlerRaise_config (s : State) (r : Option Byte) : (s.handlerRaise r).config = s.config := by rw [handlerRaise_eq]
@[simp] theorem handlerRaise_env (s : State) (r : Option Byte) : (s.handlerRaise r).env = s.env := by rw [handlerRaise_eq]

theorem handlerRaise_slot (s : State) (r : Option Byte) :
    ((s.handlerRaise r).ipend, (s.handlerRaise r).iline) =
      match r, s.ie with | some line, true => (true, line) | _, _ => (s.ipend, s.iline) := by
  rw [handlerRaise_eq]
  cases r <;> cases h : s.ie <;> simp

theorem portDeliver_claimed {s : State} {w : PortWidth} {p : Byte} (v : Word) (h : p ∈ s.config.portIn w) :
    portDeliver s w p v = .ok ()
      ((s.setEnv ((s.env.see (.portDeliver w p (w.cut v))).portAnswer w p).2).handlerRaise
        ((s.env.see (.portDeliver w p (w.cut v))).portAnswer w p).1.raises) := by
  simp only [portDeliver, h, if_true]

theorem portDeliver_unclaimed {s : State} {w : PortWidth} {p : Byte} (v : Word) (h : p ∉ s.config.portIn w) :
    portDeliver s w p v = .trap .portUnclaimed (p.setWidth 32) s := by
  simp only [portDeliver, h, if_false]

theorem portRequest_claimed {s : State} {w : PortWidth} {p : Byte} (h : p ∈ s.config.portOut w) :
    portRequest s w p = .ok (w.cut ((s.env.see (.portRequest w p)).portAnswer w p).1.value)
      ((s.setEnv ((s.env.see (.portRequest w p)).portAnswer w p).2).handlerRaise
        ((s.env.see (.portRequest w p)).portAnswer w p).1.raises) := by
  simp only [portRequest, h, if_true]

theorem portRequest_unclaimed {s : State} {w : PortWidth} {p : Byte} (h : p ∉ s.config.portOut w) :
    portRequest s w p = .trap .portUnclaimed (p.setWidth 32) s := by
  simp only [portRequest, h, if_false]

/-! ## Interrupt return -/

/-- IRET's two pops from RAM (41_compare_and_control.md R109). -/
theorem returnFromInterrupt_ram {s : State} (h1 : s.ramRange s.sp 4 = true) (h2 : s.ramRange (s.sp + 4) 4 = true) :
    returnFromInterrupt s = .ok ()
      (((s.setStatus (s.ramValue s.sp .qword)).setSp (s.sp + 8)).setPc (s.ramValue (s.sp + 4) .qword)) := by
  have e : s.sp + 4#32 + 4#32 = s.sp + 8#32 := by rw [word_add_assoc]; rfl
  unfold returnFromInterrupt
  rw [pop_ram (n := .qword) h1, ok_andThen]
  have h3 : ((s.setSp (s.sp + BitVec.ofNat 32 Size.qword.bytes)).setStatus (s.ramValue s.sp .qword)).ramRange
      ((s.setSp (s.sp + BitVec.ofNat 32 Size.qword.bytes)).setStatus (s.ramValue s.sp .qword)).sp Size.qword.bytes = true := h2
  rw [pop_ram h3, ok_andThen]
  simp only [State.setStatus_sp, State.setSp_sp, Size.bytes, BitVec.ofNat_eq_ofNat, e]
  rfl

end Sys2Proof.Machine
end

