-- ==== Sys2Proof/Laws/Block.lean ====
section
/-! SUPPORT. Blocks of pushes and pops over a stack in RAM (45_stack_block.md R160, R161). -/

namespace Sys2Proof.Machine

/-- The bytes a block takes on the stack. -/
def blockSize : List Saved → Nat
  | [] => 0
  | x :: rest => x.size.bytes + blockSize rest

/-- The state after one push of a block. -/
def State.pushed (s : State) (x : Saved) : State :=
  (s.setSp (s.sp - BitVec.ofNat 32 x.size.bytes)).setMem
    (storeBytes (leBytes x.size (x.value s)) (s.sp - BitVec.ofNat 32 x.size.bytes) s.mem)

/-- The state after the pushes of a block. -/
def State.pushedAll : List Saved → State → State
  | [], s => s
  | x :: rest, s => State.pushedAll rest (s.pushed x)

/-- The state after one pop of a block. -/
def State.popped (s : State) (x : Saved) : State :=
  x.restore (s.ramValue s.sp x.size) (s.setSp (s.sp + BitVec.ofNat 32 x.size.bytes))

/-- The state after the pops of a block. -/
def State.poppedAll : List Saved → State → State
  | [], s => s
  | x :: rest, s => State.poppedAll rest (s.popped x)

theorem word_sub_add (a : Word) (m n : Nat) :
    a - BitVec.ofNat 32 (m + n) = a - BitVec.ofNat 32 m - BitVec.ofNat 32 n := by
  rw [BitVec.ofNat_add, BitVec.sub_sub]

theorem word_sub_add_cancel (a : Word) (m n : Nat) :
    a - BitVec.ofNat 32 (m + n) + BitVec.ofNat 32 n = a - BitVec.ofNat 32 m := by
  rw [word_sub_add, BitVec.sub_add_cancel]

theorem pushed_config (s : State) (x : Saved) : (s.pushed x).config = s.config := rfl

theorem pushed_sp (s : State) (x : Saved) : (s.pushed x).sp = s.sp - BitVec.ofNat 32 x.size.bytes := rfl

/-- The pushes of a block into RAM. -/
theorem pushAll_ram (l : List Saved) {s : State} (h : s.ramRange (s.sp - BitVec.ofNat 32 (blockSize l)) (blockSize l) = true) :
    pushAll l s = .ok () (State.pushedAll l s) := by
  induction l generalizing s with
  | nil => rfl
  | cons x rest ih =>
    simp only [blockSize, Nat.add_comm x.size.bytes] at h
    rw [ramRange_add, Bool.and_eq_true, Nat.add_comm, word_sub_add_cancel] at h
    simp only [pushAll]
    rw [push_ram _ h.2, ok_andThen]
    refine ih ?_
    have h1 := h.1
    rw [word_sub_add] at h1
    exact h1

/-- The pops of a block from RAM, where no `SP` is among those popped but the last. -/
theorem popAll_ram (l : List Saved) (hl : Saved.special .sp ∉ l) {s : State} (h : s.ramRange s.sp (blockSize l) = true) :
    popAll l s = .ok () (State.poppedAll l s) := by
  induction l generalizing s with
  | nil => rfl
  | cons x rest ih =>
    simp only [blockSize] at h
    rw [ramRange_add, Bool.and_eq_true] at h
    rw [List.mem_cons, not_or] at hl
    simp only [popAll]
    rw [pop_ram h.1, ok_andThen]
    refine ih hl.2 ?_
    cases x with
    | special r => cases r <;> first | exact absurd rfl hl.1 | exact h.2
    | _ => exact h.2

/-- A block of pushes touches no byte outside its own. -/
theorem pushedAll_other (l : List Saved) (s : State) (b : Word)
    (hb : b ∉ addrsFrom (s.sp - BitVec.ofNat 32 (blockSize l)) (blockSize l)) :
    (State.pushedAll l s).ramByte b = s.ramByte b := by
  induction l generalizing s with
  | nil => rfl
  | cons x rest ih =>
    simp only [blockSize, Nat.add_comm x.size.bytes] at hb
    rw [addrsFrom_add, List.mem_append, not_or, Nat.add_comm, word_sub_add_cancel, word_sub_add] at hb
    have h1 : b ∉ addrsFrom ((s.pushed x).sp - BitVec.ofNat 32 (blockSize rest)) (blockSize rest) := hb.1
    rw [State.pushedAll, ih _ h1]
    exact storeBytes_other _ _ _ _ (by rw [leBytes_length]; exact hb.2)

/-- The values a block of pushes leaves in memory `u`, each at the `SP` of its own push. -/
def framed : List Saved → State → State → Prop
  | [], _, _ => True
  | x :: rest, s, u =>
    u.ramValue (s.sp - BitVec.ofNat 32 x.size.bytes) x.size = x.size.cut (x.value s) ∧ framed rest (s.pushed x) u

/-- A block of pushes leaves its values, where it does not meet itself around the address space. -/
theorem pushedAll_framed (l : List Saved) (s : State) (hm : Memory.wf s.mem = true) (hl : blockSize l ≤ 2 ^ 32) :
    framed l s (State.pushedAll l s) := by
  induction l generalizing s with
  | nil => trivial
  | cons x rest ih =>
    simp only [blockSize] at hl
    refine ⟨?_, ih (s.pushed x) (storeBytes_wf _ _ _ hm) (by omega)⟩
    have hv := ramValue_storeBytes (s.setSp (s.sp - BitVec.ofNat 32 x.size.bytes)) (s.sp - BitVec.ofNat 32 x.size.bytes) x.size
      (x.value s) hm
    refine Eq.trans (ramValue_of_bytes fun b hb => ?_) hv
    refine pushedAll_other rest (s.pushed x) b fun hc => ?_
    rw [pushed_sp] at hc
    refine addrsFrom_apart (m := blockSize rest) (n := x.size.bytes) hc ?_ (by omega) rfl
    rwa [BitVec.sub_add_cancel]

/-! ## A block that stops at a push or a pop -/

theorem blockSize_eq_widthOf (l : List Saved) : blockSize l = widthOf (l.map Saved.size) := by
  induction l with
  | nil => rfl
  | cons x rest ih => simp only [blockSize, List.map_cons, widthOf, ih]

/-- The pushes of two blocks, one after the other. -/
theorem pushAll_append (l m : List Saved) (s : State) : pushAll (l ++ m) s = (pushAll l s).andThen fun _ t => pushAll m t := by
  induction l generalizing s with
  | nil => rfl
  | cons x rest ih => simp only [List.cons_append, pushAll, ih, andThen_assoc]

/-- The pops of two blocks, one after the other. -/
theorem popAll_append (l m : List Saved) (s : State) : popAll (l ++ m) s = (popAll l s).andThen fun _ t => popAll m t := by
  induction l generalizing s with
  | nil => rfl
  | cons x rest ih => simp only [List.cons_append, popAll, ih, andThen_assoc]

/-- A block of pushes changes only `SP`, which is below by the block's bytes, and memory. -/
theorem pushedAll_frame (l : List Saved) (s : State) :
    State.pushedAll l s = (s.setSp (s.sp - BitVec.ofNat 32 (blockSize l))).setMem (State.pushedAll l s).mem := by
  induction l generalizing s with
  | nil => obtain ⟨⟩ := s; simp [State.pushedAll, State.setSp, State.setMem, blockSize]
  | cons x rest ih =>
    rw [State.pushedAll, ih (s.pushed x), pushed_sp, blockSize, word_sub_add]
    rfl

/-- RAM serves a block of pushes where it serves every slot. -/
theorem ramRange_of_slots (l : List Saved) (s : State)
    (h : ∀ k y, l[k]? = some y → s.ramRange (s.sp - BitVec.ofNat 32 (blockSize (l.take (k + 1)))) y.size.bytes = true) :
    s.ramRange (s.sp - BitVec.ofNat 32 (blockSize l)) (blockSize l) = true := by
  induction l generalizing s with
  | nil => rfl
  | cons x rest ih =>
    simp only [blockSize, Nat.add_comm x.size.bytes]
    rw [ramRange_add, Bool.and_eq_true, Nat.add_comm, word_sub_add_cancel]
    refine ⟨?_, h 0 x rfl⟩
    rw [word_sub_add]
    refine ih (s.setSp (s.sp - BitVec.ofNat 32 x.size.bytes)) fun k y hk => ?_
    have := h (k + 1) y hk
    rw [List.take_succ_cons, blockSize, word_sub_add] at this
    exact this

/-- The value at one slot of the frame a block of pushes leaves. -/
theorem framed_slot {l : List Saved} {s u : State} (h : framed l s u) {k : Nat} {y : Saved} (hk : l[k]? = some y) :
    u.ramValue (s.sp - BitVec.ofNat 32 (blockSize (l.take (k + 1)))) y.size = y.size.cut (y.value (State.pushedAll (l.take k) s)) := by
  induction l generalizing s k with
  | nil => simp at hk
  | cons x rest ih =>
    cases k with
    | zero =>
      simp only [List.getElem?_cons_zero, Option.some.injEq] at hk
      subst hk
      simpa [blockSize, State.pushedAll] using h.1
    | succ k =>
      have := ih h.2 hk
      rw [pushed_sp] at this
      rw [List.take_succ_cons, blockSize, word_sub_add, this]
      rfl

/-- A register of the set, once restored, has the value it was restored with, cut to its width. -/
theorem restore_value_same (x : Saved) (v : Word) (s : State) : x.value (x.restore v s) = x.size.cut v := by
  cases x with
  | gpr r => cases r <;> rfl
  | special r => cases r <;> rfl
  | flags => rfl
  | clocks => rfl

/-- Restoring one register of the set leaves the others. -/
theorem restore_value_other {x y : Saved} (h : y ≠ x) (v : Word) (s : State) : y.value (x.restore v s) = y.value s := by
  cases x with
  | gpr r =>
    cases y with
    | gpr q =>
      have hq : q ≠ r := fun e => h (by rw [e])
      simp [Saved.value, Saved.restore, State.setGpr_gpr, gprs_get_set, hq]
    | special q => cases q <;> rfl
    | flags => rfl
    | clocks => rfl
  | special r =>
    cases y with
    | special q =>
      have hq : q ≠ r := fun e => h (by rw [e])
      simp only [Saved.value, Saved.restore, State.setSpecial_special, hq, if_false]
    | gpr q => cases r <;> rfl
    | flags => cases r <;> rfl
    | clocks => cases r <;> rfl
  | flags =>
    cases y with
    | special q => cases q <;> rfl
    | flags => exact absurd rfl h
    | gpr q => rfl
    | clocks => rfl
  | clocks =>
    cases y with
    | special q => cases q <;> rfl
    | clocks => exact absurd rfl h
    | gpr q => rfl
    | flags => rfl

/-- Restoring a register of the set touches neither memory nor the control state. -/
theorem restore_frame (x : Saved) (v : Word) (s : State) :
    (x.restore v s).mem = s.mem ∧ (x.restore v s).env = s.env ∧ s.sameSystem (x.restore v s) ∧
      (x ≠ .special .sp → (x.restore v s).sp = s.sp) := by
  cases x with
  | special r =>
    cases r <;> exact ⟨rfl, rfl, ⟨⟨rfl, rfl⟩, ⟨rfl, rfl, rfl, rfl, rfl⟩, rfl, rfl, rfl, rfl⟩, fun h => by first | rfl | exact absurd rfl h⟩
  | gpr r => exact ⟨rfl, rfl, ⟨⟨rfl, rfl⟩, ⟨rfl, rfl, rfl, rfl, rfl⟩, rfl, rfl, rfl, rfl⟩, fun _ => rfl⟩
  | flags => exact ⟨rfl, rfl, ⟨⟨rfl, rfl⟩, ⟨rfl, rfl, rfl, rfl, rfl⟩, rfl, rfl, rfl, rfl⟩, fun _ => rfl⟩
  | clocks => exact ⟨rfl, rfl, ⟨⟨rfl, rfl⟩, ⟨rfl, rfl, rfl, rfl, rfl⟩, rfl, rfl, rfl, rfl⟩, fun _ => rfl⟩

/-- What no stack pointer's move changes. -/
theorem value_setSp {y : Saved} (h : y ≠ .special .sp) (s : State) (v : Word) : y.value (s.setSp v) = y.value s := by
  cases y with
  | special r => cases r <;> first | rfl | exact absurd rfl h
  | gpr r => rfl
  | flags => rfl
  | clocks => rfl

theorem sameSystem_trans {s t u : State} (h : s.sameSystem t) (h' : t.sameSystem u) : s.sameSystem u := by
  obtain ⟨⟨a1, a2⟩, ⟨a3, a4, a5, a6, a7⟩, a8, a9, a10, a11⟩ := h
  obtain ⟨⟨b1, b2⟩, ⟨b3, b4, b5, b6, b7⟩, b8, b9, b10, b11⟩ := h'
  exact ⟨⟨b1.trans a1, b2.trans a2⟩, ⟨b3.trans a3, b4.trans a4, b5.trans a5, b6.trans a6, b7.trans a7⟩, b8.trans a8, b9.trans a9,
    b10.trans a10, b11.trans a11⟩

/-- A block of pops without `SP` leaves `SP` above by the block's bytes, and memory and the control state alone. -/
theorem poppedAll_frame (l : List Saved) (hl : Saved.special .sp ∉ l) (s : State) :
    (State.poppedAll l s).sp = s.sp + BitVec.ofNat 32 (blockSize l) ∧ (State.poppedAll l s).mem = s.mem ∧
      (State.poppedAll l s).env = s.env ∧ s.sameSystem (State.poppedAll l s) := by
  induction l generalizing s with
  | nil => simp [State.poppedAll, blockSize, State.sameSystem, State.sameStatus, State.sameInterrupts, State.sameClock]
  | cons x rest ih =>
    rw [List.mem_cons, not_or] at hl
    obtain ⟨h1, h2, h3, h4⟩ := ih hl.2 (s.popped x)
    obtain ⟨f1, f2, f3, f4⟩ := restore_frame x (s.ramValue s.sp x.size) (s.setSp (s.sp + BitVec.ofNat 32 x.size.bytes))
    refine ⟨?_, h2.trans f1, h3.trans f2, sameSystem_trans (sameSystem_trans ?_ f3) h4⟩
    · rw [State.poppedAll, h1, blockSize, BitVec.ofNat_add, ← word_add_assoc, State.popped, f4 (fun e => hl.1 e.symm)]
      rfl
    · exact ⟨⟨rfl, rfl⟩, ⟨rfl, rfl, rfl, rfl, rfl⟩, rfl, rfl, rfl, rfl⟩

/-- A register that a block of pops does not name keeps its value. -/
theorem poppedAll_other {y : Saved} (hy : y ≠ .special .sp) (l : List Saved) (h : y ∉ l) (s : State) :
    y.value (State.poppedAll l s) = y.value s := by
  induction l generalizing s with
  | nil => rfl
  | cons x rest ih =>
    rw [List.mem_cons, not_or] at h
    rw [State.poppedAll, ih h.2, State.popped, restore_value_other h.1, value_setSp hy]

/-- A register that a block of pops names, once and without `SP` among them, has the value of its slot. -/
theorem poppedAll_slot {l : List Saved} (hl : Saved.special .sp ∉ l) (hd : l.Nodup) {s : State} {k : Nat} {y : Saved} (hk : l[k]? = some y) :
    y.value (State.poppedAll l s) = y.size.cut (s.ramValue (s.sp + BitVec.ofNat 32 (blockSize (l.take k))) y.size) := by
  induction l generalizing s k with
  | nil => simp at hk
  | cons x rest ih =>
    rw [List.mem_cons, not_or] at hl
    rw [List.nodup_cons] at hd
    cases k with
    | zero =>
      simp only [List.getElem?_cons_zero, Option.some.injEq] at hk
      subst hk
      rw [State.poppedAll, poppedAll_other (fun e => hl.1 e.symm) rest hd.1, State.popped, restore_value_same]
      simp [blockSize]
    | succ k =>
      have := ih hl.2 hd.2 (s := s.popped x) hk
      obtain ⟨f1, f2, f3, f4⟩ := restore_frame x (s.ramValue s.sp x.size) (s.setSp (s.sp + BitVec.ofNat 32 x.size.bytes))
      rw [State.poppedAll, this, List.take_succ_cons, blockSize, BitVec.ofNat_add, ← word_add_assoc, State.popped,
        f4 (fun e => hl.1 e.symm)]
      congr 1
      exact ramValue_of_bytes fun b _ => by rw [State.ramByte, State.ramByte, f1]; rfl

end Sys2Proof.Machine
end

