-- ==== Sys2Proof/Laws/Fetch.lean ====
section
/-! SUPPORT. Decode scripts run over byte lists and over RAM: the two agree, and more bytes do not change a decision
(30_encoding.md R61, R67, R78). -/

namespace Sys2Proof

/-- A field taken from a list is the field's bytes followed by the rest. -/
theorem takeField_some {n : Size} {bs rest : List Byte} {v : Word} (h : takeField n bs = some (v, rest)) :
    bs = leBytes n v ++ rest := by
  match n, bs with
  | .word, b0 :: r =>
    simp only [takeField, Option.some.injEq, Prod.mk.injEq] at h
    obtain ⟨rfl, rfl⟩ := h
    simp only [leBytes, List.cons_append, List.nil_append, List.cons.injEq, and_true]
    apply BitVec.eq_of_getLsbD_eq
    intro i hi
    simp only [BitVec.getLsbD_extractLsb', BitVec.getLsbD_setWidth, hi, decide_true, Bool.true_and, Nat.zero_add]
    simp [show i < 32 by omega]
  | .dword, b0 :: b1 :: r =>
    simp only [takeField, Option.some.injEq, Prod.mk.injEq] at h
    obtain ⟨rfl, rfl⟩ := h
    simp only [leBytes, List.cons_append, List.nil_append, List.cons.injEq, and_true]
    refine ⟨?_, ?_⟩ <;> apply BitVec.eq_of_getLsbD_eq <;> intro i hi <;>
      simp only [BitVec.getLsbD_extractLsb', BitVec.getLsbD_setWidth, BitVec.getLsbD_append, hi, decide_true, Bool.true_and,
        Nat.zero_add, if_true]
    · simp [show i < 32 by omega]
    · simp [show 8 + i < 32 by omega]
  | .qword, b0 :: b1 :: b2 :: b3 :: r =>
    simp only [takeField, Option.some.injEq, Prod.mk.injEq] at h
    obtain ⟨rfl, rfl⟩ := h
    simp only [leBytes, List.cons_append, List.nil_append, List.cons.injEq, and_true]
    refine ⟨?_, ?_, ?_, ?_⟩ <;> apply BitVec.eq_of_getLsbD_eq <;> intro i hi <;>
      simp only [BitVec.getLsbD_extractLsb', BitVec.getLsbD_append, hi, decide_true, Bool.true_and, Nat.zero_add, if_true]
    · simp [show i < 8 + 8 by omega]
    · simp only [show 8 + i < 8 + 8 by omega, if_true]
      simp
    · simp [hi, show ¬ 16 + i < 8 + 8 by omega, show 16 + i - (8 + 8) = i by omega]
    · simp [hi, show ¬ 24 + i < 8 + 8 by omega, show 24 + i - (8 + 8) = 8 + i by omega]
  | .word, [] | .dword, [] | .dword, [_] | .qword, [] | .qword, [_] | .qword, [_, _] | .qword, [_, _, _] => cases h

/-- The field of a size's bytes is the value, cut to the size. -/
theorem takeField_leBytes (n : Size) (v : Word) (rest : List Byte) : takeField n (leBytes n v ++ rest) = some (n.cut v, rest) := by
  have h := Machine.leValue_leBytes n v
  cases n <;> simp only [Machine.leValue, leBytes, takeField, List.cons_append, List.nil_append] at h ⊢ <;> rw [h]

theorem takeField_append {n : Size} {bs rest : List Byte} {v : Word} (l : List Byte) (h : takeField n bs = some (v, rest)) :
    takeField n (bs ++ l) = some (v, rest ++ l) := by
  have e := takeField_some h
  subst e
  rw [List.append_assoc, takeField_leBytes]
  rw [takeField_leBytes] at h
  simp only [Option.some.injEq, Prod.mk.injEq] at h ⊢
  exact ⟨h.1, trivial⟩

/-- The value of a field fits its size. -/
theorem takeField_fits {n : Size} {bs rest : List Byte} {v : Word} (h : takeField n bs = some (v, rest)) : n.fits v = true := by
  have e := takeField_some h
  subst e
  rw [takeField_leBytes] at h
  simp only [Option.some.injEq, Prod.mk.injEq] at h
  rw [← h.1, Size.fits, decide_eq_true_eq, Machine.size_cut_toNat]
  exact Nat.mod_lt _ (by positivity)

/-- A value that fits its size is not changed by cutting it to the size. -/
theorem cut_of_fits {n : Size} {v : Word} (h : n.fits v = true) : n.cut v = v := by
  apply BitVec.eq_of_toNat_eq
  rw [Machine.size_cut_toNat, Nat.mod_eq_of_lt (by simpa [Size.fits] using h)]

/-- Whatever a script decodes, it decodes with more bytes behind. -/
theorem runBytes_ok_append (sc : Script) {bs rest : List Byte} {i : Instr} (l : List Byte) (h : sc.runBytes bs = .ok (i, rest)) :
    sc.runBytes (bs ++ l) = .ok (i, rest ++ l) := by
  induction sc generalizing bs with
  | done j => simp only [Script.runBytes, Except.ok.injEq, Prod.mk.injEq] at h ⊢; exact ⟨h.1, by rw [h.2]⟩
  | reject e => simp [Script.runBytes] at h
  | fetch n k ih =>
    cases ht : takeField n bs with
    | none => simp [Script.runBytes, ht] at h
    | some p =>
      obtain ⟨v, r⟩ := p
      simp only [Script.runBytes, ht, takeField_append l ht] at h ⊢
      exact ih v h

/-- A rejection by name stands with more bytes behind. -/
theorem runBytes_error_append (sc : Script) {bs : List Byte} {e : Reject} (l : List Byte) (he : e ≠ .truncated)
    (h : sc.runBytes bs = .error e) : sc.runBytes (bs ++ l) = .error e := by
  induction sc generalizing bs with
  | done j => simp [Script.runBytes] at h
  | reject e' => simpa [Script.runBytes] using h
  | fetch n k ih =>
    cases ht : takeField n bs with
    | none => simp only [Script.runBytes, ht, Except.error.injEq] at h; exact absurd h.symm he
    | some p =>
      obtain ⟨v, r⟩ := p
      simp only [Script.runBytes, ht, takeField_append l ht] at h ⊢
      exact ih v h

/-- The width of the field a script fetches once it has fetched exactly these bytes; none where it does not come to fetch one there. -/
def Script.next? : Script → List Byte → Option Size
  | .done _, _ => none
  | .reject _, _ => none
  | .fetch n k, bs => if bs.isEmpty then some n else match takeField n bs with
    | some (v, rest) => (k v).next? rest
    | none => none

theorem next_nil (n : Size) (k : Word → Script) : (Script.fetch n k).next? [] = some n := by simp [Script.next?]

/-- Past a field the script goes on with the field's value. -/
theorem next_field (n : Size) (k : Word → Script) (v : Word) (rest : List Byte) :
    (Script.fetch n k).next? (leBytes n v ++ rest) = (k (n.cut v)).next? rest := by
  have h : (leBytes n v ++ rest).isEmpty = false := by cases n <;> rfl
  simp only [Script.next?, h, takeField_leBytes, Bool.false_eq_true, if_false]

namespace Machine

theorem ramHolds_cons {s : State} {a : Word} {b : Byte} {bs : List Byte} :
    s.ramHolds a (b :: bs) = true ↔ s.inRam a = true ∧ s.ramByte a = b ∧ s.ramHolds (a + 1) bs = true := by
  simp [State.ramHolds, and_assoc]

theorem ramHolds_congr {s t : State} (hc : t.config = s.config) (hm : t.mem = s.mem) (a : Word) (bs : List Byte) :
    t.ramHolds a bs = s.ramHolds a bs := by
  induction bs generalizing a with
  | nil => rfl
  | cons b bs ih => simp only [State.ramHolds, ih, inRam_of_config hc, State.ramByte, hm]

/-- RAM holds a list where it holds its two parts. -/
theorem ramHolds_append {s : State} {a : Word} {bs l : List Byte} :
    s.ramHolds a (bs ++ l) = true ↔ s.ramHolds a bs = true ∧ s.ramHolds (a + BitVec.ofNat 32 bs.length) l = true := by
  induction bs generalizing a with
  | nil => simp [State.ramHolds]
  | cons b bs ih => rw [List.cons_append, ramHolds_cons, ramHolds_cons, ih, List.length_cons, word_add_succ]; tauto

/-- RAM that holds a list serves its bytes. -/
theorem ramRange_of_ramHolds {s : State} {a : Word} {bs : List Byte} (h : s.ramHolds a bs = true) :
    s.ramRange a bs.length = true ∧ (addrsFrom a bs.length).map s.ramByte = bs := by
  induction bs generalizing a with
  | nil => simp [State.ramRange, addrsFrom]
  | cons b bs ih =>
    rw [ramHolds_cons] at h
    rw [List.length_cons, ramRange_succ, addrsFrom_succ]
    obtain ⟨h1, h2⟩ := ih h.2.2
    rw [h.1, h1, List.map_cons, h.2.1, h2]
    exact ⟨rfl, rfl⟩

/-- Reading a field that RAM holds. -/
theorem memRead_ramHolds {s : State} {a : Word} {n : Size} {v : Word} (h : s.ramHolds a (leBytes n v) = true) :
    memRead s a n = .ok (n.cut v) s := by
  obtain ⟨h1, h2⟩ := ramRange_of_ramHolds h
  rw [leBytes_length] at h1 h2
  rw [memRead_ram h1, ramValue_eq_leValue, h2, leValue_leBytes]

/-- Over RAM, a script decodes what it decodes over the list of the bytes, and touches nothing. -/
theorem fetchScript_ram {sc : Script} {a0 : Word} {seen bs rest : List Byte} {s : State} {i : Instr}
    (h : sc.runBytes bs = .ok (i, rest)) (hr : s.ramHolds (a0 + BitVec.ofNat 32 seen.length) bs = true) :
    fetchScript sc a0 seen s = .instr i s := by
  induction sc generalizing bs seen with
  | done j => simp only [Script.runBytes, Except.ok.injEq, Prod.mk.injEq] at h; simp only [fetchScript, h.1]
  | reject e => simp [Script.runBytes] at h
  | fetch n k ih =>
    cases ht : takeField n bs with
    | none => simp [Script.runBytes, ht] at h
    | some p =>
      obtain ⟨v, r⟩ := p
      have e := takeField_some ht
      have hv := cut_of_fits (takeField_fits ht)
      simp only [Script.runBytes, ht] at h
      subst e
      rw [ramHolds_append] at hr
      simp only [fetchScript, memRead_ramHolds hr.1, hv]
      refine ih v h ?_
      rw [List.length_append, BitVec.ofNat_add, ← word_add_assoc]
      exact hr.2

/-- Over RAM, a script that rejects by name faults after exactly the bytes it needed. -/
theorem fetchScript_ram_reject {sc : Script} {a0 : Word} {seen bs : List Byte} {s : State} {e : Reject} (he : e ≠ .truncated)
    (h : sc.runBytes bs = .error e) (hr : s.ramHolds (a0 + BitVec.ofNat 32 seen.length) bs = true) :
    ∃ pre rest, bs = pre ++ rest ∧ sc.runBytes pre = .error e ∧
      fetchScript sc a0 seen s = .fault (rejectKind e) (rejectInfo e) (seen ++ pre) s := by
  induction sc generalizing bs seen with
  | done j => simp [Script.runBytes] at h
  | reject e' =>
    simp only [Script.runBytes, Except.error.injEq] at h
    subst h
    exact ⟨[], bs, rfl, rfl, by simp [fetchScript]⟩
  | fetch n k ih =>
    cases ht : takeField n bs with
    | none => simp only [Script.runBytes, ht, Except.error.injEq] at h; exact absurd h.symm he
    | some p =>
      obtain ⟨v, r⟩ := p
      have e' := takeField_some ht
      have hv := cut_of_fits (takeField_fits ht)
      simp only [Script.runBytes, ht] at h
      subst e'
      rw [ramHolds_append] at hr
      obtain ⟨pre, rest, h1, h2, h3⟩ := ih v (seen := seen ++ leBytes n v) h (by
        rw [List.length_append, BitVec.ofNat_add, ← word_add_assoc]; exact hr.2)
      refine ⟨leBytes n v ++ pre, rest, by rw [h1, List.append_assoc], ?_, ?_⟩
      · simp only [Script.runBytes, takeField_leBytes, hv, h2]
      · simp only [fetchScript, memRead_ramHolds hr.1, hv, h3, List.append_assoc]

/-- Over RAM, a script whose next field meets a byte nothing serves faults there, with the bytes before the field fetched; the regions
that claim bytes of the field before that one have seen the reads (30_encoding.md R61; 60_exceptions.md R173). -/
theorem fetchScript_unmapped {sc : Script} {a0 : Word} {seen bs : List Byte} {s : State} {n : Size} {j : Nat}
    (h : sc.next? bs = some n) (hr : s.ramHolds (a0 + BitVec.ofNat 32 seen.length) bs = true)
    (hu : s.firstUnmapped (a0 + BitVec.ofNat 32 (seen ++ bs).length) n.bytes j = true) :
    ∃ e, fetchScript sc a0 seen s =
        .fault .busError (a0 + BitVec.ofNat 32 (seen ++ bs).length + BitVec.ofNat 32 j) (seen ++ bs) (s.setEnv e) ∧
      e.schedule = s.env.schedule ∧
      e.log = s.env.log ++ s.readEvents (addrsFrom (a0 + BitVec.ofNat 32 (seen ++ bs).length) j) := by
  induction sc generalizing bs seen with
  | done i => simp [Script.next?] at h
  | reject e => simp [Script.next?] at h
  | fetch m k ih =>
    simp only [Script.next?] at h
    split at h
    · rename_i hb
      rw [List.isEmpty_iff] at hb
      subst hb
      injection h with h
      subst h
      rw [List.append_nil] at hu ⊢
      obtain ⟨e, h1, h2, h3⟩ := memRead_unmapped hu
      exact ⟨e, by simp only [fetchScript, h1], h2, h3⟩
    · cases ht : takeField m bs with
      | none => simp [ht] at h
      | some p =>
        obtain ⟨v, rest⟩ := p
        have e' := takeField_some ht
        have hv := cut_of_fits (takeField_fits ht)
        simp only [ht] at h
        subst e'
        rw [ramHolds_append] at hr
        rw [← List.append_assoc] at hu ⊢
        simp only [fetchScript, memRead_ramHolds hr.1, hv]
        exact ih v h (by rw [List.length_append, BitVec.ofNat_add, ← word_add_assoc]; exact hr.2) hu

/-- The instruction that RAM holds at `PC` is fetched, and fetching it changes nothing. -/
theorem fetchInstr_ram {s : State} {bs rest : List Byte} {i : Instr} (h : decode s.config.encoding bs = .ok (i, rest))
    (hr : s.ramHolds s.pc bs = true) :
    fetchInstr s = .instr i s :=
  fetchScript_ram h (by simpa using hr)

end Machine

end Sys2Proof
end

