-- ==== Sys2Proof/Laws/Meanings.lean ====
section
/-! SUPPORT. Each instruction as an execute phase run in the frame of `perform`: the equation of its arm and its meaning, said once. -/

namespace Sys2Proof.Machine

theorem exec_movRI (n : Size) (r1 : Reg) (v : Word) (s : State) :
    exec (.movRI n r1 v) s = perform (.movRI n r1 v) (move n (.reg r1) (.imm v)) s := rfl

theorem exec_movRR (r1 r2 : Reg) (s : State) : exec (.movRR r1 r2) s = perform (.movRR r1 r2) (copyReg r1 r2) s := rfl

theorem exec_movRA (n : Size) (r1 : Reg) (a2 : Word) (s : State) :
    exec (.movRA n r1 a2) s = perform (.movRA n r1 a2) (move n (.reg r1) (.mem (.abs a2))) s := rfl

theorem exec_movRP (n : Size) (r1 r2 : Reg) (s : State) :
    exec (.movRP n r1 r2) s = perform (.movRP n r1 r2) (move n (.reg r1) (.mem (.ind r2))) s := rfl

theorem exec_movAI (n : Size) (a1 v : Word) (s : State) :
    exec (.movAI n a1 v) s = perform (.movAI n a1 v) (move n (.mem (.abs a1)) (.imm v)) s := rfl

theorem exec_movAR (n : Size) (a1 : Word) (r2 : Reg) (s : State) :
    exec (.movAR n a1 r2) s = perform (.movAR n a1 r2) (move n (.mem (.abs a1)) (.reg r2)) s := rfl

theorem exec_movAA (n : Size) (a1 a2 : Word) (s : State) :
    exec (.movAA n a1 a2) s = perform (.movAA n a1 a2) (move n (.mem (.abs a1)) (.mem (.abs a2))) s := rfl

theorem exec_movAP (n : Size) (a1 : Word) (r2 : Reg) (s : State) :
    exec (.movAP n a1 r2) s = perform (.movAP n a1 r2) (move n (.mem (.abs a1)) (.mem (.ind r2))) s := rfl

theorem exec_movPI (n : Size) (r1 : Reg) (v : Word) (s : State) :
    exec (.movPI n r1 v) s = perform (.movPI n r1 v) (move n (.mem (.ind r1)) (.imm v)) s := rfl

theorem exec_movPR (n : Size) (r1 r2 : Reg) (s : State) :
    exec (.movPR n r1 r2) s = perform (.movPR n r1 r2) (move n (.mem (.ind r1)) (.reg r2)) s := rfl

theorem exec_movPA (n : Size) (r1 : Reg) (a2 : Word) (s : State) :
    exec (.movPA n r1 a2) s = perform (.movPA n r1 a2) (move n (.mem (.ind r1)) (.mem (.abs a2))) s := rfl

theorem exec_movPP (n : Size) (r1 r2 : Reg) (s : State) :
    exec (.movPP n r1 r2) s = perform (.movPP n r1 r2) (move n (.mem (.ind r1)) (.mem (.ind r2))) s := rfl

theorem exec_push (s : State) : exec .push s = perform .push noHandler s := rfl

theorem exec_pop (s : State) : exec .pop s = perform .pop noHandler s := rfl

theorem exec_pusha (s : State) : exec .pusha s = perform .pusha (pushAll pushaOrder) s := rfl

theorem exec_popa (s : State) : exec .popa s = perform .popa (popAll pushaOrder.reverse) s := rfl

theorem exec_mmset (s : State) : exec .mmset s = perform .mmset noHandler s := rfl

theorem exec_mmcpy (s : State) : exec .mmcpy s = perform .mmcpy noHandler s := rfl

theorem exec_addRI (r1 : Reg) (v : Word) (s : State) :
    exec (.addRI r1 v) s = perform (.addRI r1 v) (alu addWord r1 (.imm v)) s := rfl

theorem exec_addRR (r1 r2 : Reg) (s : State) : exec (.addRR r1 r2) s = perform (.addRR r1 r2) (alu addWord r1 (.reg r2)) s := rfl

theorem exec_sub (s : State) : exec .sub s = perform .sub noHandler s := rfl

theorem exec_mulRI (r1 : Reg) (v : Word) (s : State) :
    exec (.mulRI r1 v) s = perform (.mulRI r1 v) (alu mulWord r1 (.imm v)) s := rfl

theorem exec_mulRR (r1 r2 : Reg) (s : State) : exec (.mulRR r1 r2) s = perform (.mulRR r1 r2) (alu mulWord r1 (.reg r2)) s := rfl

theorem exec_div (s : State) : exec .div s = perform .div noHandler s := rfl

theorem exec_mod (s : State) : exec .mod s = perform .mod noHandler s := rfl

theorem exec_inc (r1 : Reg) (s : State) : exec (.inc r1) s = perform (.inc r1) (alu addWord r1 (.imm 1)) s := rfl

theorem exec_dec (s : State) : exec .dec s = perform .dec noHandler s := rfl

theorem exec_and (s : State) : exec .and s = perform .and noHandler s := rfl

theorem exec_orRI (r1 : Reg) (v : Word) (s : State) : exec (.orRI r1 v) s = perform (.orRI r1 v) (alu orWord r1 (.imm v)) s := rfl

theorem exec_orRR (r1 r2 : Reg) (s : State) : exec (.orRR r1 r2) s = perform (.orRR r1 r2) (alu orWord r1 (.reg r2)) s := rfl

theorem exec_not (s : State) : exec .not s = perform .not noHandler s := rfl

theorem exec_shlRI (r1 : Reg) (v : Word) (s : State) :
    exec (.shlRI r1 v) s = perform (.shlRI r1 v) (alu shlWord r1 (.imm v)) s := rfl

theorem exec_shlRR (r1 r2 : Reg) (s : State) : exec (.shlRR r1 r2) s = perform (.shlRR r1 r2) (alu shlWord r1 (.reg r2)) s := rfl

theorem exec_shr (s : State) : exec .shr s = perform .shr noHandler s := rfl

theorem exec_cmpRI (r1 : Reg) (v : Word) (s : State) :
    exec (.cmpRI r1 v) s = perform (.cmpRI r1 v) (compareWith r1 (.imm v)) s := rfl

theorem exec_cmpRR (r1 r2 : Reg) (s : State) : exec (.cmpRR r1 r2) s = perform (.cmpRR r1 r2) (compareWith r1 (.reg r2)) s := rfl

theorem exec_jmp (t : Word) (s : State) : exec (.jmp t) s = perform (.jmp t) (jumpIf (fun _ => true) t) s := rfl

theorem exec_je (t : Word) (s : State) : exec (.je t) s = perform (.je t) (jumpIf State.zero t) s := rfl

theorem exec_jne (t : Word) (s : State) : exec (.jne t) s = perform (.jne t) (jumpIf (fun u => !u.zero) t) s := rfl

theorem exec_jl (t : Word) (s : State) : exec (.jl t) s = perform (.jl t) (jumpIf State.underflow t) s := rfl

theorem exec_jle (s : State) : exec .jle s = perform .jle noHandler s := rfl

theorem exec_jg (s : State) : exec .jg s = perform .jg noHandler s := rfl

theorem exec_jge (s : State) : exec .jge s = perform .jge noHandler s := rfl

theorem exec_call (t : Word) (s : State) : exec (.call t) s = perform (.call t) (callTo t) s := rfl

theorem exec_calle (t : Word) (s : State) :
    exec (.calle t) s = perform (.calle t) (fun u => if u.zero then callTo t u else .ok () u) s := rfl

theorem exec_ret (s : State) : exec .ret s = perform .ret (fun u => (pop u .qword).andThen fun v w => .ok () (w.setPc v)) s := rfl

theorem exec_iret (s : State) : exec .iret s = perform .iret returnFromInterrupt s := rfl

theorem exec_inbII (p v : Byte) (s : State) :
    exec (.inbII p v) s = perform (.inbII p v) (fun u => portDeliver u .w8 p (v.setWidth 32)) s := rfl

theorem exec_inbIR (p : Byte) (r2 : Reg) (s : State) :
    exec (.inbIR p r2) s = perform (.inbIR p r2) (fun u => portDeliver u .w8 p (Size.word.cut (u.readReg r2))) s := rfl

theorem exec_inbIA (p : Byte) (a2 : Word) (s : State) :
    exec (.inbIA p a2) s = perform (.inbIA p a2) (fun u => (memRead u a2 .word).andThen fun v t => portDeliver t .w8 p v) s := rfl

theorem exec_inw (s : State) : exec .inw s = perform .inw noHandler s := rfl

theorem exec_inq (s : State) : exec .inq s = perform .inq noHandler s := rfl

theorem exec_outbRI (r1 : Reg) (p : Byte) (s : State) :
    exec (.outbRI r1 p) s = perform (.outbRI r1 p) (fun u => (portRequest u .w8 p).andThen fun v t => .ok () (t.writeReg r1 v)) s := rfl

theorem exec_outw (s : State) : exec .outw s = perform .outw noHandler s := rfl

theorem exec_outq (s : State) : exec .outq s = perform .outq noHandler s := rfl

theorem exec_hlt (s : State) : exec .hlt s = perform .hlt (fun u => .ok () (u.setStatusBit u.bits.halted)) s := rfl

theorem exec_sti (s : State) : exec .sti s = perform .sti (fun u => .ok () (u.setIe true)) s := rfl

theorem exec_cli (s : State) : exec .cli s = perform .cli (fun u => .ok () (u.setIe false)) s := rfl

theorem exec_ldidt (t : Word) (s : State) : exec (.ldidt t) s = perform (.ldidt t) (fun u => .ok () (u.setIdt t)) s := rfl

theorem exec_intr (s : State) : exec .intr s = perform .intr noHandler s := rfl

/-- Every meaning is an execute phase run in the frame of `perform`. -/
theorem exec_runs (i : Instr) : ∃ body, ∀ s, exec i s = perform i body s := by
  cases i with
  | movRI n r1 v => exact ⟨_, exec_movRI n r1 v⟩
  | movRR r1 r2 => exact ⟨_, exec_movRR r1 r2⟩
  | movRA n r1 a2 => exact ⟨_, exec_movRA n r1 a2⟩
  | movRP n r1 r2 => exact ⟨_, exec_movRP n r1 r2⟩
  | movAI n a1 v => exact ⟨_, exec_movAI n a1 v⟩
  | movAR n a1 r2 => exact ⟨_, exec_movAR n a1 r2⟩
  | movAA n a1 a2 => exact ⟨_, exec_movAA n a1 a2⟩
  | movAP n a1 r2 => exact ⟨_, exec_movAP n a1 r2⟩
  | movPI n r1 v => exact ⟨_, exec_movPI n r1 v⟩
  | movPR n r1 r2 => exact ⟨_, exec_movPR n r1 r2⟩
  | movPA n r1 a2 => exact ⟨_, exec_movPA n r1 a2⟩
  | movPP n r1 r2 => exact ⟨_, exec_movPP n r1 r2⟩
  | push => exact ⟨_, exec_push⟩
  | pop => exact ⟨_, exec_pop⟩
  | pusha => exact ⟨_, exec_pusha⟩
  | popa => exact ⟨_, exec_popa⟩
  | mmset => exact ⟨_, exec_mmset⟩
  | mmcpy => exact ⟨_, exec_mmcpy⟩
  | addRI r1 v => exact ⟨_, exec_addRI r1 v⟩
  | addRR r1 r2 => exact ⟨_, exec_addRR r1 r2⟩
  | sub => exact ⟨_, exec_sub⟩
  | mulRI r1 v => exact ⟨_, exec_mulRI r1 v⟩
  | mulRR r1 r2 => exact ⟨_, exec_mulRR r1 r2⟩
  | div => exact ⟨_, exec_div⟩
  | mod => exact ⟨_, exec_mod⟩
  | inc r1 => exact ⟨_, exec_inc r1⟩
  | dec => exact ⟨_, exec_dec⟩
  | and => exact ⟨_, exec_and⟩
  | orRI r1 v => exact ⟨_, exec_orRI r1 v⟩
  | orRR r1 r2 => exact ⟨_, exec_orRR r1 r2⟩
  | not => exact ⟨_, exec_not⟩
  | shlRI r1 v => exact ⟨_, exec_shlRI r1 v⟩
  | shlRR r1 r2 => exact ⟨_, exec_shlRR r1 r2⟩
  | shr => exact ⟨_, exec_shr⟩
  | cmpRI r1 v => exact ⟨_, exec_cmpRI r1 v⟩
  | cmpRR r1 r2 => exact ⟨_, exec_cmpRR r1 r2⟩
  | jmp t => exact ⟨_, exec_jmp t⟩
  | je t => exact ⟨_, exec_je t⟩
  | jne t => exact ⟨_, exec_jne t⟩
  | jl t => exact ⟨_, exec_jl t⟩
  | jle => exact ⟨_, exec_jle⟩
  | jg => exact ⟨_, exec_jg⟩
  | jge => exact ⟨_, exec_jge⟩
  | call t => exact ⟨_, exec_call t⟩
  | calle t => exact ⟨_, exec_calle t⟩
  | ret => exact ⟨_, exec_ret⟩
  | iret => exact ⟨_, exec_iret⟩
  | inbII p v => exact ⟨_, exec_inbII p v⟩
  | inbIR p r2 => exact ⟨_, exec_inbIR p r2⟩
  | inbIA p a2 => exact ⟨_, exec_inbIA p a2⟩
  | inw => exact ⟨_, exec_inw⟩
  | inq => exact ⟨_, exec_inq⟩
  | outbRI r1 p => exact ⟨_, exec_outbRI r1 p⟩
  | outw => exact ⟨_, exec_outw⟩
  | outq => exact ⟨_, exec_outq⟩
  | hlt => exact ⟨_, exec_hlt⟩
  | sti => exact ⟨_, exec_sti⟩
  | cli => exact ⟨_, exec_cli⟩
  | ldidt t => exact ⟨_, exec_ldidt t⟩
  | intr => exact ⟨_, exec_intr⟩

end Sys2Proof.Machine
end

