-- ==== Sys2Proof/Laws/Phase.lean ====
section
/-! SUPPORT. A way to show that an instruction keeps a property of the state: name the updates it makes, and show that each keeps the
property. -/

namespace Sys2Proof.Machine

/-! ## Keeping a property of the state -/

/-- An operation leaves `P`: in the state it leaves, done or faulted; a fault has one of the nine kinds. -/
def Res.leaves {α : Type} (P : State → Prop) : Res α → Prop
  | .ok _ s => P s
  | .trap k _ s => P s ∧ k ≠ .none

/-- If the first operation leaves `P` and the second keeps it, the sequence leaves it. -/
theorem andThen_holds {α β : Type} (P : State → Prop) {r : Res α} {g : α → State → Res β} (h : r.leaves P)
    (hg : ∀ a t, P t → (g a t).leaves P) : (r.andThen g).leaves P := by
  cases r with
  | ok a t => exact hg a t h
  | trap k i t => exact h

/-- The bus keeps `P`: RAM writes do, and so does whatever a device's answer does to the environment, which never is to the
schedule. -/
structure BusKeeps (P : State → Prop) : Prop where
  mem : ∀ s (a : Word) v, a.toNat < s.config.memSize → P s → P (s.setMem (memSet s.mem a.toNat v))
  env : ∀ s e, e.schedule = s.env.schedule → P s → P (s.setEnv e)

theorem readByte_holds {P : State → Prop} (hP : BusKeeps P) {s : State} (a : Word) (h : P s) : (readByte s a).leaves P := by
  unfold readByte
  split
  · exact hP.env _ _ (regionAnswer_schedule _ _ _) h
  · split
    · exact h
    · exact ⟨h, by decide⟩

theorem writeByte_holds {P : State → Prop} (hP : BusKeeps P) {s : State} (a : Word) (v : Byte) (h : P s) :
    (writeByte s a v).leaves P := by
  unfold writeByte
  split
  · exact hP.env _ _ rfl h
  · split
    · rename_i ha; exact hP.mem _ _ _ ha h
    · exact ⟨h, by decide⟩

theorem readBytes_holds {P : State → Prop} (hP : BusKeeps P) (k : Nat) {s : State} (a : Word) (h : P s) :
    (readBytes k a s).leaves P := by
  induction k generalizing a s with
  | zero => exact h
  | succ k ih =>
    exact andThen_holds P (readByte_holds hP a h) fun _ _ ht => andThen_holds P (ih _ ht) fun _ _ hu => hu

theorem writeBytes_holds {P : State → Prop} (hP : BusKeeps P) (bs : List Byte) {s : State} (a : Word) (h : P s) :
    (writeBytes bs a s).leaves P := by
  induction bs generalizing a s with
  | nil => exact h
  | cons b bs ih => exact andThen_holds P (writeByte_holds hP a b h) fun _ _ ht => ih _ ht

theorem memRead_holds {P : State → Prop} (hP : BusKeeps P) {s : State} (a : Word) (n : Size) (h : P s) :
    (memRead s a n).leaves P := by
  rw [memRead_eq_readBytes]
  exact andThen_holds P (readBytes_holds hP _ _ h) fun _ _ ht => ht

theorem memWrite_holds {P : State → Prop} (hP : BusKeeps P) {s : State} (a : Word) (n : Size) (v : Word) (h : P s) :
    (memWrite s a n v).leaves P := by
  rw [memWrite_eq_writeBytes]; exact writeBytes_holds hP _ _ h

theorem move_holds {P : State → Prop} (hP : BusKeeps P) (hr : ∀ s r w, P s → P (s.writeReg r w)) (n : Size) (d : Dest) (o : Source)
    {s : State} (h : P s) : (move n d o s).leaves P := by
  have hl : (o.load n s).leaves P := by
    cases o with
    | imm v => exact h
    | reg r => exact h
    | mem x => exact memRead_holds hP _ _ h
  cases d with
  | reg r => exact andThen_holds P hl fun _ _ ht => hr _ _ _ ht
  | mem x => exact andThen_holds P hl fun _ _ ht => memWrite_holds hP _ _ _ ht

theorem push_holds {P : State → Prop} (hP : BusKeeps P) (hsp : ∀ s v, P s → P (s.setSp v)) {s : State} (n : Size) (v : Word)
    (h : P s) : (push s n v).leaves P := memWrite_holds hP _ _ _ (hsp _ _ h)

theorem pop_holds {P : State → Prop} (hP : BusKeeps P) (hsp : ∀ s v, P s → P (s.setSp v)) {s : State} (n : Size)
    (h : P s) : (pop s n).leaves P := andThen_holds P (memRead_holds hP _ _ h) fun _ _ ht => hsp _ _ ht

theorem pushAll_holds {P : State → Prop} (hP : BusKeeps P) (hsp : ∀ s v, P s → P (s.setSp v)) (l : List Saved) {s : State}
    (h : P s) : (pushAll l s).leaves P := by
  induction l generalizing s with
  | nil => exact h
  | cons x l ih => exact andThen_holds P (push_holds hP hsp _ _ h) fun _ _ ht => ih ht

theorem popAll_holds {P : State → Prop} (hP : BusKeeps P) (hsp : ∀ s v, P s → P (s.setSp v)) (l : List Saved)
    (hx : ∀ x ∈ l, ∀ v s, P s → P (x.restore v s)) {s : State} (h : P s) : (popAll l s).leaves P := by
  induction l generalizing s with
  | nil => exact h
  | cons x l ih =>
    exact andThen_holds P (pop_holds hP hsp _ h) fun _ _ ht =>
      ih (fun y hy => hx y (List.mem_cons_of_mem _ hy)) (hx x List.mem_cons_self _ _ ht)

theorem callTo_holds {P : State → Prop} (hP : BusKeeps P) (hsp : ∀ s v, P s → P (s.setSp v)) (hpc : ∀ s v, P s → P (s.setPc v))
    (t : Word) {s : State} (h : P s) : (callTo t s).leaves P :=
  andThen_holds P (push_holds hP hsp _ _ h) fun _ _ ht => hpc _ _ ht

theorem returnFromInterrupt_holds {P : State → Prop} (hP : BusKeeps P) (hsp : ∀ s v, P s → P (s.setSp v))
    (hpc : ∀ s v, P s → P (s.setPc v)) (hst : ∀ s v, P s → P (s.setStatus v)) {s : State} (h : P s) :
    (returnFromInterrupt s).leaves P :=
  andThen_holds P (pop_holds hP hsp _ h) fun _ _ ht =>
    andThen_holds P (pop_holds hP hsp _ (hst _ _ ht)) fun _ _ hu => hpc _ _ hu

theorem portDeliver_holds {P : State → Prop} (hP : BusKeeps P) (hr : ∀ s r, P s → P (s.handlerRaise r)) (w : PortWidth) (p : Byte)
    (v : Word) {s : State} (h : P s) : (portDeliver s w p v).leaves P := by
  unfold portDeliver
  split
  · exact hr _ _ (hP.env _ _ (portAnswer_schedule _ _ _) h)
  · exact ⟨h, by decide⟩

theorem portRequest_holds {P : State → Prop} (hP : BusKeeps P) (hr : ∀ s r, P s → P (s.handlerRaise r)) (w : PortWidth) (p : Byte)
    {s : State} (h : P s) : (portRequest s w p).leaves P := by
  unfold portRequest
  split
  · exact hr _ _ (hP.env _ _ (portAnswer_schedule _ _ _) h)
  · exact ⟨h, by decide⟩

theorem enterInterrupt_holds {P : State → Prop} (hP : BusKeeps P) (hsp : ∀ s v, P s → P (s.setSp v))
    (hpc : ∀ s v, P s → P (s.setPc v)) (hst : ∀ s v, P s → P (s.setStatus v)) (hc : ∀ s, P s → P s.clearPending) {s : State}
    (h : P s) : (enterInterrupt s).leaves P := by
  unfold enterInterrupt
  split
  · exact andThen_holds P (push_holds hP hsp _ _ (hst _ _ h)) fun _ _ h1 =>
      andThen_holds P (push_holds hP hsp _ _ h1) fun _ _ h2 =>
        andThen_holds P (memRead_holds hP _ _ h2) fun _ _ h3 => hc _ (hpc _ _ h3)
  · exact ⟨h, by decide⟩

/-- The updates that the execute phase of some instruction makes, beside the bus's. -/
structure PhaseKeeps (P : State → Prop) : Prop extends BusKeeps P where
  reg : ∀ s r w, P s → P (s.writeReg r w)
  gpr : ∀ s r w, P s → P (s.setGpr r w)
  special : ∀ s r w, P s → P (s.setSpecial r w)
  pc : ∀ s v, P s → P (s.setPc v)
  sp : ∀ s v, P s → P (s.setSp v)
  raise : ∀ s r, P s → P (s.handlerRaise r)

/-- A field that no bus, register, stack or handler update changes keeps its value through an execute phase. -/
theorem phaseKeeps_field {β : Type} (f : State → β) (x : β) (hmem : ∀ s m, f (s.setMem m) = f s)
    (henv : ∀ s e, f (s.setEnv e) = f s) (hreg : ∀ s r w, f (s.writeReg r w) = f s) (hgpr : ∀ s r w, f (s.setGpr r w) = f s)
    (hspecial : ∀ s r w, f (s.setSpecial r w) = f s) (hpc : ∀ s v, f (s.setPc v) = f s) (hsp : ∀ s v, f (s.setSp v) = f s)
    (hraise : ∀ s r, f (s.handlerRaise r) = f s) : PhaseKeeps fun s => f s = x where
  mem := fun _ _ _ _ h => (hmem _ _).trans h
  env := fun _ _ _ h => (henv _ _).trans h
  reg := fun _ _ _ h => (hreg _ _ _).trans h
  gpr := fun _ _ _ h => (hgpr _ _ _).trans h
  special := fun _ _ _ h => (hspecial _ _ _).trans h
  pc := fun _ _ h => (hpc _ _).trans h
  sp := fun _ _ h => (hsp _ _).trans h
  raise := fun _ _ h => (hraise _ _).trans h

/-- A meaning whose execute phase leaves `P` answers a state with `P`, or that state with the fault recorded. -/
theorem perform_keeps {P : State → Prop} {i : Instr} {body : State → Res Unit} {s t : State}
    (hb : (body (s.past i.length)).leaves P) (he : perform i body s = .next t) :
    ∃ u, P u ∧ (t = u ∨ ∃ k info, k ≠ .none ∧ t = u.raiseFault (originOf (encode s.config.encoding i) s.pc) k info) := by
  rcases perform_cases he with ⟨u, h⟩ | ⟨k, info, u, h, rfl⟩
  · rw [h] at hb; exact ⟨t, hb, .inl rfl⟩
  · rw [h] at hb; exact ⟨u, hb.1, .inr ⟨k, info, hb.2, rfl⟩⟩

/-- An instruction keeps what all its updates keep, but for a fault recorded at its end; each of the control fields is needed only for
its own writers. -/
theorem exec_keeps {P : State → Prop} (hP : PhaseKeeps P) (i : Instr)
    (hflags : (∃ r v, i = .cmpRI r v) ∨ (∃ r q, i = .cmpRR r q) ∨ i = .popa → ∀ s v, P s → P (s.setFlags v))
    (hclocks : i = .popa → ∀ s v, P s → P (s.setClocks v))
    (hstatus : i = .hlt ∨ i = .iret → ∀ s v, P s → P (s.setStatus v))
    (hie : i = .sti ∨ i = .cli → ∀ s v, P s → P (s.setIe v))
    (hidt : (∃ t, i = .ldidt t) → ∀ s v, P s → P (s.setIdt v))
    {s t : State} (h0 : P s) (he : exec i s = .next t) :
    ∃ u, P u ∧ (t = u ∨ ∃ k info, k ≠ .none ∧ t = u.raiseFault (originOf (encode s.config.encoding i) s.pc) k info) := by
  have hB := hP.toBusKeeps
  have h : P (s.past i.length) := hP.pc _ _ h0
  have jump : ∀ (c : State → Bool) (t : Word) (u : State), P u → (jumpIf c t u).leaves P := by
    intro c t u hu
    simp only [jumpIf, Res.leaves]
    split
    · exact hP.pc _ _ hu
    · exact hu
  cases i with
  | movRR =>
    simp only [exec, execMovRR] at he
    refine perform_keeps ?_ he
    exact hP.reg _ _ _ h
  | movRI | movRA | movRP | movAI | movAR | movAA | movAP | movPI | movPR | movPA | movPP =>
    simp only [exec, execMovRI, execMovRA, execMovRP, execMovAI, execMovAR, execMovAA, execMovAP, execMovPI, execMovPR, execMovPA,
      execMovPP] at he
    refine perform_keeps ?_ he
    exact move_holds hB hP.reg _ _ _ h
  | addRI | addRR | mulRI | mulRR | inc | orRI | orRR | shlRI | shlRR =>
    simp only [exec, execAddRI, execAddRR, execMulRI, execMulRR, execInc, execOrRI, execOrRR, execShlRI, execShlRR] at he
    refine perform_keeps ?_ he
    exact hP.reg _ _ _ h
  | pusha =>
    simp only [exec, execPusha] at he
    refine perform_keeps ?_ he
    exact pushAll_holds hB hP.sp _ h
  | popa =>
    simp only [exec, execPopa] at he
    refine perform_keeps (popAll_holds hB hP.sp _ (fun x _ v t ht => ?_) h) he
    cases x with
    | gpr r => exact hP.gpr _ _ _ ht
    | flags => exact hflags (.inr (.inr rfl)) _ _ ht
    | clocks => exact hclocks rfl _ _ ht
    | special r => exact hP.special _ _ _ ht
  | cmpRI r v =>
    simp only [exec, execCmpRI] at he
    refine perform_keeps ?_ he
    exact hflags (.inl ⟨r, v, rfl⟩) _ _ h
  | cmpRR r q =>
    simp only [exec, execCmpRR] at he
    refine perform_keeps ?_ he
    exact hflags (.inr (.inl ⟨r, q, rfl⟩)) _ _ h
  | jmp | je | jne | jl =>
    simp only [exec, execJmp, execJe, execJne, execJl] at he
    refine perform_keeps ?_ he
    exact jump _ _ _ h
  | call t =>
    simp only [exec, execCall] at he
    refine perform_keeps ?_ he
    exact callTo_holds hB hP.sp hP.pc _ h
  | calle t =>
    simp only [exec, execCalle] at he
    refine perform_keeps ?_ he
    split
    · exact callTo_holds hB hP.sp hP.pc _ h
    · exact h
  | ret =>
    simp only [exec, execRet] at he
    refine perform_keeps ?_ he
    exact andThen_holds P (pop_holds hB hP.sp _ h) fun _ _ ht => hP.pc _ _ ht
  | iret =>
    simp only [exec, execIret] at he
    refine perform_keeps ?_ he
    exact returnFromInterrupt_holds hB hP.sp hP.pc (hstatus (.inr rfl)) h
  | inbII | inbIR =>
    simp only [exec, execInbII, execInbIR] at he
    refine perform_keeps ?_ he
    exact portDeliver_holds hB hP.raise _ _ _ h
  | inbIA =>
    simp only [exec, execInbIA] at he
    refine perform_keeps ?_ he
    exact andThen_holds P (memRead_holds hB _ _ h) fun _ _ ht => portDeliver_holds hB hP.raise _ _ _ ht
  | outbRI =>
    simp only [exec, execOutbRI] at he
    refine perform_keeps ?_ he
    exact andThen_holds P (portRequest_holds hB hP.raise _ _ h) fun _ _ ht => hP.reg _ _ _ ht
  | sti =>
    simp only [exec, execSti] at he
    refine perform_keeps ?_ he
    exact hie (.inl rfl) _ _ h
  | cli =>
    simp only [exec, execCli] at he
    refine perform_keeps ?_ he
    exact hie (.inr rfl) _ _ h
  | ldidt t =>
    simp only [exec, execLdidt] at he
    refine perform_keeps ?_ he
    exact hidt ⟨t, rfl⟩ _ _ h
  | hlt =>
    simp only [exec, execHlt] at he
    refine perform_keeps ?_ he
    exact hstatus (.inl rfl) _ _ h
  | push | pop | mmset | mmcpy | sub | div | mod | dec | and | not | shr | jle | jg | jge
  | inw | inq | outw | outq | intr =>
    simp only [exec, execPush, execPop, execMmset, execMmcpy, execSub, execDiv, execMod, execDec, execAnd, execNot, execShr, execJle,
      execJg, execJge, execInw, execInq, execOutw, execOutq, execIntr] at he
    refine perform_keeps ?_ he
    exact ⟨h, by decide⟩

end Sys2Proof.Machine
end

