-- ==== Sys2Proof/Laws/Ticks.lean ====
section
/-! SUPPORT. What a step is made of, and how a property of the state is kept by a whole step (60_exceptions.md R174, R198). -/

namespace Sys2Proof.Machine

theorem fetchScript_holds {P : State → Prop} (hP : BusKeeps P) (sc : Script) (a0 : Word) (seen : List Byte) {s : State} (h : P s) :
    match fetchScript sc a0 seen s with
    | .instr _ t => P t
    | .fault k _ _ t => P t ∧ k ≠ .none := by
  induction sc generalizing seen s with
  | done i => exact h
  | reject e => exact ⟨h, by cases e <;> simp [rejectKind]⟩
  | fetch n k ih =>
    have hr := memRead_holds hP (a0 + BitVec.ofNat 32 seen.length) n h
    simp only [fetchScript]
    cases hm : memRead s (a0 + BitVec.ofNat 32 seen.length) n with
    | ok v t => rw [hm] at hr; exact ih v _ hr
    | trap k' info t => rw [hm] at hr; exact hr

/-- Every update that a tick makes keeps `P`. -/
structure TickKeeps (P : State → Prop) : Prop extends PhaseKeeps P where
  flags : ∀ s v, P s → P (s.setFlags v)
  clocks : ∀ s v, P s → P (s.setClocks v)
  status : ∀ s v, P s → P (s.setStatus v)
  ie : ∀ s v, P s → P (s.setIe v)
  idt : ∀ s v, P s → P (s.setIdt v)
  clear : ∀ s, P s → P s.clearPending
  fault : ∀ s o k info, k ≠ .none → P s → P (s.raiseFault o k info)
  count : ∀ s, P s → P s.countTick
  stop : ∀ s, P s → P s.stopClock

theorem exec_holds {P : State → Prop} (hP : TickKeeps P) {i : Instr} {s t : State} (h : P s) (he : exec i s = .next t) : P t := by
  obtain ⟨u, hu, rfl | ⟨k, info, hk, rfl⟩⟩ := exec_keeps hP.toPhaseKeeps i (fun _ => hP.flags) (fun _ => hP.clocks)
    (fun _ => hP.status) (fun _ => hP.ie) (fun _ => hP.idt) h he
  · exact hu
  · exact hP.fault _ _ _ _ hk hu

theorem stepInstr_holds {P : State → Prop} (hP : TickKeeps P) {s t : State} (h : P s) (he : stepInstr s = .next t) : P t := by
  unfold stepInstr at he
  split at he
  · injection he with he; rwa [← he]
  · have hf := fetchScript_holds hP.toBusKeeps (decodeScript s.config.encoding) s.pc [] h
    unfold fetchInstr at he
    cases hm : fetchScript (decodeScript s.config.encoding) s.pc [] s with
    | instr i u => rw [hm] at hf he; exact exec_holds hP hf he
    | fault k info seen u =>
      rw [hm] at hf he
      injection he with he
      rw [← he]
      exact hP.fault _ _ _ _ hf.2 (hP.pc _ _ hf.1)

theorem service_holds {P : State → Prop} (hP : TickKeeps P) {s : State} (h : P s) : P (service s) := by
  unfold service
  split
  · have he := enterInterrupt_holds hP.toBusKeeps hP.sp hP.pc hP.status hP.clear h
    cases hm : enterInterrupt s with
    | ok u t => rw [hm] at he; exact he
    | trap k info t => rw [hm] at he; exact hP.fault _ _ _ _ he.2 he.1
  · exact h

theorem shutdownCheck_holds {P : State → Prop} (hstop : ∀ s, P s → P s.stopClock) {s : State} (h : P s) : P (shutdownCheck s) := by
  unfold shutdownCheck
  split
  · exact h
  · exact hstop _ h

/-- Every instruction, and the fault of every fetch, has a next state. -/
theorem stepInstr_next (s : State) : ∃ t, stepInstr s = .next t := by
  unfold stepInstr
  split
  · exact ⟨s, rfl⟩
  · split
    · rename_i i t _
      obtain ⟨body, hb⟩ := exec_runs i
      rw [hb]
      exact perform_next _ _ _
    · exact ⟨_, rfl⟩

theorem tick_next (s : State) : ∃ t, tick s = .next t := by
  obtain ⟨t, h⟩ := stepInstr_next s.countTick
  exact ⟨_, by rw [tick, h]; rfl⟩

/-- A tick, taken apart. -/
theorem tick_eq {s t : State} (h : tick s = .next t) : ∃ u, stepInstr s.countTick = .next u ∧ t = shutdownCheck (service u) := by
  obtain ⟨u, hu⟩ := stepInstr_next s.countTick
  rw [tick, hu, finishTick] at h
  injection h with h
  exact ⟨u, hu, h.symm⟩

theorem tick_holds {P : State → Prop} (hP : TickKeeps P) {s t : State} (h : P s) (he : tick s = .next t) : P t := by
  obtain ⟨u, hu, rfl⟩ := tick_eq he
  exact shutdownCheck_holds hP.stop (service_holds hP (stepInstr_holds hP (hP.count _ h) hu))

theorem applyActions_holds {P : State → Prop} (acts : List HostAction) (ha : ∀ a ∈ acts, ∀ u, P u → P (applyAction u a)) {s : State}
    (h : P s) : P (applyActions acts s) := by
  induction acts generalizing s with
  | nil => exact h
  | cons a acts ih =>
    exact ih (fun b hb => ha b (List.mem_cons_of_mem _ hb)) (ha a List.mem_cons_self _ h)

theorem applyDue_holds {P : State → Prop} (henv : ∀ s e, P s → P (s.setEnv e)) {s : State}
    (ha : ∀ a ∈ s.env.schedule.headD [], ∀ u, P u → P (applyAction u a)) (h : P s) : P (applyDue s) := by
  unfold applyDue
  split
  · exact h
  · rename_i acts rest hs
    rw [hs] at ha
    exact applyActions_holds acts ha (henv _ _ h)

/-- What a step can be: the clock does not run and nothing more happens, or it runs and the rest is a tick. -/
theorem step_cases {s t : State} (h : step s = .next t) :
    ((applyDue s).clkStop = true ∨ (applyDue s).clkHalt = true) ∧ t = applyDue s ∨
    (applyDue s).clkStop = false ∧ (applyDue s).clkHalt = false ∧ tick (applyDue s) = .next t := by
  unfold step advance at h
  split at h
  · cases h
  · unfold clocked at h
    split at h
    · rename_i hs
      injection h with h
      exact .inl ⟨by simpa using hs, h.symm⟩
    · rename_i hs
      rw [Bool.not_eq_true, Bool.or_eq_false_iff] at hs
      exact .inr ⟨hs.1, hs.2, h⟩

/-- When a step has no next state: the clock is stopped and no outside agent has an action left (60_exceptions.md R177, R199). -/
theorem step_stopped {s : State} (h : s.clkStop = true) (hs : s.env.schedule = []) : step s = .fault .clockStopped := by
  simp [step, advance, h, hs]

/-- A step goes on while the clock is not stopped or an outside agent has an action left. -/
theorem step_clocked {s : State} (h : s.clkStop = false ∨ s.env.schedule ≠ []) : step s = clocked (applyDue s) := by
  unfold step advance
  rw [if_neg]
  simp only [Bool.and_eq_true, List.isEmpty_iff, not_and]
  intro h1 h2
  rcases h with h | h
  · rw [h] at h1; cases h1
  · exact h h2

/-- A step keeps what a tick's updates keep, where the outside actions that are due keep it. -/
theorem step_holds {P : State → Prop} (hP : TickKeeps P) (henv : ∀ s e, P s → P (s.setEnv e)) {s t : State}
    (ha : ∀ a ∈ s.env.schedule.headD [], ∀ u, P u → P (applyAction u a)) (h : P s) (he : step s = .next t) : P t := by
  have hd : P (applyDue s) := applyDue_holds henv ha h
  rcases step_cases he with ⟨-, rfl⟩ | ⟨-, -, ht⟩
  · exact hd
  · exact tick_holds hP hd ht

/-- A step of a machine that is ready: nothing is due, the clock runs. -/
theorem step_ready {s : State} (h : s.ready = true) : step s = tick s := by
  simp only [State.ready, Bool.and_eq_true, Bool.not_eq_true', List.isEmpty_iff] at h
  rw [step_clocked (.inl h.1.1.2)]
  simp only [applyDue, clocked, h.1.1.1, h.1.1.2, h.1.2]
  rfl

theorem halted_of_ready {s : State} (h : s.ready = true) : s.halted = false := by
  simp only [State.ready, Bool.and_eq_true, Bool.not_eq_true'] at h
  exact h.2

/-- The service does nothing where no interrupt is due. -/
theorem service_idle {s : State} (h : (s.ipend && s.ie) = false) : service s = s := by
  simp [service, h]

end Sys2Proof.Machine
end

