-- ==== Sys2Proof/Laws/Interrupts.lean ====
section
/-! SUPPORT. Two qwords on the stack, and interrupt entry over a stack and a table in RAM (60_exceptions.md R183, R184). -/

namespace Sys2Proof.Machine

/-- A qword push into RAM, at an address already worked out. -/
theorem push_qword_ram {s : State} {a : Word} (v : Word) (ha : s.sp - 4#32 = a) (h : s.ramRange a 4 = true) :
    push s .qword v = .ok () ((s.setSp a).setMem (storeBytes (leBytes .qword v) a s.mem)) := by
  subst ha
  exact push_ram (n := .qword) v h

/-- Memory after two qword pushes: `x` at `a`, `y` above it, everything else as before. -/
theorem two_qwords {m : Memory} {a x y : Word} {u : State} (hm : Memory.wf m = true)
    (hu : u.mem = storeBytes (leBytes .qword x) a (storeBytes (leBytes .qword y) (a + 4) m)) :
    u.ramValue a .qword = x ∧ u.ramValue (a + 4) .qword = y ∧ ∀ b, b ∉ addrsFrom a 8 → u.ramByte b = memGet m b.toNat := by
  have e : addrsFrom a 8 = addrsFrom a 4 ++ addrsFrom (a + 4) 4 := addrsFrom_add a 4 4
  refine ⟨?_, ?_, ?_⟩
  · refine Eq.trans ?_ (ramValue_storeBytes (u.setMem (storeBytes (leBytes .qword y) (a + 4) m)) a .qword x (storeBytes_wf _ _ _ hm))
    refine ramValue_of_bytes fun b _ => ?_
    rw [State.ramByte, hu]
    rfl
  · refine Eq.trans ?_ (ramValue_storeBytes (u.setMem m) (a + 4) .qword y hm)
    refine ramValue_of_bytes fun b hb => ?_
    rw [State.ramByte, hu, storeBytes_other]
    · rfl
    · rw [leBytes_length]
      exact fun h => addrsFrom_apart (m := 4) (n := 4) h hb (by decide) rfl
  · intro b hb
    rw [e, List.mem_append, not_or] at hb
    rw [State.ramByte, hu, storeBytes_other _ _ _ _ (by rw [leBytes_length]; exact hb.1),
      storeBytes_other _ _ _ _ (by rw [leBytes_length]; exact hb.2)]

/-- Memory after interrupt entry: the status word at the new `SP`, the old `PC` above it. -/
def State.entryMem (s : State) : Memory :=
  storeBytes (leBytes .qword s.wakeStatus) (s.sp - 8) (storeBytes (leBytes .qword s.pc) (s.sp - 8 + 4) s.mem)

/-- Interrupt entry over a stack and a table in RAM, whole. -/
theorem enterInterrupt_ram {s : State} (ht : s.idtSet = true) (hs : s.ramRange (s.sp - 8) 8 = true)
    (hd : s.ramRange (s.descriptorAddr s.iline) 4 = true) :
    enterInterrupt s = .ok () { s with
      status := s.wakeStatus
      sp := s.sp - 8
      mem := s.entryMem
      pc := (s.setMem s.entryMem).ramValue (s.descriptorAddr s.iline) .qword
      ipend := false } := by
  have h8 : (s.ramRange (s.sp - 8) 4 && s.ramRange (s.sp - 8 + 4) 4) = true := (ramRange_add s (s.sp - 8) 4 4).symm.trans hs
  rw [Bool.and_eq_true] at h8
  have e1 : s.sp - 4#32 = s.sp - 8 + 4 := by bv_omega
  have e2 : s.sp - 8 + 4 - 4#32 = s.sp - 8 := by bv_omega
  have p1 : push (s.setStatus s.wakeStatus) .qword s.pc = .ok () { s with
      status := s.wakeStatus
      sp := s.sp - 8 + 4
      mem := storeBytes (leBytes .qword s.pc) (s.sp - 8 + 4) s.mem } := by
    rw [push_qword_ram (s := s.setStatus s.wakeStatus) s.pc e1 h8.2]
    rfl
  have p2 : push { s with
      status := s.wakeStatus
      sp := s.sp - 8 + 4
      mem := storeBytes (leBytes .qword s.pc) (s.sp - 8 + 4) s.mem } .qword s.wakeStatus = .ok () { s with
      status := s.wakeStatus
      sp := s.sp - 8
      mem := s.entryMem } := by
    refine (push_qword_ram (a := s.sp - 8) s.wakeStatus ?_ ?_).trans ?_
    · exact e2
    · exact h8.1
    · simp only [State.setMem, State.setSp, State.entryMem]
  have p3 : memRead { s with
      status := s.wakeStatus
      sp := s.sp - 8
      mem := s.entryMem } (s.descriptorAddr s.iline) .qword = _ := memRead_ram (n := .qword) hd
  unfold enterInterrupt
  rw [if_pos ht, p1, ok_andThen, p2, ok_andThen]
  exact (congrArg (fun r => r.andThen fun v s3 => Res.ok () (s3.setPc v).clearPending) p3).trans rfl

/-- The service of an interrupt whose entry is done. -/
theorem service_of_entry {s t : State} (hp : s.ipend = true) (hi : s.ie = true) (h : enterInterrupt s = .ok () t) :
    service s = t := by
  simp [service, hp, hi, h]

end Sys2Proof.Machine
end

