-- ==== Sys2Proof/Laws/PerInstr.lean ====
section
/-! SUPPORT. The length of every instruction (30_encoding.md R69, R77), and the per-instruction family `EncodedLength`. -/

namespace Sys2Proof

theorem size_bytes_pos (n : Size) : 1 ≤ n.bytes := by cases n <;> decide

theorem size_bytes_le (n : Size) : n.bytes ≤ 4 := by cases n <;> decide

@[simp] theorem length_movRI (n : Size) (r1 : Reg) (v : Word) : (Instr.movRI n r1 v).length = 4 + n.bytes := by
  cases n <;> rfl

@[simp] theorem length_movRR (r1 r2 : Reg) : (Instr.movRR r1 r2).length = 4 := rfl

@[simp] theorem length_movRA (n : Size) (r1 : Reg) (a2 : Word) : (Instr.movRA n r1 a2).length = 8 := rfl

@[simp] theorem length_movRP (n : Size) (r1 r2 : Reg) : (Instr.movRP n r1 r2).length = 5 := rfl

@[simp] theorem length_movAI (n : Size) (a1 v : Word) : (Instr.movAI n a1 v).length = 7 + n.bytes := by
  cases n <;> rfl

@[simp] theorem length_movAR (n : Size) (a1 : Word) (r2 : Reg) : (Instr.movAR n a1 r2).length = 8 := rfl

@[simp] theorem length_movAA (n : Size) (a1 a2 : Word) : (Instr.movAA n a1 a2).length = 11 := rfl

@[simp] theorem length_movAP (n : Size) (a1 : Word) (r2 : Reg) : (Instr.movAP n a1 r2).length = 8 := rfl

@[simp] theorem length_movPI (n : Size) (r1 : Reg) (v : Word) : (Instr.movPI n r1 v).length = 4 + n.bytes := by
  cases n <;> rfl

@[simp] theorem length_movPR (n : Size) (r1 r2 : Reg) : (Instr.movPR n r1 r2).length = 5 := rfl

@[simp] theorem length_movPA (n : Size) (r1 : Reg) (a2 : Word) : (Instr.movPA n r1 a2).length = 8 := rfl

@[simp] theorem length_movPP (n : Size) (r1 r2 : Reg) : (Instr.movPP n r1 r2).length = 5 := rfl

@[simp] theorem length_push : Instr.push.length = 1 := rfl

@[simp] theorem length_pop : Instr.pop.length = 1 := rfl

@[simp] theorem length_pusha : Instr.pusha.length = 1 := rfl

@[simp] theorem length_popa : Instr.popa.length = 1 := rfl

@[simp] theorem length_mmset : Instr.mmset.length = 1 := rfl

@[simp] theorem length_mmcpy : Instr.mmcpy.length = 1 := rfl

@[simp] theorem length_addRI (r1 : Reg) (v : Word) : (Instr.addRI r1 v).length = 7 := rfl

@[simp] theorem length_addRR (r1 r2 : Reg) : (Instr.addRR r1 r2).length = 4 := rfl

@[simp] theorem length_sub : Instr.sub.length = 1 := rfl

@[simp] theorem length_mulRI (r1 : Reg) (v : Word) : (Instr.mulRI r1 v).length = 7 := rfl

@[simp] theorem length_mulRR (r1 r2 : Reg) : (Instr.mulRR r1 r2).length = 4 := rfl

@[simp] theorem length_div : Instr.div.length = 1 := rfl

@[simp] theorem length_mod : Instr.mod.length = 1 := rfl

@[simp] theorem length_inc (r1 : Reg) : (Instr.inc r1).length = 3 := rfl

@[simp] theorem length_dec : Instr.dec.length = 1 := rfl

@[simp] theorem length_and : Instr.and.length = 1 := rfl

@[simp] theorem length_orRI (r1 : Reg) (v : Word) : (Instr.orRI r1 v).length = 7 := rfl

@[simp] theorem length_orRR (r1 r2 : Reg) : (Instr.orRR r1 r2).length = 4 := rfl

@[simp] theorem length_not : Instr.not.length = 1 := rfl

@[simp] theorem length_shlRI (r1 : Reg) (v : Word) : (Instr.shlRI r1 v).length = 7 := rfl

@[simp] theorem length_shlRR (r1 r2 : Reg) : (Instr.shlRR r1 r2).length = 4 := rfl

@[simp] theorem length_shr : Instr.shr.length = 1 := rfl

@[simp] theorem length_cmpRI (r1 : Reg) (v : Word) : (Instr.cmpRI r1 v).length = 7 := rfl

@[simp] theorem length_cmpRR (r1 r2 : Reg) : (Instr.cmpRR r1 r2).length = 4 := rfl

@[simp] theorem length_jmp (t : Word) : (Instr.jmp t).length = 6 := rfl

@[simp] theorem length_je (t : Word) : (Instr.je t).length = 6 := rfl

@[simp] theorem length_jne (t : Word) : (Instr.jne t).length = 6 := rfl

@[simp] theorem length_jl (t : Word) : (Instr.jl t).length = 6 := rfl

@[simp] theorem length_jle : Instr.jle.length = 1 := rfl

@[simp] theorem length_jg : Instr.jg.length = 1 := rfl

@[simp] theorem length_jge : Instr.jge.length = 1 := rfl

@[simp] theorem length_call (t : Word) : (Instr.call t).length = 6 := rfl

@[simp] theorem length_calle (t : Word) : (Instr.calle t).length = 6 := rfl

@[simp] theorem length_ret : Instr.ret.length = 1 := rfl

@[simp] theorem length_iret : Instr.iret.length = 1 := rfl

@[simp] theorem length_inbII (p v : Byte) : (Instr.inbII p v).length = 4 := rfl

@[simp] theorem length_inbIR (p : Byte) (r2 : Reg) : (Instr.inbIR p r2).length = 4 := rfl

@[simp] theorem length_inbIA (p : Byte) (a2 : Word) : (Instr.inbIA p a2).length = 7 := rfl

@[simp] theorem length_inw : Instr.inw.length = 1 := rfl

@[simp] theorem length_inq : Instr.inq.length = 1 := rfl

@[simp] theorem length_outbRI (r1 : Reg) (p : Byte) : (Instr.outbRI r1 p).length = 4 := rfl

@[simp] theorem length_outw : Instr.outw.length = 1 := rfl

@[simp] theorem length_outq : Instr.outq.length = 1 := rfl

@[simp] theorem length_hlt : Instr.hlt.length = 1 := rfl

@[simp] theorem length_sti : Instr.sti.length = 1 := rfl

@[simp] theorem length_cli : Instr.cli.length = 1 := rfl

@[simp] theorem length_ldidt (t : Word) : (Instr.ldidt t).length = 6 := rfl

@[simp] theorem length_intr : Instr.intr.length = 1 := rfl

end Sys2Proof

namespace Sys2Proof.Laws

/-- An instruction is a sequence of 1 to 11 bytes, and its encoding has as many, whatever the tables (30_encoding.md R60, R69). -/
def EncodedLength.Statement (i : Instr) : Prop := 1 ≤ i.length ∧ i.length ≤ 11 ∧ ∀ e, (encode e i).length = i.length

theorem EncodedLength.movRI (n : Size) (r1 : Reg) (v : Word) : EncodedLength.Statement (.movRI n r1 v) := by
  have h := size_bytes_le n
  refine ⟨?_, ?_, fun _ => by cases n <;> rfl⟩ <;> rw [length_movRI] <;> omega

theorem EncodedLength.movRR (r1 r2 : Reg) : EncodedLength.Statement (.movRR r1 r2) := ⟨by simp, by simp, fun _ => rfl⟩

theorem EncodedLength.movRA (n : Size) (r1 : Reg) (a2 : Word) : EncodedLength.Statement (.movRA n r1 a2) := ⟨by simp, by simp, fun _ => rfl⟩

theorem EncodedLength.movRP (n : Size) (r1 r2 : Reg) : EncodedLength.Statement (.movRP n r1 r2) := ⟨by simp, by simp, fun _ => rfl⟩

theorem EncodedLength.movAI (n : Size) (a1 v : Word) : EncodedLength.Statement (.movAI n a1 v) := by
  have h := size_bytes_le n
  refine ⟨?_, ?_, fun _ => by cases n <;> rfl⟩ <;> rw [length_movAI] <;> omega

theorem EncodedLength.movAR (n : Size) (a1 : Word) (r2 : Reg) : EncodedLength.Statement (.movAR n a1 r2) := ⟨by simp, by simp, fun _ => rfl⟩

theorem EncodedLength.movAA (n : Size) (a1 a2 : Word) : EncodedLength.Statement (.movAA n a1 a2) := ⟨by simp, by simp, fun _ => rfl⟩

theorem EncodedLength.movAP (n : Size) (a1 : Word) (r2 : Reg) : EncodedLength.Statement (.movAP n a1 r2) := ⟨by simp, by simp, fun _ => rfl⟩

theorem EncodedLength.movPI (n : Size) (r1 : Reg) (v : Word) : EncodedLength.Statement (.movPI n r1 v) := by
  have h := size_bytes_le n
  refine ⟨?_, ?_, fun _ => by cases n <;> rfl⟩ <;> rw [length_movPI] <;> omega

theorem EncodedLength.movPR (n : Size) (r1 r2 : Reg) : EncodedLength.Statement (.movPR n r1 r2) := ⟨by simp, by simp, fun _ => rfl⟩

theorem EncodedLength.movPA (n : Size) (r1 : Reg) (a2 : Word) : EncodedLength.Statement (.movPA n r1 a2) := ⟨by simp, by simp, fun _ => rfl⟩

theorem EncodedLength.movPP (n : Size) (r1 r2 : Reg) : EncodedLength.Statement (.movPP n r1 r2) := ⟨by simp, by simp, fun _ => rfl⟩

theorem EncodedLength.push : EncodedLength.Statement .push := ⟨by decide, by decide, fun _ => rfl⟩

theorem EncodedLength.pop : EncodedLength.Statement .pop := ⟨by decide, by decide, fun _ => rfl⟩

theorem EncodedLength.pusha : EncodedLength.Statement .pusha := ⟨by decide, by decide, fun _ => rfl⟩

theorem EncodedLength.popa : EncodedLength.Statement .popa := ⟨by decide, by decide, fun _ => rfl⟩

theorem EncodedLength.mmset : EncodedLength.Statement .mmset := ⟨by decide, by decide, fun _ => rfl⟩

theorem EncodedLength.mmcpy : EncodedLength.Statement .mmcpy := ⟨by decide, by decide, fun _ => rfl⟩

theorem EncodedLength.addRI (r1 : Reg) (v : Word) : EncodedLength.Statement (.addRI r1 v) := ⟨by simp, by simp, fun _ => rfl⟩

theorem EncodedLength.addRR (r1 r2 : Reg) : EncodedLength.Statement (.addRR r1 r2) := ⟨by simp, by simp, fun _ => rfl⟩

theorem EncodedLength.sub : EncodedLength.Statement .sub := ⟨by decide, by decide, fun _ => rfl⟩

theorem EncodedLength.mulRI (r1 : Reg) (v : Word) : EncodedLength.Statement (.mulRI r1 v) := ⟨by simp, by simp, fun _ => rfl⟩

theorem EncodedLength.mulRR (r1 r2 : Reg) : EncodedLength.Statement (.mulRR r1 r2) := ⟨by simp, by simp, fun _ => rfl⟩

theorem EncodedLength.div : EncodedLength.Statement .div := ⟨by decide, by decide, fun _ => rfl⟩

theorem EncodedLength.mod : EncodedLength.Statement .mod := ⟨by decide, by decide, fun _ => rfl⟩

theorem EncodedLength.inc (r1 : Reg) : EncodedLength.Statement (.inc r1) := ⟨by simp, by simp, fun _ => rfl⟩

theorem EncodedLength.dec : EncodedLength.Statement .dec := ⟨by decide, by decide, fun _ => rfl⟩

theorem EncodedLength.and : EncodedLength.Statement .and := ⟨by decide, by decide, fun _ => rfl⟩

theorem EncodedLength.orRI (r1 : Reg) (v : Word) : EncodedLength.Statement (.orRI r1 v) := ⟨by simp, by simp, fun _ => rfl⟩

theorem EncodedLength.orRR (r1 r2 : Reg) : EncodedLength.Statement (.orRR r1 r2) := ⟨by simp, by simp, fun _ => rfl⟩

theorem EncodedLength.not : EncodedLength.Statement .not := ⟨by decide, by decide, fun _ => rfl⟩

theorem EncodedLength.shlRI (r1 : Reg) (v : Word) : EncodedLength.Statement (.shlRI r1 v) := ⟨by simp, by simp, fun _ => rfl⟩

theorem EncodedLength.shlRR (r1 r2 : Reg) : EncodedLength.Statement (.shlRR r1 r2) := ⟨by simp, by simp, fun _ => rfl⟩

theorem EncodedLength.shr : EncodedLength.Statement .shr := ⟨by decide, by decide, fun _ => rfl⟩

theorem EncodedLength.cmpRI (r1 : Reg) (v : Word) : EncodedLength.Statement (.cmpRI r1 v) := ⟨by simp, by simp, fun _ => rfl⟩

theorem EncodedLength.cmpRR (r1 r2 : Reg) : EncodedLength.Statement (.cmpRR r1 r2) := ⟨by simp, by simp, fun _ => rfl⟩

theorem EncodedLength.jmp (t : Word) : EncodedLength.Statement (.jmp t) := ⟨by simp, by simp, fun _ => rfl⟩

theorem EncodedLength.je (t : Word) : EncodedLength.Statement (.je t) := ⟨by simp, by simp, fun _ => rfl⟩

theorem EncodedLength.jne (t : Word) : EncodedLength.Statement (.jne t) := ⟨by simp, by simp, fun _ => rfl⟩

theorem EncodedLength.jl (t : Word) : EncodedLength.Statement (.jl t) := ⟨by simp, by simp, fun _ => rfl⟩

theorem EncodedLength.jle : EncodedLength.Statement .jle := ⟨by decide, by decide, fun _ => rfl⟩

theorem EncodedLength.jg : EncodedLength.Statement .jg := ⟨by decide, by decide, fun _ => rfl⟩

theorem EncodedLength.jge : EncodedLength.Statement .jge := ⟨by decide, by decide, fun _ => rfl⟩

theorem EncodedLength.call (t : Word) : EncodedLength.Statement (.call t) := ⟨by simp, by simp, fun _ => rfl⟩

theorem EncodedLength.calle (t : Word) : EncodedLength.Statement (.calle t) := ⟨by simp, by simp, fun _ => rfl⟩

theorem EncodedLength.ret : EncodedLength.Statement .ret := ⟨by decide, by decide, fun _ => rfl⟩

theorem EncodedLength.iret : EncodedLength.Statement .iret := ⟨by decide, by decide, fun _ => rfl⟩

theorem EncodedLength.inbII (p v : Byte) : EncodedLength.Statement (.inbII p v) := ⟨by simp, by simp, fun _ => rfl⟩

theorem EncodedLength.inbIR (p : Byte) (r2 : Reg) : EncodedLength.Statement (.inbIR p r2) := ⟨by simp, by simp, fun _ => rfl⟩

theorem EncodedLength.inbIA (p : Byte) (a2 : Word) : EncodedLength.Statement (.inbIA p a2) := ⟨by simp, by simp, fun _ => rfl⟩

theorem EncodedLength.inw : EncodedLength.Statement .inw := ⟨by decide, by decide, fun _ => rfl⟩

theorem EncodedLength.inq : EncodedLength.Statement .inq := ⟨by decide, by decide, fun _ => rfl⟩

theorem EncodedLength.outbRI (r1 : Reg) (p : Byte) : EncodedLength.Statement (.outbRI r1 p) := ⟨by simp, by simp, fun _ => rfl⟩

theorem EncodedLength.outw : EncodedLength.Statement .outw := ⟨by decide, by decide, fun _ => rfl⟩

theorem EncodedLength.outq : EncodedLength.Statement .outq := ⟨by decide, by decide, fun _ => rfl⟩

theorem EncodedLength.hlt : EncodedLength.Statement .hlt := ⟨by decide, by decide, fun _ => rfl⟩

theorem EncodedLength.sti : EncodedLength.Statement .sti := ⟨by decide, by decide, fun _ => rfl⟩

theorem EncodedLength.cli : EncodedLength.Statement .cli := ⟨by decide, by decide, fun _ => rfl⟩

theorem EncodedLength.ldidt (t : Word) : EncodedLength.Statement (.ldidt t) := ⟨by simp, by simp, fun _ => rfl⟩

theorem EncodedLength.intr : EncodedLength.Statement .intr := ⟨by decide, by decide, fun _ => rfl⟩

end Sys2Proof.Laws
end

