-- ==== Sys2Proof/Laws/Tables.lean ====
section
/-! SUPPORT. The tables of a well-formed encoding and their inverses agree (00_scope.md R6; 30_encoding.md R63, R66, R72; 10_state.md R16). -/

namespace Sys2Proof

/-- A name's number, in a table that has the name. -/
theorem codeOf_row {α : Type} [DecidableEq α] {w : Nat} {t : List (α × BitVec w)} {x : α} (h : x ∈ t.map Prod.fst) :
    (x, codeOf t x) ∈ t := by
  induction t with
  | nil => simp at h
  | cons p rest ih =>
    obtain ⟨y, v⟩ := p
    by_cases e : x = y
    · simp [codeOf, e]
    · simp only [List.map_cons, List.mem_cons, e, false_or] at h
      simp only [codeOf, e, if_false]
      exact List.mem_cons_of_mem _ (ih h)

/-- A number's name is that of a row. -/
theorem nameOf_row {α : Type} {w : Nat} {t : List (α × BitVec w)} {b : BitVec w} {x : α} (h : nameOf? t b = some x) : (x, b) ∈ t := by
  induction t with
  | nil => simp [nameOf?] at h
  | cons p rest ih =>
    obtain ⟨y, v⟩ := p
    by_cases e : b = v
    · simp only [nameOf?, e, if_true, Option.some.injEq] at h
      simp [h, e]
    · simp only [nameOf?, e, if_false] at h
      exact List.mem_cons_of_mem _ (ih h)

/-- In a table with no name twice, the number of a name is the number of its row. -/
theorem codeOf_of_row {α : Type} [DecidableEq α] {w : Nat} {t : List (α × BitVec w)} (hn : (t.map Prod.fst).Nodup) {x : α} {b : BitVec w}
    (h : (x, b) ∈ t) : codeOf t x = b := by
  induction t with
  | nil => simp at h
  | cons p rest ih =>
    obtain ⟨y, v⟩ := p
    simp only [List.map_cons, List.nodup_cons] at hn
    rcases List.mem_cons.1 h with h | h
    · injection h with h1 h2
      simp [codeOf, h1, h2]
    · have hne : x ≠ y := fun e => hn.1 (e ▸ List.mem_map_of_mem (f := Prod.fst) h)
      simp only [codeOf, hne, if_false]
      exact ih hn.2 h

/-- A name's number is a number of the table. -/
theorem codeOf_mem {α : Type} [DecidableEq α] {w : Nat} {t : List (α × BitVec w)} {x : α} (h : x ∈ t.map Prod.fst) :
    codeOf t x ∈ t.map Prod.snd := List.mem_map_of_mem (f := Prod.snd) (codeOf_row h)

/-- Where no number stands twice, the name of a name's number is that name. -/
theorem nameOf_codeOf {α : Type} [DecidableEq α] {w : Nat} {t : List (α × BitVec w)} (hv : (t.map Prod.snd).Nodup) {x : α}
    (h : x ∈ t.map Prod.fst) : nameOf? t (codeOf t x) = some x := by
  induction t with
  | nil => simp at h
  | cons p rest ih =>
    obtain ⟨y, v⟩ := p
    by_cases e : x = y
    · simp [codeOf, nameOf?, e]
    · simp only [List.map_cons, List.mem_cons, e, false_or, List.nodup_cons] at h hv
      have hne : codeOf rest x ≠ v := fun hc => hv.1 (hc ▸ codeOf_mem h)
      simp only [codeOf, e, if_false, nameOf?, hne]
      exact ih hv.2 h

/-- Where no name stands twice, the number of a number's name is that number. -/
theorem codeOf_of_nameOf {α : Type} [DecidableEq α] {w : Nat} {t : List (α × BitVec w)} (hn : (t.map Prod.fst).Nodup) {b : BitVec w}
    {x : α} (h : nameOf? t b = some x) : codeOf t x = b := codeOf_of_row hn (nameOf_row h)

/-- What a table says, in both directions, is its rows: each name of it has the one number of its row, and where no number stands twice
each number the one name of its row. -/
theorem table_rows {α : Type} [DecidableEq α] {w : Nat} {t : List (α × BitVec w)} (hn : (t.map Prod.fst).Nodup)
    (hv : (t.map Prod.snd).Nodup) {x : α} (hx : x ∈ t.map Prod.fst) (b : BitVec w) :
    (codeOf t x = b ↔ (x, b) ∈ t) ∧ (nameOf? t b = some x ↔ (x, b) ∈ t) :=
  ⟨⟨fun h => h ▸ codeOf_row hx, codeOf_of_row hn⟩,
   ⟨nameOf_row, fun h => codeOf_of_row hn h ▸ nameOf_codeOf hv hx⟩⟩

theorem tableWf_iff {α : Type} [DecidableEq α] {w : Nat} {names : List α} {t : List (α × BitVec w)} :
    tableWf names t = true ↔ t.map Prod.fst = names ∧ (t.map Prod.snd).Nodup := by
  simp [tableWf]

theorem opcode_all (o : Opcode) : o ∈ Opcode.all := by cases o <;> decide

theorem mode_all (m : Mode) : m ∈ Mode.all := by
  cases m with
  | pair k1 k2 => cases k1 <;> cases k2 <;> decide
  | single k1 => cases k1 <;> decide

theorem size_all (n : Size) : n ∈ Size.all := by cases n <;> decide

theorem reg_all (r : Reg) : r ∈ Reg.all := by
  cases r with
  | view g v =>
    refine List.mem_append_left _ (List.mem_flatMap.2 ⟨g, by cases g <;> decide, List.mem_map.2 ⟨v, by cases v <;> decide, rfl⟩⟩)
  | special q => exact List.mem_append_right _ (List.mem_map.2 ⟨q, by cases q <;> decide, rfl⟩)

theorem opcode_all_nodup : Opcode.all.Nodup := by decide

theorem mode_all_nodup : Mode.all.Nodup := by decide

theorem size_all_nodup : Size.all.Nodup := by decide

theorem reg_all_nodup : Reg.all.Nodup := by decide

variable {e : Encoding}

/-- What a well-formed encoding says of its tables. -/
theorem encoding_wf (h : e.wf = true) :
    tableWf Opcode.all e.opcodes = true ∧ tableWf Mode.all e.modes = true ∧ tableWf Reg.all e.regs = true ∧
      tableWf Size.all e.sizes = true ∧ tableWf FaultKind.all e.faults = true ∧ e.flags.wf = true ∧ e.status.wf = true := by
  simp only [Encoding.wf, Bool.and_eq_true] at h
  tauto

theorem opcode_of_code (h : e.wf = true) (o : Opcode) : e.opcode? (e.opcode o) = some o := by
  obtain ⟨h1, h2⟩ := tableWf_iff.1 (encoding_wf h).1
  exact nameOf_codeOf h2 (h1 ▸ opcode_all o)

theorem code_of_opcode (h : e.wf = true) {b : Byte} {o : Opcode} (ho : e.opcode? b = some o) : e.opcode o = b := by
  obtain ⟨h1, -⟩ := tableWf_iff.1 (encoding_wf h).1
  exact codeOf_of_nameOf (h1 ▸ opcode_all_nodup) ho

theorem mode_of_code (h : e.wf = true) (m : Mode) : e.mode? (e.mode m) = some m := by
  obtain ⟨h1, h2⟩ := tableWf_iff.1 (encoding_wf h).2.1
  exact nameOf_codeOf h2 (h1 ▸ mode_all m)

theorem code_of_mode (h : e.wf = true) {b : Byte} {m : Mode} (hm : e.mode? b = some m) : e.mode m = b := by
  obtain ⟨h1, -⟩ := tableWf_iff.1 (encoding_wf h).2.1
  exact codeOf_of_nameOf (h1 ▸ mode_all_nodup) hm

theorem reg_of_code (h : e.wf = true) (r : Reg) : e.reg? (e.reg r) = some r := by
  obtain ⟨h1, h2⟩ := tableWf_iff.1 (encoding_wf h).2.2.1
  exact nameOf_codeOf h2 (h1 ▸ reg_all r)

theorem code_of_reg (h : e.wf = true) {b : Byte} {r : Reg} (hr : e.reg? b = some r) : e.reg r = b := by
  obtain ⟨h1, -⟩ := tableWf_iff.1 (encoding_wf h).2.2.1
  exact codeOf_of_nameOf (h1 ▸ reg_all_nodup) hr

theorem size_of_code (h : e.wf = true) (n : Size) : e.size? (e.size n) = some n := by
  obtain ⟨h1, h2⟩ := tableWf_iff.1 (encoding_wf h).2.2.2.1
  exact nameOf_codeOf h2 (h1 ▸ size_all n)

theorem code_of_size (h : e.wf = true) {b : Byte} {n : Size} (hn : e.size? b = some n) : e.size n = b := by
  obtain ⟨h1, -⟩ := tableWf_iff.1 (encoding_wf h).2.2.2.1
  exact codeOf_of_nameOf (h1 ▸ size_all_nodup) hn

end Sys2Proof
end

