-- ==== Sys2Proof/Laws/Transfer.lean ====
section
/-! SUPPORT. The parts of a sized MOV: effective addresses, the source read, the destination write (30_encoding.md R68; 40_mov.md R90). -/

namespace Sys2Proof.Machine

/-- What a device's answer does to the environment changes no effective address. -/
theorem ea_setEnv (x : Address) (s : State) (e : Env) : x.ea (s.setEnv e) = x.ea s := by
  cases x with
  | abs a => rfl
  | ind r => exact readReg_congr rfl (fun q => by cases q <;> rfl) r

/-- The bytes of memory a source reads. -/
def Source.reads (o : Source) (n : Size) (s : State) : List Word :=
  match o with
  | .imm _ | .reg _ => []
  | .mem x => addrsFrom (x.ea s) n.bytes

/-- The bytes of memory a destination writes. -/
def Dest.writes (d : Dest) (n : Size) (s : State) : List Word :=
  match d with
  | .reg _ => []
  | .mem x => addrsFrom (x.ea s) n.bytes

/-- The value of a source whose bytes are all served: the literal, the register or the bus's bytes, cut to the size. -/
def Source.fetched (o : Source) (n : Size) (s : State) : Word :=
  match o with
  | .imm v => n.cut v
  | .reg r => n.cut (s.readReg r)
  | .mem x => leValue n (s.busBytes (addrsFrom (x.ea s) n.bytes) s.env)

/-- A source whose bytes are all served is read; the regions that claim them see the reads, and only the environment changes. -/
theorem load_mapped {o : Source} {n : Size} {s : State} (h : (o.reads n s).all s.mapped = true) :
    ∃ e, o.load n s = .ok (o.fetched n s) (s.setEnv e) ∧ e.schedule = s.env.schedule ∧
      e.log = s.env.log ++ s.readEvents (o.reads n s) := by
  cases o with
  | imm v => exact ⟨s.env, rfl, rfl, by simp [Source.reads, State.readEvents]⟩
  | reg r => exact ⟨s.env, rfl, rfl, by simp [Source.reads, State.readEvents]⟩
  | mem x => exact memRead_mapped (s := s) (a := x.ea s) (n := n) h

/-- A source in RAM. -/
theorem load_ram {x : Address} {n : Size} {s : State} (h : s.ramRange (x.ea s) n.bytes = true) :
    (Source.mem x).load n s = .ok (s.ramValue (x.ea s) n) s := memRead_ram h

/-- The first address of a range that nothing serves, given as an element of the range. -/
theorem firstUnmapped_of_getElem {s : State} {a b : Word} {n j : Nat} (h : (addrsFrom a n)[j]? = some b)
    (ht : ((addrsFrom a n).take j).all s.mapped = true) (hb : s.mapped b = false) :
    s.firstUnmapped a n j = true ∧ b = a + BitVec.ofNat 32 j ∧ (addrsFrom a n).take j = addrsFrom a j := by
  have hj : j < n := by simpa [addrsFrom] using (List.getElem?_eq_some_iff.1 h).1
  have e : b = a + BitVec.ofNat 32 j := by
    obtain ⟨_, h⟩ := List.getElem?_eq_some_iff.1 h
    simpa [addrsFrom] using h.symm
  have et : (addrsFrom a n).take j = addrsFrom a j := by
    simp [addrsFrom, ← List.map_take, List.take_range, Nat.min_eq_left hj.le]
  subst e
  exact ⟨firstUnmapped_iff.2 ⟨hj, by rw [et] at ht; exact ht, hb⟩, rfl, et⟩

/-- A move into a register: the source, then the register. -/
theorem move_reg (n : Size) (r : Reg) (o : Source) (s : State) :
    move n (.reg r) o s = (o.load n s).andThen fun v t => .ok () (t.writeReg r v) := rfl

/-- A move into memory: the source, then the bytes, at the address the registers gave before. -/
theorem move_mem (n : Size) (x : Address) (o : Source) (s : State) :
    move n (.mem x) o s = (o.load n s).andThen fun v t => memWrite t (x.ea s) n v := rfl

end Sys2Proof.Machine
end

