-- ==== Sys2Proof/Tests/Slice0.lean ====
section
/-! SUPPORT. Tests: ill-formed terms refused, every constructor's decoding from bytes written out from the encoding tables, one step of
each instruction on the spec's own vectors (95_test_vectors.md), and for every statement with hypotheses a concrete case that meets
them. -/

open Sys2Proof Sys2Proof.Machine

namespace Sys2Proof.Tests

/-! ## Small states and what is looked at -/

/-- Memory with bytes from an address on. -/
def put (m : Memory) (a : Nat) : List Byte → Memory
  | [] => m
  | b :: rest => put (memSet m a b) (a + 1) rest

/-- Reset, with bytes at address 0. -/
def boot (bs : List Byte) : State := { State.reset with mem := put [] 0 bs }

/-- `boot` with a value in A. -/
def bootA (a : Word) (bs : List Byte) : State := { boot bs with gpr := { GPRs.reset with a := a } }

/-- `boot` with values in A and B. -/
def bootAB (a b : Word) (bs : List Byte) : State := { boot bs with gpr := { GPRs.reset with a := a, b := b } }

/-- A view of a next state. -/
def look {β : Type} (o : Outcome) (f : State → β) : Option β :=
  match o with
  | .next t => some (f t)
  | _ => none

/-- `n` bytes of memory. -/
def bytesAt (s : State) (a n : Nat) : List Byte := (List.range n).map fun k => memGet s.mem (a + k)

/-- The bytes decode to the instruction, with nothing left. -/
def decodesTo (bs : List Byte) (i : Instr) : Bool :=
  match decode Encoding.spec bs with
  | .ok (j, []) => j == i
  | _ => false

/-- The bytes are rejected so. -/
def rejects (bs : List Byte) (e : Reject) : Bool :=
  match decode Encoding.spec bs with
  | .ok _ => false
  | .error f => f == e

def rA : Reg := .view .a .full
def rB : Reg := .view .b .full

/-! ## Well-formedness: each check refuses an ill-formed term and takes the largest well-formed one (30_encoding.md R64, R66) -/

theorem test_wf_movRI_refused : Instr.wf (.movRI .word rA 0x100) = false := by decide
theorem test_wf_movAI_refused : Instr.wf (.movAI .dword 0x2000 0x10000) = false := by decide
theorem test_wf_movPI_refused : Instr.wf (.movPI .word rA 0x80000000) = false := by decide
theorem test_wf_taken : (Instr.wf (.movRI .word rA 0xFF) && Instr.wf (.movAI .dword 0 0xFFFF) &&
    Instr.wf (.movPI .qword rA 0xFFFFFFFF)) = true := by decide

/-- Encodings that miss a name, give two names one number, or put two flags or two status bits in one place (00_scope.md R6). -/
theorem test_encoding_refused :
    ({ Encoding.spec with sizes := [(.word, 1), (.dword, 2)] } : Encoding).wf = false ∧
    ({ Encoding.spec with sizes := [(.word, 1), (.dword, 2), (.qword, 2)] } : Encoding).wf = false ∧
    ({ Encoding.spec with flags := { FlagBits.spec with parity := 0 } } : Encoding).wf = false ∧
    ({ Encoding.spec with status := { StatusBits.spec with tfault := 6 } } : Encoding).wf = false ∧
    Config.wf { Config.reference with xlen := 64 } = false ∧ Config.wf { Config.reference with ngpr := 8 } = false := by decide

/-- Another encoding: the three sizes named by `0x10`, `0x20`, `0x40`, with Zero at bit 15 and Halted at bit 31. -/
def other : Encoding :=
  { Encoding.spec with
    sizes := [(.word, 0x10), (.dword, 0x20), (.qword, 0x40)]
    flags := { FlagBits.spec with zero := 15 }
    status := { StatusBits.spec with halted := 31 } }

theorem test_encoding_other : other.wf = true ∧
    decode other [0x01, 0x04, 0x10, 0x00, 0x7F] = .ok (.movRI .word rA 0x7F, []) ∧
    decode other [0x01, 0x04, 0x01] = .error (.invalidSize 0x01) := ⟨by decide, rfl, rfl⟩

/-! ## Decoding, from bytes written out by 30_encoding.md R63, R66, R69, R72 and 10_state.md R16 -/

theorem test_decode_mov_register :
    (decodesTo [0x01, 0x04, 0x04, 0x00, 0x00, 0x20, 0x00, 0x00] (.movRI .qword rA 0x2000) &&
     decodesTo [0x01, 0x05, 0x03, 0x06] (.movRR (.view .a .hh) (.view .a .ll)) &&
     decodesTo [0x01, 0x06, 0x02, 0x32, 0x02, 0x20, 0x00, 0x00] (.movRA .dword (.view .d .l) 0x2002) &&
     decodesTo [0x01, 0x07, 0x01, 0x26, 0x00] (.movRP .word (.view .c .ll) rA)) = true := by decide

theorem test_decode_mov_absolute :
    (decodesTo [0x01, 0x08, 0x02, 0x10, 0x20, 0x00, 0x00, 0xEF, 0xBE] (.movAI .dword 0x2010 0xBEEF) &&
     decodesTo [0x01, 0x09, 0x01, 0x20, 0x20, 0x00, 0x00, 0x35] (.movAR .word 0x2020 (.view .d .lh)) &&
     decodesTo [0x01, 0x0A, 0x04, 0x00, 0x20, 0x00, 0x00, 0x00, 0x30, 0x00, 0x00] (.movAA .qword 0x2000 0x3000) &&
     decodesTo [0x01, 0x0B, 0x04, 0x14, 0x20, 0x00, 0x00, 0x10] (.movAP .qword 0x2014 rB)) = true := by decide

theorem test_decode_mov_pointer :
    (decodesTo [0x01, 0x0C, 0x01, 0x00, 0x7F] (.movPI .word rA 0x7F) &&
     decodesTo [0x01, 0x0D, 0x04, 0x10, 0x00] (.movPR .qword rB rA) &&
     decodesTo [0x01, 0x0E, 0x04, 0x00, 0x10, 0x20, 0x00, 0x00] (.movPA .qword rA 0x2010) &&
     decodesTo [0x01, 0x0F, 0x02, 0x10, 0x00] (.movPP .dword rB rA)) = true := by decide

theorem test_decode_alu :
    (decodesTo [0x10, 0x04, 0xA3, 0x10, 0x00, 0x00, 0x00] (.addRI (.special .pc) 0x10) &&
     decodesTo [0x10, 0x05, 0x00, 0x16] (.addRR rA (.view .b .ll)) &&
     decodesTo [0x12, 0x04, 0x06, 0x10, 0x00, 0x00, 0x00] (.mulRI (.view .a .ll) 0x10) &&
     decodesTo [0x12, 0x05, 0x96, 0xA5] (.mulRR (.view .z .ll) (.special .bp)) &&
     decodesTo [0x15, 0x11, 0x10] (.inc rB) &&
     decodesTo [0x21, 0x04, 0x02, 0xFF, 0x00, 0x00, 0x00] (.orRI (.view .a .l) 0xFF) &&
     decodesTo [0x21, 0x05, 0x61, 0x75] (.orRR (.view .w .h) (.view .x .lh)) &&
     decodesTo [0x23, 0x04, 0x01, 0x08, 0x00, 0x00, 0x00] (.shlRI (.view .a .h) 8) &&
     decodesTo [0x23, 0x05, 0x54, 0x80] (.shlRR (.view .f .hl) (.view .y .full))) = true := by decide

theorem test_decode_compare_control :
    (decodesTo [0x30, 0x04, 0x06, 0x00, 0x01, 0x00, 0x00] (.cmpRI (.view .a .ll) 0x100) &&
     decodesTo [0x30, 0x05, 0xA0, 0xA1] (.cmpRR (.special .cs) (.special .ds)) &&
     decodesTo [0x31, 0x10, 0x40, 0x00, 0x00, 0x00] (.jmp 0x40) &&
     decodesTo [0x32, 0x10, 0x78, 0x56, 0x34, 0x12] (.je 0x12345678) &&
     decodesTo [0x33, 0x10, 0x10, 0x00, 0x00, 0x00] (.jne 0x10) &&
     decodesTo [0x34, 0x10, 0x00, 0x00, 0x00, 0x80] (.jl 0x80000000) &&
     decodesTo [0x38, 0x10, 0x20, 0x00, 0x00, 0x00] (.call 0x20) &&
     decodesTo [0x39, 0x10, 0x20, 0x00, 0x00, 0x00] (.calle 0x20) &&
     decodesTo [0x3A] .ret && decodesTo [0x3B] .iret) = true := by decide

theorem test_decode_ports_system :
    (decodesTo [0x40, 0x00, 0x10, 0x41] (.inbII 0x10 0x41) &&
     decodesTo [0x40, 0x01, 0x10, 0x03] (.inbIR 0x10 (.view .a .hh)) &&
     decodesTo [0x40, 0x02, 0x10, 0x00, 0x20, 0x00, 0x00] (.inbIA 0x10 0x2000) &&
     decodesTo [0x43, 0x04, 0x06, 0x60] (.outbRI (.view .a .ll) 0x60) &&
     decodesTo [0x50] .hlt && decodesTo [0x51] .sti && decodesTo [0x52] .cli &&
     decodesTo [0x53, 0x10, 0x00, 0x01, 0x00, 0x00] (.ldidt 0x100) &&
     decodesTo [0x04] .pusha && decodesTo [0x05] .popa) = true := by decide

theorem test_decode_unimplemented :
    (decodesTo [0x02] .push && decodesTo [0x03] .pop && decodesTo [0x06] .mmset && decodesTo [0x07] .mmcpy &&
     decodesTo [0x11] .sub && decodesTo [0x13] .div && decodesTo [0x14] .mod && decodesTo [0x16] .dec &&
     decodesTo [0x20] .and && decodesTo [0x22] .not && decodesTo [0x24] .shr && decodesTo [0x35] .jle &&
     decodesTo [0x36] .jg && decodesTo [0x37] .jge && decodesTo [0x41] .inw && decodesTo [0x42] .inq &&
     decodesTo [0x44] .outw && decodesTo [0x45] .outq && decodesTo [0x54] .intr) = true := by decide

/-- The decode faults of 95_test_vectors.md 2.1, 2.3, 2.4, 2.5, 2.7, 2.8, 2.9, 2.11. -/
theorem test_decode_faults :
    (rejects [0xFF] (.unimplementedOpcode 0xFF) && rejects [0x00] (.unimplementedOpcode 0) &&
     rejects [0x01, 0x00] (.impossibleMode 0) && rejects [0x01, 0x10] (.impossibleMode 0x10) &&
     rejects [0x01, 0x14] (.invalidMode 0x14) && rejects [0x01, 0x04, 0x03] (.invalidSize 3) &&
     rejects [0x01, 0x04, 0x04, 0x07] (.invalidRegister 7) && rejects [0x01, 0x05, 0x00, 0xA6] (.invalidRegister 0xA6) &&
     rejects [0x30, 0x10] (.impossibleMode 0x10) && rejects [0x30, 0x00] (.unimplementedMode 0) &&
     rejects [0x31, 0x05] (.impossibleMode 5) && rejects [0x31, 0x11] (.unimplementedMode 0x11) &&
     rejects [0x10, 0x05, 0xA6] (.invalidRegister 0xA6) && rejects [0x15, 0x12] (.unimplementedMode 0x12) &&
     rejects [0x40, 0x03] (.unimplementedMode 3) && rejects [0x43, 0x00] (.impossibleMode 0) &&
     rejects [0x53, 0x05] (.impossibleMode 5)) = true := by decide

/-- The mode bytes each opcode implements, and those impossible for it: the table of 30_encoding.md R70. -/
def modesWhere (p : Mode → Bool) : List Byte := (Mode.all.filter p).map Mode.byte

theorem test_modes_mov : modesWhere (fun m => (operandScript? Encoding.spec .mov m).isSome) =
    [0x04, 0x05, 0x06, 0x07, 0x08, 0x09, 0x0A, 0x0B, 0x0C, 0x0D, 0x0E, 0x0F] ∧
    modesWhere (fun m => Opcode.mov.impossible m) = [0x00, 0x01, 0x02, 0x03, 0x10, 0x11, 0x12, 0x13] := by decide

theorem test_modes_two_operands :
    ([Opcode.add, .mul, .or, .shl, .cmp].all fun o =>
      modesWhere (fun m => (operandScript? Encoding.spec o m).isSome) == [0x04, 0x05]) = true ∧
    modesWhere (fun m => (operandScript? Encoding.spec .inb m).isSome) = [0x00, 0x01, 0x02] ∧
    modesWhere (fun m => (operandScript? Encoding.spec .outb m).isSome) = [0x04] ∧
    modesWhere (fun m => Opcode.cmp.impossible m) = [0x10, 0x11, 0x12, 0x13] ∧
    modesWhere (fun m => Opcode.inb.impossible m) = [0x10, 0x11, 0x12, 0x13] := by decide

theorem test_modes_one_operand :
    ([Opcode.jmp, .je, .jne, .jl, .call, .calle, .ldidt].all
      fun o => modesWhere (fun m => (operandScript? Encoding.spec o m).isSome) == [0x10]) = true ∧
    modesWhere (fun m => (operandScript? Encoding.spec .inc m).isSome) = [0x11] ∧
    modesWhere (fun m => m.operands == 1 && Opcode.inc.impossible m) = [0x10] ∧
    modesWhere (fun m => m.operands == 1 && Opcode.jmp.impossible m) = [] := by decide

/-- The 76 register codes and the 180 that name no register (10_state.md R16). -/
theorem test_register_codes : Reg.all.length = 76 ∧
    (Reg.all.map Reg.code).Nodup ∧ ([0x07, 0x0F, 0x17, 0x97, 0xA6, 0xAF, 0xB0, 0xFF].all
      fun c => (Encoding.spec.reg? c).isNone) = true := by decide

/-! ## The host's two functions -/

theorem test_table_word : decodeTableWord 32 0x10000510 = some (.addRR rA rB) ∧ decodeTableWord 8 0x50 = some .hlt := by decide

theorem test_fetch_word : look (step (State.reset.withFetchWord 32 0x10000510)) (fun t => (t.pc, t.fault.latch, t.ticks)) =
    some (4, false, 1) := by decide

/-! ## MOV (95_test_vectors.md 2.1, 2.3) -/

theorem test_movRI : look (step (bootA 0x11223344 [0x01, 0x04, 0x01, 0x05, 0xAB])) (fun t => (t.gpr.a, t.pc)) =
    some (0x1122AB44, 5) := by decide

theorem test_movRI_cut : look (step (bootA 0xFFFFFFFF [0x01, 0x04, 0x04, 0x02, 0x78, 0x56, 0x34, 0x12])) (fun t => t.gpr.a) =
    some 0xFFFF5678 := by decide

theorem test_movRR : look (step (bootA 0x1122AB44 [0x01, 0x05, 0x03, 0x06])) (fun t => (t.gpr.a, t.pc)) = some (0x4422AB44, 4) := by
  decide

theorem test_movRR_pc : look (step (boot [0x01, 0x05, 0x00, 0xA3])) (fun t => (t.gpr.a, t.pc)) = some (4, 4) := by decide

theorem test_movRA : look (step (bootA 0xFFFFFFFF [0x01, 0x06, 0x01, 0x00, 0x00, 0x20, 0x00, 0x00])) (fun t => (t.gpr.a, t.pc)) =
    some (0, 8) := by decide

theorem test_movRP : look (exec (.movRP .word (.view .c .ll) rA) { bootA 0x2000 [] with mem := put [] 0x2000 [0xDD, 0xCC] })
    (fun t => (t.gpr.c, t.pc)) = some (0xDD, 5) := by decide

theorem test_movAI : look (step (boot [0x01, 0x08, 0x02, 0x10, 0x20, 0x00, 0x00, 0xEF, 0xBE])) (fun t => (bytesAt t 0x200F 4, t.pc)) =
    some ([0x00, 0xEF, 0xBE, 0x00], 9) := by decide

theorem test_movAR : look (step (bootA 0x0000AABB [0x01, 0x09, 0x01, 0x20, 0x20, 0x00, 0x00, 0x05]))
    (fun t => (bytesAt t 0x2020 2, t.pc)) = some ([0xAA, 0x00], 8) := by decide

/-- Overlapping source and destination: all source bytes are read first. -/
theorem test_movAA : look (exec (.movAA .qword 0x2001 0x2000) { boot [] with mem := put [] 0x2000 [0xEF, 0xBE, 0x00, 0x00] })
    (fun t => (bytesAt t 0x2000 5, t.pc)) = some ([0xEF, 0xEF, 0xBE, 0x00, 0x00], 11) := by decide

theorem test_movAP : look (exec (.movAP .qword 0x2014 rB) { bootAB 0 0x3000 [] with mem := put [] 0x3000 [0xDD, 0xCC, 0xBB, 0xAA] })
    (fun t => (bytesAt t 0x2014 4, t.pc)) = some ([0xDD, 0xCC, 0xBB, 0xAA], 8) := by decide

theorem test_movPI : look (step (bootA 0x2000 [0x01, 0x0C, 0x01, 0x00, 0x7F])) (fun t => (bytesAt t 0x2000 2, t.pc)) =
    some ([0x7F, 0x00], 5) := by decide

theorem test_movPR : look (step (bootAB 0x2000 0x3000 [0x01, 0x0D, 0x04, 0x10, 0x00])) (fun t => (bytesAt t 0x3000 4, t.pc)) =
    some ([0x00, 0x20, 0x00, 0x00], 5) := by decide

theorem test_movPA : look (exec (.movPA .qword rA 0x2010) { bootA 0x2000 [] with mem := put [] 0x2010 [0xEF, 0xBE] })
    (fun t => (bytesAt t 0x2000 4, t.pc)) = some ([0xEF, 0xBE, 0x00, 0x00], 8) := by decide

theorem test_movPP : look (exec (.movPP .dword rB rA) { bootAB 0x2000 0x3000 [] with mem := put [] 0x2000 [0xEF, 0xBE, 0x11] })
    (fun t => (bytesAt t 0x3000 3, t.pc)) = some ([0xEF, 0xBE, 0x00], 5) := by decide

/-- 95_test_vectors.md S3: a region over `0x3000 .. 0x3003`; one byte comes from it, three from RAM. -/
def shadow : State :=
  { boot [] with
    mem := put [] 0x3003 [0x99, 0xAA, 0xBB, 0xCC]
    config := { Config.reference with regions := [{ start := 0x3000, size := 4 }] }
    env := { Env.quiet with regionReplies := [0xE3] } }

theorem test_region_read : look (exec (.movRA .qword rA 0x3003) shadow) (fun t => (t.gpr.a, t.env.log)) =
    some (0xCCBBAAE3, [.regionRead { start := 0x3000, size := 4 } 0x3003 3]) := by decide

theorem test_region_write :
    look (exec (.movAR .qword 0x3002 rA) { shadow with gpr := { GPRs.reset with a := 0xCCBBAAE3 } })
      (fun t => (bytesAt t 0x3002 4, t.env.log)) =
    some ([0x00, 0x99, 0xBB, 0xCC], [.regionWrite { start := 0x3000, size := 4 } 0x3002 2 0xE3,
      .regionWrite { start := 0x3000, size := 4 } 0x3003 3 0xAA]) := by decide

/-- 20_memory.md R41: of two regions that hold the address, the first registered one has it. -/
theorem test_region_first :
    look (exec (.movAI .word 0x3001 0x5A)
        { shadow with config := { Config.reference with regions := [{ start := 0x3001, size := 1 }, { start := 0x3000, size := 4 }] } })
      (fun t => t.env.log) = some [.regionWrite { start := 0x3001, size := 1 } 0x3001 0 0x5A] := by decide

/-! ## ALU (95_test_vectors.md 2.7) -/

theorem test_inc : look (step (bootA 0xFF [0x15, 0x11, 0x06])) (fun t => (t.gpr.a, t.pc, t.flags)) = some (0, 3, 0) := by decide

theorem test_addRI : look (step (bootA 0x12F0 [0x10, 0x04, 0x06, 0x20, 0x00, 0x00, 0x00])) (fun t => (t.gpr.a, t.pc)) =
    some (0x1210, 7) := by decide

theorem test_addRI_pc : look (step (boot [0x10, 0x04, 0xA3, 0x10, 0x00, 0x00, 0x00])) (fun t => t.pc) = some 0x17 := by decide

theorem test_addRR : look (step (bootAB 0x100 0xAABBCCDD [0x10, 0x05, 0x00, 0x16])) (fun t => (t.gpr.a, t.pc)) =
    some (0x1DD, 4) := by decide

theorem test_mulRI : look (step (bootA 7 [0x12, 0x04, 0x00, 0x03, 0x00, 0x00, 0x00])) (fun t => (t.gpr.a, t.pc)) =
    some (21, 7) := by decide

theorem test_mulRR : look (step (bootA 0xFFFFFFFF [0x12, 0x05, 0x00, 0x00])) (fun t => (t.gpr.a, t.pc)) = some (1, 4) := by decide

theorem test_orRI : look (step (bootA 0x12345600 [0x21, 0x04, 0x02, 0xFF, 0x00, 0x00, 0x00])) (fun t => (t.gpr.a, t.pc)) =
    some (0x123456FF, 7) := by decide

/-- Calculated from 42_alu.md R123. -/
theorem test_orRR : look (step (bootAB 0xF0F0 0x0FF0 [0x21, 0x05, 0x00, 0x10])) (fun t => (t.gpr.a, t.gpr.b, t.pc)) =
    some (0xFFF0, 0x0FF0, 4) := by decide

theorem test_shlRI : look (step (bootA 0x12345678 [0x23, 0x04, 0x01, 0x08, 0x00, 0x00, 0x00])) (fun t => (t.gpr.a, t.pc)) =
    some (0x34005678, 7) := by decide

theorem test_shlRI_32 : look (step (bootA 3 [0x23, 0x04, 0x00, 0x20, 0x00, 0x00, 0x00])) (fun t => t.gpr.a) = some 0 := by decide

/-- Calculated from 42_alu.md R124: the count is the whole second operand. -/
theorem test_shlRR : look (step (bootAB 3 31 [0x23, 0x05, 0x00, 0x10])) (fun t => (t.gpr.a, t.pc)) = some (0x80000000, 4) := by decide

/-! ## Compare and control (95_test_vectors.md 2.4, 2.5, 2.6) -/

theorem test_cmpRI : look (step { bootA 3 [0x30, 0x04, 0x00, 0x05, 0x00, 0x00, 0x00] with flags := 0xFFFF })
    (fun t => (t.flags, t.pc, t.gpr.a)) = some (0x000A, 7, 3) := by decide

theorem test_cmpRI_view : look (step (bootA 0xFF [0x30, 0x04, 0x06, 0x00, 0x01, 0x00, 0x00])) (fun t => t.flags) =
    some 0x0002 := by decide

/-- With Zero configured at bit 15. -/
theorem test_cmp_other : look (exec (.cmpRI rA 5) { bootA 5 [] with config := { Config.reference with encoding := other } })
    (fun t => t.flags) = some 0x8008 := by decide

theorem test_cmpRR : look (step (bootAB 0x80000000 0x7FFFFFFF [0x30, 0x05, 0x00, 0x10])) (fun t => (t.flags, t.pc)) =
    some (0x0000, 4) := by decide

theorem test_jmp : look (step (boot [0x31, 0x10, 0x40, 0x00, 0x00, 0x00])) (fun t => t.pc) = some 0x40 := by decide

theorem test_je : look (step { boot [0x32, 0x10, 0x40, 0x00, 0x00, 0x00] with flags := 0x0009 }) (fun t => t.pc) = some 0x40 ∧
    look (step { boot [0x32, 0x10, 0x40, 0x00, 0x00, 0x00] with flags := 0x000A }) (fun t => t.pc) = some 6 := by decide

theorem test_jne : look (step { boot [0x33, 0x10, 0x40, 0x00, 0x00, 0x00] with flags := 0x0009 }) (fun t => t.pc) = some 6 ∧
    look (step { boot [0x33, 0x10, 0x40, 0x00, 0x00, 0x00] with flags := 0x000A }) (fun t => t.pc) = some 0x40 := by decide

theorem test_jl : look (step { boot [0x34, 0x10, 0x40, 0x00, 0x00, 0x00] with flags := 0x000A }) (fun t => t.pc) = some 0x40 ∧
    look (step { boot [0x34, 0x10, 0x40, 0x00, 0x00, 0x00] with flags := 0x0009 }) (fun t => t.pc) = some 6 := by decide

theorem test_call : look (exec (.call 0x20) { boot [] with pc := 8, sp := 0x1000 })
    (fun t => (t.pc, t.sp, bytesAt t 0xFFC 4)) = some (0x20, 0xFFC, [0x0E, 0x00, 0x00, 0x00]) := by decide

/-- Vector P4h: `SP` stays decremented. -/
theorem test_call_fault : look (step (boot [0x38, 0x10, 0x20, 0x00, 0x00, 0x00]))
    (fun t => (t.fault.kind, t.fault.info, t.sp, t.pc, t.status)) = some (.busError, 0xFFFFFFFC, 0xFFFFFFFC, 6, 0x23) := by decide

theorem test_calle : look (exec (.calle 0x20) { boot [] with pc := 8, sp := 0x1000, flags := 0x0009 })
    (fun t => (t.pc, t.sp, bytesAt t 0xFFC 4)) = some (0x20, 0xFFC, [0x0E, 0x00, 0x00, 0x00]) := by decide

theorem test_calle_not_taken : look (exec (.calle 0x20) { boot [] with pc := 8, sp := 0x1000, flags := 0x0008 })
    (fun t => (t.pc, t.sp, t.mem)) = some (0x0E, 0x1000, []) := by decide

theorem test_ret : look (exec .ret { boot [] with sp := 0xFFC, mem := put [] 0xFFC [0x0E] }) (fun t => (t.pc, t.sp)) =
    some (0x0E, 0x1000) := by decide

theorem test_iret : look (exec .iret { boot [] with sp := 0xFF8, mem := put [] 0xFF8 [0x03, 0, 0, 0, 0x30] })
    (fun t => (t.status, t.pc, t.sp)) = some (3, 0x30, 0x1000) := by decide

/-- IRET with On clear: the shutdown check of the same tick stops the clock. -/
theorem test_iret_off : look (step { boot [] with pc := 8, sp := 0xFF8, mem := put (put [] 8 [0x3B]) 0xFF8 [0, 0, 0, 0, 0x30] })
    (fun t => (t.status, t.pc, t.sp, t.clkStop)) = some (0, 0x30, 0x1000, true) := by decide

/-! ## Ports (95_test_vectors.md 2.8) -/

/-- A platform with an inbound handler on port `0x10` and an outbound one on `0x60` that answers `0x7A`. -/
def ported (a : Word) (bs : List Byte) : State :=
  { bootA a bs with
    config := { Config.reference with portIn8 := [0x10], portOut8 := [0x60] }
    env := { Env.quiet with portReplies := [{ value := 0x7A, raises := none }] } }

theorem test_inbII : look (step (ported 0 [0x40, 0x00, 0x10, 0x41])) (fun t => (t.env.log, t.pc)) =
    some ([.portDeliver .w8 0x10 0x41], 4) := by decide

theorem test_inbIR : look (step (ported 0x11223344 [0x40, 0x01, 0x10, 0x01])) (fun t => (t.env.log, t.pc)) =
    some ([.portDeliver .w8 0x10 0x22], 4) := by decide

theorem test_inbIA : look (exec (.inbIA 0x10 0x2000) { ported 0 [] with mem := put [] 0x2000 [0x5A] }) (fun t => (t.env.log, t.pc)) =
    some ([.portDeliver .w8 0x10 0x5A], 7) := by decide

theorem test_outbRI : look (step (ported 0x11223344 [0x43, 0x04, 0x06, 0x60])) (fun t => (t.gpr.a, t.env.log, t.pc)) =
    some (0x1122337A, [.portRequest .w8 0x60], 4) := by decide

theorem test_port_unclaimed : look (step (boot [0x40, 0x00, 0x10, 0x41])) (fun t => (t.fault.kind, t.fault.info, t.pc, t.status)) =
    some (.portUnclaimed, 0x10, 4, 0x23) := by decide

/-- 43_port_io.md R140: the byte is read before the handler is looked for. -/
theorem test_inb_unserved : look (exec (.inbIA 0x10 0xFFFFF) (ported 0 [])) (fun t => (t.fault.kind, t.fault.info, t.env.log)) =
    some (.busError, 0xFFFFF, []) := by decide

/-- A handler that raises line 2 while `IE` is 1 (43_port_io.md R142). -/
theorem test_handler_raise :
    look (exec (.inbII 0x10 2) { ported 0 [] with ie := true, env := { Env.quiet with portReplies := [⟨0, some 2⟩] } })
      (fun t => (t.ipend, t.iline)) = some (true, 2) := by decide

/-! ## System and blocks (95_test_vectors.md 2.9, 2.10) -/

theorem test_sti : look (step (boot [0x51])) (fun t => (t.ie, t.pc)) = some (true, 1) := by decide

theorem test_cli : look (step { boot [0x52] with ie := true }) (fun t => (t.ie, t.pc)) = some (false, 1) := by decide

theorem test_cli_keeps_pending : look (exec .cli { boot [] with ie := true, ipend := true, iline := 1 })
    (fun t => (t.ie, t.ipend, t.iline)) = some (false, true, 1) := by decide

theorem test_ldidt : look (step { boot [0x53, 0x10, 0x00, 0x02, 0x00, 0x00] with idtBase := 0x100, idtSet := true })
    (fun t => (t.idtBase, t.idtSet, t.pc)) = some (0x200, true, 6) := by decide

theorem test_hlt : look (step (boot [0x50])) (fun t => (t.status, t.pc, t.clkStop)) = some (3, 1, false) := by decide

/-- Program P6: `A`, `FLAGS` and `BP` in the frame that PUSHA leaves below `0x1000`. -/
theorem test_pusha : look (exec .pusha { bootA 0x11111111 [] with pc := 0x1C, sp := 0x1000, bp := 0xBBBB, flags := 9 })
    (fun t => (t.sp, bytesAt t 0xFBC 12, bytesAt t 0xFD4 4, bytesAt t 0xFFC 4)) =
    some (0xFBC, [0xBB, 0xBB, 0, 0, 0xC4, 0x0F, 0, 0, 0x1D, 0, 0, 0], [0, 0, 9, 0], [0x11, 0x11, 0x11, 0x11]) := by decide

theorem test_popa :
    look (exec .popa { boot [] with sp := 0x2000, mem := put (put [] 0x2004 [0x08, 0x20]) 0x2008 [0x80] })
      (fun t => (t.pc, t.sp, t.bp, t.gpr)) = some (0x80, 0x2044, 0, GPRs.reset) := by decide

theorem test_popa_moved_stack : look (exec .popa { boot [] with sp := 0x2000, mem := put [] 0x2004 [0x00, 0x30] })
    (fun t => t.sp) = some 0x303C := by decide

/-- The second push of a PUSHA fails: `A` is stored, `SP` is where that push left it (45_stack_block.md R160). -/
theorem test_pusha_fault :
    look (exec .pusha { bootA 0x11111111 [] with sp := 4 }) (fun t => (t.fault.kind, t.fault.info, t.sp, bytesAt t 0 4)) =
    some (.busError, 0xFFFFFFFC, 0xFFFFFFFC, [0x11, 0x11, 0x11, 0x11]) := by decide

/-- The second pop of a POPA fails: `BP` has its new value (45_stack_block.md R161). -/
theorem test_popa_fault :
    look (exec .popa { boot [] with sp := 0xFFFFB, mem := put [] 0xFFFFB [0x77] })
      (fun t => (t.fault.kind, t.fault.info, t.sp, t.bp)) = some (.busError, 0xFFFFF, 0xFFFFF, 0x77) := by decide

/-! ## The nineteen named, unimplemented instructions (30_encoding.md R73; vector P4a) -/

theorem test_unimplemented :
    ([0x02, 0x03, 0x06, 0x07, 0x11, 0x13, 0x14, 0x16, 0x20, 0x22, 0x24, 0x35, 0x36, 0x37, 0x41, 0x42, 0x44, 0x45, 0x54].all
      fun b => look (step (boot [b, 0x05, 0x00, 0x10]))
        (fun t => (t.fault.kind, t.fault.opcode, t.fault.mode, t.fault.info, t.pc, t.status)) ==
        some (.unimplementedOpcode, b, 0, 0, 1, 0x23)) = true := by decide

/-! ## The tick and interrupts (95_test_vectors.md 2.12) -/

/-- Vector P4j, second tick: a fetch from outside memory. -/
theorem test_fetch_fault : look (step { boot [] with pc := 0x00100000 })
    (fun t => (t.fault, t.pc)) =
    some ({ latch := true, kind := .busError, opcode := 0, mode := 0, addr := 0x00100000, info := 0x00100000 }, 0x00100000) := by
  decide

theorem test_raise_while_disabled : (applyAction State.reset (.raise 2)).ipend = false := by decide

theorem test_raise_overwrites :
    ((applyActions [.raise 2, .raise 7] { State.reset with ie := true }).ipend,
     (applyActions [.raise 2, .raise 7] { State.reset with ie := true }).iline) = (true, 7) := by decide

theorem test_table_unset : look (step { boot [0x51, 0x31, 0x10, 1, 0, 0, 0] with pc := 1, ie := true, ipend := true, iline := 5 })
    (fun t => (t.status, t.fault.kind, t.fault.info, t.fault.addr, t.sp, t.ipend)) =
    some (0x23, .idtUnset, 5, 1, 0, true) := by decide

/-- A machine with a stack at `0x1000`, a table at `0x100` and a handler at `0x40` for line 1; line 1 is pending and the instruction at
`0x13` is STI. -/
def pending : State :=
  { boot [] with
    pc := 0x13
    sp := 0x1000
    ipend := true
    iline := 1
    idtSet := true
    idtBase := 0x100
    mem := put (put [] 0x13 [0x51]) 0x104 [0x40] }

theorem test_interrupt_entry : look (step pending) (fun t => (t.pc, t.sp, bytesAt t 0xFF8 8, t.ipend, t.ie, t.status)) =
    some (0x40, 0xFF8, [1, 0, 0, 0, 0x14, 0, 0, 0], false, true, 1) := by decide

/-- 60_exceptions.md R183: the descriptor read of an entry fails; both pushes stay, the line stays pending. -/
theorem test_entry_fault : look (.next (service { pending with ie := true, idtBase := 0x100000 }))
    (fun t => (t.fault, t.sp, t.ipend, bytesAt t 0xFF8 5)) =
    some ({ latch := true, kind := .busError, opcode := 0, mode := 0, addr := 0x13, info := 0x100004 }, 0xFF8, true,
      [1, 0, 0, 0, 0x13]) := by decide

/-- 60_exceptions.md R199: the clock is stopped in the last scheduled gap, and the step still answers the state, with the line raised in
that gap; only the next step has no tick left. -/
def lastGap : State := { boot [] with ie := true, env := { Env.quiet with schedule := [[.clockStop, .raise 3]] } }

theorem test_clock_stop_readable : look (step lastGap) (fun t => (t.clkStop, t.ipend, t.iline, t.ticks)) = some (true, true, 3, 0) := by
  decide

theorem test_clock_stop_end : step { lastGap with clkStop := true, env := Env.quiet } = .fault .clockStopped := rfl

/-- 60_exceptions.md R177: halted with interrupts enabled and nothing that raises is at rest; with a raise to come it is not; with
interrupts disabled it is, whatever comes; with On clear it is not. -/
theorem test_at_rest :
    (let halted := { boot [] with status := 3 }
     let enabled := { halted with ie := true }
     let raised := { enabled with env := { Env.quiet with schedule := [[], [.raise 1]] } }
     (enabled.atRest, raised.atRest, ({ raised with ie := false }).atRest, ({ enabled with status := 2 }).atRest, (boot []).atRest)) =
    (true, false, true, false, false) := by decide

/-! ## Witnesses: for each statement with hypotheses, a case that meets them all -/

/-- RAM from 0 up to the last byte below `MEM_SIZE`. -/
theorem witness_BusWriteThenReadRoundTrip : Memory.wf State.reset.mem = true ∧
    State.reset.ramRange 0 Size.word.bytes = true ∧ State.reset.ramRange 0xFFFFB Size.qword.bytes = true := by decide

/-- The spec's encoding and another one. -/
theorem witness_DecodeInvertsEncode : Encoding.spec.wf = true ∧ other.wf = true ∧
    Instr.wf (.movAI .word 0xFFFFFFFF 0xFF) = true := by decide

theorem witness_EncodeInvertsDecode : other.wf = true ∧ decode other [0x54, 0x01] = .ok (.intr, [0x01]) := ⟨by decide, rfl⟩

theorem witness_SpecNumbersAreTheDefaults : State.reset.encoding = Encoding.spec := rfl

theorem witness_StepRunsDecodedInstruction : (boot [0x50]).ready = true ∧
    decode (boot [0x50]).encoding [0x50] = .ok (.hlt, []) ∧ (boot [0x50]).ramHolds 0 [0x50] = true := ⟨by decide, rfl, by decide⟩

/-- What `IllegalEncodingFaults` asks of a rejected encoding and the state that holds it. -/
def illegalAt (bs : List Byte) (e : Reject) : Bool :=
  (boot bs).ready && (boot bs).on && !((boot bs).ipend && (boot bs).ie) && rejects bs e && e != .truncated &&
    rejects bs.dropLast .truncated && (boot bs).ramHolds 0 bs

/-- Every clause, each at the first and the last byte value of its class where it has two. -/
theorem witness_IllegalEncodingFaults :
    (illegalAt [0x00] (.unimplementedOpcode 0x00) && illegalAt [0xFF] (.unimplementedOpcode 0xFF) &&
     illegalAt [0x01, 0x14] (.invalidMode 0x14) && illegalAt [0x01, 0xFF] (.invalidMode 0xFF) &&
     illegalAt [0x01, 0x00] (.impossibleMode 0x00) && illegalAt [0x01, 0x13] (.impossibleMode 0x13) &&
     illegalAt [0x30, 0x00] (.unimplementedMode 0x00) && illegalAt [0x31, 0x13] (.unimplementedMode 0x13) &&
     illegalAt [0x01, 0x04, 0x00] (.invalidSize 0x00) && illegalAt [0x01, 0x04, 0xFF] (.invalidSize 0xFF) &&
     illegalAt [0x15, 0x11, 0x07] (.invalidRegister 0x07) && illegalAt [0x01, 0x05, 0x00, 0xFF] (.invalidRegister 0xFF)) = true := by
  decide

/-- The first address past RAM. -/
def atEnd : State := { boot [] with pc := 0xFFFFF }

theorem witness_OpcodeFetchBusError : atEnd.ready = true ∧ atEnd.on = true ∧ (atEnd.ipend && atEnd.ie) = false ∧
    atEnd.mapped atEnd.pc = false := by decide

/-- What `OperandFetchBusError` asks when the instruction `i`, placed at `pc`, meets RAM's end at byte `j` of its field `m`. -/
def fetchFails (i : Instr) (pc : Word) (m j : Nat) (n : Size) : Bool :=
  let seen := (encode Encoding.spec i).take (widthOf (i.fields.take m))
  let s := { boot [] with pc := pc, mem := put [] pc.toNat seen }
  s.ready && s.on && !(s.ipend && s.ie) && s.encoding.wf && i.wf && i.fields[m]? == some n && s.ramHolds pc seen &&
    s.firstUnmapped (pc + BitVec.ofNat 32 seen.length) n.bytes j

/-- The opcode, the mode, a size byte, a register byte, a port, the first and the last byte of an address, and those of a literal. -/
theorem witness_OperandFetchBusError :
    (fetchFails .hlt 0xFFFFF 0 0 .word && fetchFails (.inc rA) 0xFFFFE 1 0 .word &&
     fetchFails (.movRI .dword rA 0xFFFF) 0xFFFFD 2 0 .word && fetchFails (.movRI .dword rA 0xFFFF) 0xFFFFC 3 0 .word &&
     fetchFails (.movRI .dword rA 0xFFFF) 0xFFFFB 4 0 .dword && fetchFails (.movRI .dword rA 0xFFFF) 0xFFFFA 4 1 .dword &&
     fetchFails (.outbRI rA 0x60) 0xFFFFC 3 0 .word && fetchFails (.movAA .qword 1 2) 0xFFFFC 3 0 .qword &&
     fetchFails (.movAA .qword 1 2) 0xFFFF9 3 3 .qword && fetchFails (.movAA .qword 1 2) 0xFFFF5 4 3 .qword &&
     fetchFails (.jmp 0x40) 0xFFFFD 2 0 .qword && fetchFails (.jmp 0x40) 0xFFFFA 2 3 .qword) = true := by decide

theorem witness_QuarterViewsAliasFullView :
    [(View.hh, (4 : Byte)), (.ll, 1), (.hl, 3), (.lh, 2)].Perm [(.ll, 1), (.lh, 2), (.hl, 3), (.hh, 4)] := by decide

theorem witness_RegisterWriteKeepsLowBits :
    (Reg.view .a .lh).apart (.view .a .ll) = true ∧ (Reg.view .a .h).apart (.view .a .l) = true ∧
    (Reg.special .pc).apart (.special .sp) = true ∧ rA.apart (.special .bp) = true := by decide

/-- A region at the end of RAM, of which one byte lies past it. -/
def edge : State := { boot [] with config := { Config.reference with regions := [{ start := 0xFFFFE, size := 2 }] } }

/-- No byte, three bytes of RAM, and one byte of RAM with two of a region before the failing one. -/
theorem witness_PartialStoreBeforeBusError : Memory.wf State.reset.mem = true ∧ Memory.wf edge.mem = true ∧
    State.reset.firstUnmapped 0xFFFFF Size.word.bytes 0 = true ∧ State.reset.firstUnmapped 0xFFFFC Size.qword.bytes 3 = true ∧
    edge.firstUnmapped 0xFFFFD Size.qword.bytes 3 = true ∧ edge.claimed 0xFFFFD = false ∧ edge.claimed 0xFFFFF = true := by
  decide

/-- Two regions that overlap: `0x3000 .. 0x3003` first, then `0x3002 .. 0x3005`. -/
def overlap : State :=
  { boot [] with config := { Config.reference with regions := [{ start := 0x3000, size := 4 }, { start := 0x3002, size := 4 }] } }

/-- The first and the last byte of the first region, one that both hold, the first and the last that only the second holds; RAM's bytes
beside them and its last one; the first byte and the last address that nothing serves. -/
theorem witness_ByteAccessesGoToTheFirstRegion : Memory.wf overlap.mem = true ∧
    (let holds := fun (g : Region) (a : Nat) => decide (g.start ≤ a ∧ a < g.start + g.size)
     let g1 : Region := { start := 0x3000, size := 4 }
     let g2 : Region := { start := 0x3002, size := 4 }
     overlap.config.regions = [] ++ g1 :: [g2] ∧ overlap.config.regions = [g1] ++ g2 :: [] ∧
     [0x3000, 0x3002, 0x3003].all (holds g1) = true ∧ [0x3004, 0x3005].all (holds g2) = true ∧
     [0x3004, 0x3005].any (holds g1) = false ∧
     [0, 0x2FFF, 0x3006, 0xFFFFE].any (fun a => holds g1 a || holds g2 a) = false ∧ 0xFFFFE < overlap.config.memSize ∧
     [0xFFFFF, 0xFFFFFFFF].any (fun a => holds g1 a || holds g2 a) = false ∧ overlap.config.memSize ≤ 0xFFFFF) := by decide

theorem witness_RegionsInterceptEachByteOnce : Memory.wf shadow.mem = true ∧ shadow.mappedRange 0x3002 Size.qword.bytes = true ∧
    (addrsFrom 0x3002 Size.qword.bytes).filter shadow.claimed = [0x3002, 0x3003] := by decide

theorem witness_PushThenPopRoundTrip : Memory.wf ({ boot [] with sp := 4 }).mem = true ∧
    ({ boot [] with sp := 4 }).ramRange (4 - BitVec.ofNat 32 Size.qword.bytes) Size.qword.bytes = true ∧
    ({ boot [] with sp := 0xFFFFF }).ramRange (0xFFFFF - 12) 12 = true := by decide

theorem witness_MovWritesDestinationRegister : (bootAB 0x2000 0xFFFFB []).ramRange 0xFFFFB Size.qword.bytes = true ∧
    (bootAB 0x2000 0xFFFFB []).ramRange (((bootAB 0x2000 0xFFFFB []).past 5).readReg rB) Size.qword.bytes = true := by decide

theorem witness_MovStoresAtEffectiveAddress : Memory.wf (bootAB 0x2000 0xFFFFB []).mem = true ∧
    (bootAB 0x2000 0xFFFFB []).ramRange 0 Size.qword.bytes = true ∧
    ([4 + Size.qword.bytes, 5, 8].all fun n =>
      (bootAB 0x2000 0xFFFFB []).ramRange (((bootAB 0x2000 0xFFFFB []).past n).readReg rA) Size.qword.bytes &&
      (bootAB 0x2000 0xFFFFB []).ramRange (((bootAB 0x2000 0xFFFFB []).past n).readReg rB) Size.qword.bytes) = true := by decide

theorem witness_MovAccessesBusInOrder : Memory.wf shadow.mem = true ∧ isMov (.movAA .qword 0x3002 0x3000) = true ∧
    (movReads (.movAA .qword 0x3002 0x3000) shadow).all shadow.mapped = true ∧
    (movWrites (.movAA .qword 0x3002 0x3000) shadow).all shadow.mapped = true ∧
    (movWrites (.movAA .qword 0x3002 0x3000) shadow).filter shadow.claimed = [0x3002, 0x3003] ∧
    movDest (.movAA .qword 0x3002 0x3000) = none ∧ movDest (.movRA .qword rA 0x3000) = some rA ∧
    (movReads (.movRA .qword rA 0x3000) shadow).all shadow.mapped = true := by decide

/-- The source clause and the destination clause, each with the first byte past RAM. -/
theorem witness_MovBusErrorsAreRecorded : Memory.wf State.reset.mem = true ∧
    (movReads (.movRA .qword rA 0xFFFFD) State.reset)[2]? = some 0xFFFFF ∧
    ((movReads (.movRA .qword rA 0xFFFFD) State.reset).take 2).all State.reset.mapped = true ∧
    State.reset.mapped 0xFFFFF = false ∧
    (movReads (.movAI .qword 0xFFFFC 0) State.reset).all State.reset.mapped = true ∧
    (movWrites (.movAI .qword 0xFFFFC 0) State.reset)[3]? = some 0xFFFFF ∧
    ((movWrites (.movAI .qword 0xFFFFC 0) State.reset).take 3).all State.reset.mapped = true := by decide

theorem witness_CmpFlagOutcomes : (bootA 0xFFFFFFFF []).encoding.flags = FlagBits.spec ∧
    ((bootA 0xFFFFFFFF []).past 7).readReg rA = 0xFFFFFFFF ∧
    ∃ t, exec (.cmpRI rA 0) (bootA 0xFFFFFFFF []) = .next t := ⟨rfl, by decide, _, rfl⟩

theorem witness_CallPushesReturnAddress : Memory.wf (boot []).mem = true ∧
    ({ boot [] with sp := 4 }).ramRange (4 - 4) 4 = true ∧ ({ boot [] with flags := 1 }).zero = true ∧ (boot []).zero = false ∧
    (boot []).firstUnmapped ((boot []).sp - 4) 4 0 = true ∧
    ({ boot [] with sp := 0x100000 }).firstUnmapped (0x100000 - 4) 4 3 = true := by decide

theorem witness_RetPopsProgramCounter : ({ boot [] with sp := 0xFFFFB }).ramRange 0xFFFFB 4 = true ∧
    ({ boot [] with sp := 0xFFFFC }).firstUnmapped 0xFFFFC 4 3 = true := by decide

theorem witness_IretPopsStatusThenProgramCounter :
    ({ boot [] with sp := 0xFFFF7 }).ramRange 0xFFFF7 4 = true ∧ ({ boot [] with sp := 0xFFFF7 }).ramRange (0xFFFF7 + 4) 4 = true ∧
    ({ boot [] with sp := 0xFFFFC }).firstUnmapped 0xFFFFC 4 3 = true ∧
    ({ boot [] with sp := 0xFFFFB }).ramRange 0xFFFFB 4 = true ∧
    ({ boot [] with sp := 0xFFFFB }).firstUnmapped (0xFFFFB + 4) 4 0 = true := by decide

/-- A stack of 8 bytes at the bottom of RAM; the state after the CALL is one that may come back. -/
theorem witness_CallThenRetReturns : Memory.wf ({ boot [] with sp := 8 }).mem = true ∧
    ({ boot [] with sp := 8 }).ramRange (8 - 4) 4 = true ∧
    ∃ (t u : State), exec (.call 0x20) { boot [] with sp := 8 } = .next t ∧ u.sp = t.sp ∧ u.config = t.config ∧
      ∀ a ∈ addrsFrom t.sp 4, u.ramByte a = t.ramByte a := ⟨by decide, by decide, _, _, rfl, rfl, rfl, fun _ _ => rfl⟩

/-- `ported`, with a region over `0x3000 .. 0x3003` that answers `0xE3`. -/
def portedShadow : State :=
  { ported 0 [] with
    config := { Config.reference with portIn8 := [0x10], portOut8 := [0x60], regions := [{ start := 0x3000, size := 4 }] }
    env := { Env.quiet with regionReplies := [0xE3] } }

theorem witness_InbDeliversOneByte : (0x10 : Byte) ∈ portedShadow.config.portIn8 ∧ portedShadow.inRam 0xFFFFE = true ∧
    portedShadow.inRam 0x2FFF = true ∧ portedShadow.config.regionAt 0x3000 = some { start := 0x3000, size := 4 } ∧
    portedShadow.config.regionAt 0x3003 = some { start := 0x3000, size := 4 } ∧ portedShadow.env.regionReplies = [0xE3] := by decide

/-- With a claimed port and with an unclaimed one, at the first byte past RAM. -/
theorem witness_InbReadsItsByteBeforeThePort : (ported 0 []).mapped 0xFFFFF = false ∧ (0x10 : Byte) ∈ (ported 0 []).config.portIn8 ∧
    (0x60 : Byte) ∉ (ported 0 []).config.portIn8 := by decide

theorem witness_OutbStoresAnswer : (0x60 : Byte) ∈ (ported 0 []).config.portOut8 ∧
    (ported 0 []).env.portReplies = [{ value := 0x7A, raises := none }] := by decide

theorem witness_UnclaimedPortFaults : (0x60 : Byte) ∉ portedShadow.config.portIn8 ∧ (0x10 : Byte) ∉ portedShadow.config.portOut8 ∧
    portedShadow.inRam 0 = true ∧ portedShadow.inRam 0xFFFFE = true ∧ portedShadow.claimed 0x3000 = true ∧
    portedShadow.claimed 0x3003 = true := by decide

/-- The first and the last opcode of the list. -/
theorem witness_UnimplementedInstructionsFault : ∃ t u : State, exec .push State.reset = .next t ∧ t.fault.opcode = 0x02 ∧
    exec .intr State.reset = .next u ∧ u.fault.opcode = 0x54 := ⟨_, _, rfl, rfl, rfl, rfl⟩

theorem witness_PushaStoresFrame : Memory.wf ({ boot [] with sp := 68 }).mem = true ∧
    ({ boot [] with sp := 68 }).ramRange (68 - 68) 68 = true ∧ ({ boot [] with sp := 0xFFFFF }).ramRange (0xFFFFF - 68) 68 = true := by
  decide

/-- The slots `PushaStopsAtAFailingPush` speaks of, and what it asks of a machine with that `SP` when push `m` fails at byte `j`. -/
def pushFails (sp : Word) (m j : Nat) : Bool :=
  let s := { boot [] with sp := sp }
  let slot := fun k => sp - BitVec.ofNat 32 (widthOf ((pushaOrder.take (k + 1)).map Saved.size))
  (List.range m).all (fun k => (pushaOrder[k]?).any fun y => s.ramRange (slot k) y.size.bytes) &&
    (pushaOrder[m]?).any fun x => s.firstUnmapped (slot m) x.size.bytes j

/-- The first push, at its first and its last byte; the second; the last, at its first byte. -/
theorem witness_PushaStopsAtAFailingPush : Memory.wf (boot []).mem = true ∧
    (pushFails 0 0 0 && pushFails 0x100002 0 1 && pushFails 4 1 0 && pushFails 64 17 0) = true := by decide

/-- The frame of 95_test_vectors.md 2.10. -/
theorem witness_PopaLoadsRegisterSet :
    ({ boot [] with sp := 0x2000, mem := put [] 0x2004 [0x08, 0x20] }).ramValue (0x2000 + 4) .qword = 0x2008 ∧
    ({ boot [] with sp := 0x2000, mem := put [] 0x2004 [0x08, 0x20] }).ramRange 0x2000 8 = true ∧
    ({ boot [] with sp := 0x2000, mem := put [] 0x2004 [0x08, 0x20] }).ramRange 0x2008 60 = true := by decide

/-- What `PopaStopsAtAFailingPop` asks of a machine with this `SP`, and this value in the slot of the popped `SP`, when pop `m` fails at
byte `j`. -/
def popFails (sp popped : Word) (m j : Nat) : Bool :=
  let s := { boot [] with sp := sp, mem := put [] (sp.toNat + 4) (leBytes .qword popped) }
  let order := pushaOrder.reverse
  let slot := fun k => match k with
    | 0 => sp
    | 1 => sp + 4
    | k + 2 => s.ramValue (sp + 4) .qword + BitVec.ofNat 32 (widthOf (((order.drop 2).take k).map Saved.size))
  (List.range m).all (fun k => (order[k]?).any fun y => s.ramRange (slot k) y.size.bytes) &&
    (order[m]?).any fun x => s.firstUnmapped (slot m) x.size.bytes j

/-- The first pop at its last byte, the second at its first, the third and the last at the popped `SP`. -/
theorem witness_PopaStopsAtAFailingPop :
    (popFails 0xFFFFC 0 0 3 && popFails 0xFFFFB 0 1 0 && popFails 0x2000 0xFFFFF 2 0 && popFails 0x2000 0xFFFC7 17 0 &&
     popFails 0x2000 0xFFFC4 17 3) = true := by decide

theorem witness_PushaThenPopaRestoresRegisterSet : Memory.wf ({ boot [] with sp := 68 }).mem = true ∧
    ({ boot [] with sp := 68 }).ramRange (68 - 68) 68 = true ∧
    ∃ (t u : State), exec .pusha { boot [] with sp := 68 } = .next t ∧ u.sp = t.sp ∧ u.config = t.config ∧
      ∀ a ∈ addrsFrom t.sp 68, u.ramByte a = t.ramByte a := ⟨by decide, by decide, _, _, rfl, rfl, rfl, fun _ _ => rfl⟩

theorem witness_FaultRecordNamesTheInstruction : ∃ t, exec .sub State.reset = .next t ∧ t.fault ≠ State.reset.fault :=
  ⟨_, rfl, by decide⟩

/-- `pending` with interrupts enabled. -/
def due : State := { pending with ie := true }

theorem witness_InterruptEntrySavesAndVectors : Memory.wf due.mem = true ∧ due.ipend = true ∧ due.ie = true ∧ due.idtSet = true ∧
    due.ramRange (due.sp - 8) 8 = true ∧ due.ramRange (due.idtBase + 4 * due.iline.setWidth 32) 4 = true ∧
    ({ due with sp := 8, iline := 0xFF }).ramRange (8 - 8) 8 = true ∧
    ({ due with iline := 0xFF }).ramRange (0x100 + 4 * 0xFF) 4 = true := by decide

/-- The first push at its first and its last byte, the second, and the descriptor read. -/
theorem witness_InterruptEntryStopsAtABusError : Memory.wf due.mem = true ∧ due.ipend = true ∧ due.ie = true ∧ due.idtSet = true ∧
    ({ due with sp := 0 }).firstUnmapped (0 - 4) 4 0 = true ∧ ({ due with sp := 0x100000 }).firstUnmapped (0x100000 - 4) 4 3 = true ∧
    ({ due with sp := 4 }).ramRange (4 - 4) 4 = true ∧ ({ due with sp := 4 }).firstUnmapped (4 - 8) 4 0 = true ∧
    due.ramRange (0x1000 - 8) 8 = true ∧ ({ due with idtBase := 0xFFFFB }).firstUnmapped (0xFFFFB + 4 * 1) 4 0 = true ∧
    ({ due with idtBase := 0xFFFF8 }).firstUnmapped (0xFFFF8 + 4 * 1) 4 3 = true := by decide

theorem witness_InterruptThenIretRestores : Memory.wf due.mem = true ∧ due.ipend = true ∧ due.ie = true ∧ due.idtSet = true ∧
    due.ramRange (due.sp - 8) 8 = true ∧ due.ramRange (due.idtBase + 4 * due.iline.setWidth 32) 4 = true ∧
    ∃ u : State, u.sp = (service due).sp ∧ u.config = due.config ∧
      ∀ a ∈ addrsFrom (due.sp - 8) 8, u.ramByte a = (service due).ramByte a :=
  ⟨by decide, by decide, by decide, by decide, by decide, by decide, service due, rfl, rfl, fun _ _ => rfl⟩

theorem witness_UnsetTableFaultsAndRepeats : ({ due with idtSet := false }).ipend = true ∧ ({ due with idtSet := false }).ie = true ∧
    ({ due with idtSet := false }).idtSet = false := by decide

/-- A machine halted by HLT, with line 1 raised before the next tick. -/
def woken : State :=
  { due with ipend := false, iline := 0, status := 3, env := { Env.quiet with schedule := [[.raise 1]] } }

theorem witness_RaisedLineWakesHaltedMachine : Memory.wf woken.mem = true ∧ woken.encoding.wf = true ∧ woken.halted = true ∧
    woken.on = true ∧ woken.ie = true ∧
    woken.idtSet = true ∧ woken.clkStop = false ∧ woken.clkHalt = false ∧ woken.env.schedule = [[.raise 1]] ∧
    woken.ramRange (woken.sp - 8) 8 = true ∧ woken.ramRange (woken.idtBase + 4 * (1 : Byte).setWidth 32) 4 = true := by decide

/-- `due` with an instruction at `pc`, of which `bs` are in RAM. -/
def dueAt (pc : Word) (bs : List Byte) : State := { due with pc := pc, mem := put due.mem pc.toNat bs }

/-- What `FetchFaultThenDueInterrupt` asks of every case. -/
def dueToEnter (s : State) : Bool :=
  s.ready && s.on && s.encoding.wf && Memory.wf s.mem && s.ipend && s.ie && s.idtSet && s.ramRange (s.sp - 8) 8 &&
    s.ramRange (s.idtBase + 4 * s.iline.setWidth 32) 4

/-- An illegal encoding of one byte and one of two, the first address past RAM, and the first and the last byte of a target. -/
theorem witness_FetchFaultThenDueInterrupt :
    (dueToEnter (dueAt 0x20 [0xFF]) && rejects [0xFF] (.unimplementedOpcode 0xFF) && rejects [] .truncated &&
     (dueAt 0x20 [0xFF]).ramHolds 0x20 [0xFF] &&
     dueToEnter (dueAt 0x20 [0x10, 0x01]) && rejects [0x10, 0x01] (.impossibleMode 0x01) && rejects [0x10] .truncated &&
     (dueAt 0x20 [0x10, 0x01]).ramHolds 0x20 [0x10, 0x01] &&
     dueToEnter (dueAt 0xFFFFF []) && !(dueAt 0xFFFFF []).mapped 0xFFFFF &&
     dueToEnter (dueAt 0xFFFFD [0x31, 0x10]) && fetchFails (.jmp 0x40) 0xFFFFD 2 0 .qword &&
     (dueAt 0xFFFFD [0x31, 0x10]).ramHolds 0xFFFFD [0x31, 0x10] && (dueAt 0xFFFFD [0x31, 0x10]).firstUnmapped 0xFFFFF 4 0 &&
     dueToEnter (dueAt 0xFFFFA [0x31, 0x10]) && (dueAt 0xFFFFA [0x31, 0x10]).ramHolds 0xFFFFA [0x31, 0x10] &&
     (dueAt 0xFFFFA [0x31, 0x10]).firstUnmapped 0xFFFFC 4 3) = true := by decide

/-- The same tick, on vector P4b's encoding: the handler is entered with Fault in the saved word (60_exceptions.md R186). -/
theorem test_fault_then_entry : look (step (dueAt 0x20 [0x10, 0x01]))
    (fun t => (t.fault.kind, t.fault.info, t.status, t.pc, bytesAt t 0xFF8 5)) =
    some (.impossibleMode, 1, 0x21, 0x40, [0x21, 0, 0, 0, 0x22]) := by decide

theorem witness_HaltedMachineOnlyCountsTicks : ({ boot [] with status := 3 }).halted = true ∧ ({ boot [] with status := 3 }).on = true ∧
    (({ boot [] with status := 3 }).ipend && ({ boot [] with status := 3 }).ie) = false ∧
    ({ boot [] with status := 3 }).clkStop = false ∧ ({ boot [] with status := 3 }).clkHalt = false ∧
    ({ boot [] with status := 3 }).env.schedule = [] := by decide

/-- Halted with interrupts disabled and a raise to come, and with them enabled and none. -/
theorem witness_RestingMachineStaysAtRest :
    (let quiet := { boot [] with status := 3, ie := true }
     let masked := { quiet with ie := false, env := { Env.quiet with schedule := [[.raise 1]] } }
     quiet.atRest ∧ masked.atRest ∧ quiet.clkStop = false ∧ masked.clkStop = false ∧ quiet.clkHalt = false ∧
     masked.clkHalt = false ∧
     (∀ acts ∈ quiet.env.schedule, ∀ a ∈ acts, a.isRaise = true) ∧
     ∀ acts ∈ masked.env.schedule, ∀ a ∈ acts, a.isRaise = true) := by decide

/-- One tick that leaves On clear, and one that leaves it set. -/
theorem witness_ClearedOnStopsTheClock :
    look (step { boot [] with status := 2 }) (fun t => t.on) = some false ∧ look (step (boot [0x50])) (fun t => t.on) = some true := by
  decide

/-- The last gap, and one with another gap after it. -/
theorem witness_StoppedClockLeavesItsStateReadable :
    lastGap.env.schedule = ([] ++ .clockStop :: [.raise 3]) :: [] ∧ HostAction.reset ∉ [HostAction.raise 3] ∧
    ({ lastGap with env := { Env.quiet with schedule := [[.clockHalt, .clockStop], [.raise 1]] } }).env.schedule =
      ([.clockHalt] ++ .clockStop :: []) :: [[.raise 1]] ∧ HostAction.reset ∉ [HostAction.clockHalt] := by decide

theorem witness_HaltedClockFreezesTheMachine : ({ boot [] with clkHalt := true }).clkStop = false ∧
    ({ boot [] with clkHalt := true }).clkHalt = true ∧ ({ boot [] with clkHalt := true }).env.schedule = [] ∧
    ({ boot [] with clkHalt := true, env := { Env.quiet with schedule := [[.clockResume]] } }).env.schedule = [[.clockResume]] := by
  decide

theorem witness_StepKeepsInvariant : State.reset.invariant = true ∧ ∃ t, step State.reset = .next t := ⟨by decide, _, rfl⟩

theorem witness_ResetHasInvariant : Config.wf Config.reference = true ∧
    Config.wf { Config.reference with mem0 := [(0, 0x50), (0xFFFFE, 1)] } = true := by decide

theorem witness_HostResetGivesResetValues : ∃ t, t = applyAction (boot [0x50]) .reset := ⟨_, rfl⟩

theorem witness_ConfigurationNeverChanges : ∃ t, step (boot [0x50]) = .next t := ⟨_, rfl⟩

/-- A machine faulted by SUB, with an outside action due that is no reset. -/
def faulted : State :=
  { boot [] with
    status := 0x23
    fault := { latch := true, kind := .unimplementedOpcode, opcode := 0x11, mode := 0, addr := 0, info := 0 }
    env := { Env.quiet with schedule := [[.raise 1, .clockHalt]] } }

theorem witness_OnlyResetClearsFaultLatch : faulted.fault.latch = true ∧ HostAction.reset ∉ faulted.env.schedule.headD [] ∧
    ∃ t, step faulted = .next t := ⟨by decide, by decide, _, rfl⟩

theorem witness_ControlStateHasOnlyItsWriters : ∃ t, exec (.movRR rA rB) State.reset = .next t := ⟨_, rfl⟩

end Sys2Proof.Tests
end

section
/-! SUPPORT. The decoder and the encoder invert each other (30_encoding.md R60, R64, R69, R78), and the tables of a well-formed encoding
say exactly what their rows say (00_scope.md R6). -/

namespace Sys2Proof

variable {e : Encoding} {bs : List Byte} {x : Except Reject (Instr × List Byte)}

/-! ## Running a script over the bytes of its fields -/

/-- Every word fits in four bytes. -/
theorem fits_qword (v : Word) : Size.qword.fits v = true := decide_eq_true v.isLt

/-- A fetched field goes on with the value whose bytes stand there. -/
theorem runBytes_fetch {n : Size} {v : Word} {k : Word → Script} (hv : n.fits v = true)
    (hk : (k v).runBytes bs = x) : (Script.fetch n k).runBytes (leBytes n v ++ bs) = x := by
  simp only [Script.runBytes, takeField_leBytes, cut_of_fits hv, hk]

theorem runBytes_word {v : Word} {k : Word → Script} (hk : (k v).runBytes bs = x) :
    (Script.word k).runBytes (leBytes .qword v ++ bs) = x :=
  runBytes_fetch (fits_qword v) hk

theorem runBytes_byte {b : Byte} {k : Byte → Script} (hk : (k b).runBytes bs = x) :
    (Script.byte k).runBytes (b :: bs) = x := by
  simpa [Script.byte, Script.runBytes, takeField] using hk

theorem runBytes_reg (h : e.wf = true) {r : Reg} {k : Reg → Script} (hk : (k r).runBytes bs = x) :
    (Script.reg e k).runBytes (e.reg r :: bs) = x :=
  runBytes_byte (by simpa only [reg_of_code h] using hk)

theorem runBytes_size (h : e.wf = true) {n : Size} {k : Size → Script} (hk : (k n).runBytes bs = x) :
    (Script.size e k).runBytes (e.size n :: bs) = x :=
  runBytes_byte (by simpa only [size_of_code h] using hk)

/-- An opcode without operands decodes to its own instruction (30_encoding.md R78, step 2). -/
theorem decode_nullary (h : e.wf = true) {o : Opcode} {i : Instr} (ho : o.nullary? = some i) (rest : List Byte) :
    decode e (e.opcode o :: rest) = .ok (i, rest) :=
  runBytes_byte (by simp only [opcodeScript, opcode_of_code h, ho, Script.runBytes])

/-- Past the opcode and the mode byte the operand script runs (30_encoding.md R78, steps 2 to 5). -/
theorem decode_head (h : e.wf = true) {o : Opcode} {m : Mode} {sc : Script} (ho : o.nullary? = none)
    (hs : operandScript? e o m = some sc) (hr : sc.runBytes bs = x) :
    decode e (e.opcode o :: e.mode m :: bs) = x := by
  refine runBytes_byte ?_
  simp only [opcodeScript, opcode_of_code h, ho]
  refine runBytes_byte ?_
  simp only [modeScript, mode_of_code h, hs, hr]

/-- By the instruction's format: each field of its encoding is read back by the fetch that stands for it in its operand script. -/
theorem decode_encode (h : e.wf = true) {i : Instr} (hw : i.wf = true) (rest : List Byte) :
    decode e (encode e i ++ rest) = .ok (i, rest) := by
  cases i with
  | push | pop | pusha | popa | mmset | mmcpy | sub | div | mod | dec | and | not | shr | jle | jg | jge | ret | iret | inw | inq
  | outw | outq | hlt | sti | cli | intr => exact decode_nullary h rfl rest
  | jmp t | je t | jne t | jl t | call t | calle t | ldidt t => exact decode_head h rfl rfl (runBytes_word rfl)
  | inc r1 => exact decode_head h rfl rfl (runBytes_reg h rfl)
  | movRR r1 r2 | addRR r1 r2 | mulRR r1 r2 | orRR r1 r2 | shlRR r1 r2 | cmpRR r1 r2 =>
    exact decode_head h rfl rfl (runBytes_reg h (runBytes_reg h rfl))
  | addRI r1 v | mulRI r1 v | orRI r1 v | shlRI r1 v | cmpRI r1 v =>
    exact decode_head h rfl rfl (runBytes_reg h (runBytes_word rfl))
  | movRI n r1 v | movPI n r1 v =>
    exact decode_head h rfl rfl (runBytes_size h (runBytes_reg h (runBytes_fetch hw rfl)))
  | movRA n r1 a2 | movPA n r1 a2 => exact decode_head h rfl rfl (runBytes_size h (runBytes_reg h (runBytes_word rfl)))
  | movRP n r1 r2 | movPR n r1 r2 | movPP n r1 r2 =>
    exact decode_head h rfl rfl (runBytes_size h (runBytes_reg h (runBytes_reg h rfl)))
  | movAI n a1 v => exact decode_head h rfl rfl (runBytes_size h (runBytes_word (runBytes_fetch hw rfl)))
  | movAR n a1 r2 | movAP n a1 r2 => exact decode_head h rfl rfl (runBytes_size h (runBytes_word (runBytes_reg h rfl)))
  | movAA n a1 a2 => exact decode_head h rfl rfl (runBytes_size h (runBytes_word (runBytes_word rfl)))
  | inbII p v => exact decode_head h rfl rfl (runBytes_byte (runBytes_byte rfl))
  | inbIR p r2 => exact decode_head h rfl rfl (runBytes_byte (runBytes_reg h rfl))
  | inbIA p a2 => exact decode_head h rfl rfl (runBytes_byte (runBytes_word rfl))
  | outbRI r1 p => exact decode_head h rfl rfl (runBytes_reg h (runBytes_byte rfl))

/-! ## What a script answers was encoded by what it fetched -/

/-- Whatever the script answers after `pre` has been fetched is well formed and encoded by `pre` and the bytes the script consumes. -/
def Script.Inverts (e : Encoding) (pre : List Byte) (sc : Script) : Prop :=
  ∀ ⦃bs rest : List Byte⦄ ⦃i : Instr⦄, sc.runBytes bs = .ok (i, rest) → i.wf = true ∧ pre ++ bs = encode e i ++ rest

variable {pre : List Byte}

theorem inverts_done {i : Instr} (hw : i.wf = true) (he : encode e i = pre) : (Script.done i).Inverts e pre := by
  rintro bs rest j ⟨⟩
  exact ⟨hw, by rw [he]⟩

theorem inverts_reject (r : Reject) : (Script.reject r).Inverts e pre := fun _ _ _ hr => nomatch hr

/-- A field that is fetched is the bytes of a value that fits it. -/
theorem inverts_fetch {n : Size} {k : Word → Script} (hk : ∀ v, n.fits v = true → (k v).Inverts e (pre ++ leBytes n v)) :
    (Script.fetch n k).Inverts e pre := by
  intro bs rest i hr
  cases ht : takeField n bs with
  | none => simp [Script.runBytes, ht] at hr
  | some p =>
    obtain ⟨v, tl⟩ := p
    simp only [Script.runBytes, ht] at hr
    rw [takeField_some ht, ← List.append_assoc]
    exact hk v (takeField_fits ht) hr

theorem inverts_word {k : Word → Script} (hk : ∀ v, (k v).Inverts e (pre ++ leBytes .qword v)) : (Script.word k).Inverts e pre :=
  inverts_fetch fun v _ => hk v

theorem inverts_byte {k : Byte → Script} (hk : ∀ b, (k b).Inverts e (pre ++ [b])) : (Script.byte k).Inverts e pre :=
  inverts_fetch fun v _ => hk (v.setWidth 8)

theorem inverts_reg (h : e.wf = true) {k : Reg → Script} (hk : ∀ r, (k r).Inverts e (pre ++ [e.reg r])) :
    (Script.reg e k).Inverts e pre := by
  refine inverts_byte fun b => ?_
  split
  next r hr => exact code_of_reg h hr ▸ hk r
  next => exact inverts_reject _

theorem inverts_size (h : e.wf = true) {k : Size → Script} (hk : ∀ n, (k n).Inverts e (pre ++ [e.size n])) :
    (Script.size e k).Inverts e pre := by
  refine inverts_byte fun b => ?_
  split
  next n hn => exact code_of_size h hn ▸ hk n
  next => exact inverts_reject _

/-- An opcode without operands: one byte, one instruction. -/
theorem encode_of_nullary {o : Opcode} {i : Instr} (ho : o.nullary? = some i) : i.wf = true ∧ encode e i = [e.opcode o] := by
  cases o <;> cases ho <;> exact ⟨rfl, rfl⟩

/-- Row by row of the operand scripts; an (opcode, mode) pair without a script answers nothing. -/
theorem operandScript_inverts (h : e.wf = true) {o : Opcode} {m : Mode} {sc : Script} (hs : operandScript? e o m = some sc) :
    sc.Inverts e (encodeHead e o m) :=
  match o, m, hs with
  | .mov, .pair .reg .imm, rfl | .mov, .pair .ind .imm, rfl =>
    inverts_size h fun _ => inverts_reg h fun _ => inverts_fetch fun _ hv => inverts_done hv rfl
  | .mov, .pair .reg .reg, rfl => inverts_reg h fun _ => inverts_reg h fun _ => inverts_done rfl rfl
  | .mov, .pair .reg .abs, rfl | .mov, .pair .ind .abs, rfl =>
    inverts_size h fun _ => inverts_reg h fun _ => inverts_word fun _ => inverts_done rfl rfl
  | .mov, .pair .reg .ind, rfl | .mov, .pair .ind .reg, rfl | .mov, .pair .ind .ind, rfl =>
    inverts_size h fun _ => inverts_reg h fun _ => inverts_reg h fun _ => inverts_done rfl rfl
  | .mov, .pair .abs .imm, rfl =>
    inverts_size h fun _ => inverts_word fun _ => inverts_fetch fun _ hv => inverts_done hv rfl
  | .mov, .pair .abs .reg, rfl | .mov, .pair .abs .ind, rfl =>
    inverts_size h fun _ => inverts_word fun _ => inverts_reg h fun _ => inverts_done rfl rfl
  | .mov, .pair .abs .abs, rfl => inverts_size h fun _ => inverts_word fun _ => inverts_word fun _ => inverts_done rfl rfl
  | .add, .pair .reg .imm, rfl | .mul, .pair .reg .imm, rfl | .or, .pair .reg .imm, rfl | .shl, .pair .reg .imm, rfl
  | .cmp, .pair .reg .imm, rfl => inverts_reg h fun _ => inverts_word fun _ => inverts_done rfl rfl
  | .add, .pair .reg .reg, rfl | .mul, .pair .reg .reg, rfl | .or, .pair .reg .reg, rfl | .shl, .pair .reg .reg, rfl
  | .cmp, .pair .reg .reg, rfl => inverts_reg h fun _ => inverts_reg h fun _ => inverts_done rfl rfl
  | .inc, .single .reg, rfl => inverts_reg h fun _ => inverts_done rfl rfl
  | .jmp, .single .imm, rfl | .je, .single .imm, rfl | .jne, .single .imm, rfl | .jl, .single .imm, rfl
  | .call, .single .imm, rfl | .calle, .single .imm, rfl | .ldidt, .single .imm, rfl =>
    inverts_word fun _ => inverts_done rfl rfl
  | .inb, .pair .imm .imm, rfl => inverts_byte fun _ => inverts_byte fun _ => inverts_done rfl rfl
  | .inb, .pair .imm .reg, rfl => inverts_byte fun _ => inverts_reg h fun _ => inverts_done rfl rfl
  | .inb, .pair .imm .abs, rfl => inverts_byte fun _ => inverts_word fun _ => inverts_done rfl rfl
  | .outb, .pair .reg .imm, rfl => inverts_reg h fun _ => inverts_byte fun _ => inverts_done rfl rfl

theorem modeScript_inverts (h : e.wf = true) (o : Opcode) (b : Byte) : (modeScript e o b).Inverts e [e.opcode o, b] := by
  unfold modeScript
  split
  next => exact inverts_reject _
  next m hm =>
    split
    next sc hs => exact code_of_mode h hm ▸ operandScript_inverts h hs
    next => exact inverts_reject _

theorem opcodeScript_inverts (h : e.wf = true) (b : Byte) : (opcodeScript e b).Inverts e [b] := by
  unfold opcodeScript
  split
  next => exact inverts_reject _
  next o ho =>
    rw [← code_of_opcode h ho]
    split
    next i hi =>
      obtain ⟨hw, he⟩ := encode_of_nullary (e := e) hi
      exact inverts_done hw he
    next => exact inverts_byte (modeScript_inverts h o)

/-- The whole decode, from before the opcode byte. -/
theorem decodeScript_inverts (h : e.wf = true) : (decodeScript e).Inverts e [] := inverts_byte (opcodeScript_inverts h)

/-- Settles O1, by the formats of the instructions (`decode_encode`). -/
theorem decodeInvertsEncode : Obligations.DecodeInvertsEncode := fun _ _ rest h hw => decode_encode h hw rest

/-- Settles O2, by the rule `Script.Inverts` over the decode script (`decodeScript_inverts`). -/
theorem encodeInvertsDecode : Obligations.EncodeInvertsDecode := fun _ _ _ _ h hd => decodeScript_inverts h hd

/-! ## The rows of the tables, and the spec's own numbers -/

open Machine

theorem fault_all (k : FaultKind) : k ∈ FaultKind.all := by cases k <;> decide

theorem fault_all_nodup : FaultKind.all.Nodup := by decide

/-- A table with one row for each name, and no number twice, says in both directions what its rows say. -/
theorem rows_of_tableWf {α : Type} [DecidableEq α] {w : Nat} {names : List α} {t : List (α × BitVec w)} (hn : names.Nodup)
    (h : tableWf names t = true) {x : α} (hx : x ∈ names) (b : BitVec w) :
    (codeOf t x = b ↔ (x, b) ∈ t) ∧ (nameOf? t b = some x ↔ (x, b) ∈ t) := by
  obtain ⟨rfl, hv⟩ := tableWf_iff.1 h
  exact table_rows hn hv hx b

theorem opcode_rows (h : e.wf = true) (o : Opcode) (b : Byte) :
    (e.opcode o = b ↔ (o, b) ∈ e.opcodes) ∧ (e.opcode? b = some o ↔ (o, b) ∈ e.opcodes) :=
  have ⟨ht, _⟩ := encoding_wf h
  rows_of_tableWf opcode_all_nodup ht (opcode_all o) b

theorem mode_rows (h : e.wf = true) (m : Mode) (b : Byte) :
    (e.mode m = b ↔ (m, b) ∈ e.modes) ∧ (e.mode? b = some m ↔ (m, b) ∈ e.modes) :=
  have ⟨_, ht, _⟩ := encoding_wf h
  rows_of_tableWf mode_all_nodup ht (mode_all m) b

theorem reg_rows (h : e.wf = true) (r : Reg) (b : Byte) :
    (e.reg r = b ↔ (r, b) ∈ e.regs) ∧ (e.reg? b = some r ↔ (r, b) ∈ e.regs) :=
  have ⟨_, _, ht, _⟩ := encoding_wf h
  rows_of_tableWf reg_all_nodup ht (reg_all r) b

theorem size_rows (h : e.wf = true) (n : Size) (b : Byte) :
    (e.size n = b ↔ (n, b) ∈ e.sizes) ∧ (e.size? b = some n ↔ (n, b) ∈ e.sizes) :=
  have ⟨_, _, _, ht, _⟩ := encoding_wf h
  rows_of_tableWf size_all_nodup ht (size_all n) b

theorem fault_rows (h : e.wf = true) (k : FaultKind) (c : BitVec 4) : e.fault k = c ↔ (k, c) ∈ e.faults :=
  have ⟨_, _, _, _, ht, _⟩ := encoding_wf h
  (rows_of_tableWf fault_all_nodup ht (fault_all k) c).1

/-- The spec's own numbers tell every name from every other (00_scope.md R6). -/
theorem spec_wf : Encoding.spec.wf = true := by decide

/-- A host write of a status bit changes that bit alone (10_state.md R22). -/
theorem hostStatus_set (s : State) (b : HostStatusBit) :
    (applyAction s (.status b true)).status = setBit s.status (b.index s.bits) := rfl

theorem hostStatus_clear (s : State) (b : HostStatusBit) :
    (applyAction s (.status b false)).status = clearBit s.status (b.index s.bits) := rfl

/-- Settles O4: the lists written out are the rows of `Encoding.spec`, and the rest is read at the positions of `StatusBits.spec` and
`FlagBits.spec`. -/
theorem specNumbersAreTheDefaults : Obligations.SpecNumbersAreTheDefaults := by
  refine ⟨rfl, rfl, rfl, rfl, rfl, spec_wf, opcode_rows spec_wf, mode_rows spec_wf, reg_rows spec_wf, size_rows spec_wf,
    fault_rows spec_wf, rfl, rfl, fun s hs => ?_⟩
  have hbits : s.bits = StatusBits.spec := congrArg Encoding.status hs
  have hflags : s.config.encoding.flags = FlagBits.spec := congrArg Encoding.flags hs
  refine ⟨?_, ?_, ?_, ?_, ?_, ?_, ?_, faultStatus_spec hbits, wakeStatus_spec hbits, fun c => ?_, fun b k hbk => ?_⟩
  · rw [State.zero, hflags]; rfl
  · rw [State.underflow, hflags]; rfl
  · rw [State.overflow, hflags]; rfl
  · rw [State.parity, hflags]; rfl
  · rw [State.on, hbits]; rfl
  · rw [State.halted, hbits]; rfl
  · rw [State.faultBit, hbits]; rfl
  · rw [State.faultCode, show s.config.encoding = Encoding.spec from hs]
    exact fault_rows spec_wf s.fault.kind c
  · rw [hostStatus_set, hostStatus_clear, hbits]
    have hk : b.index StatusBits.spec = k := by
      simp only [List.mem_cons, Prod.mk.injEq, List.not_mem_nil, or_false] at hbk
      obtain ⟨rfl, rfl⟩ | ⟨rfl, rfl⟩ | ⟨rfl, rfl⟩ | ⟨rfl, rfl⟩ | ⟨rfl, rfl⟩ | ⟨rfl, rfl⟩ := hbk <;> rfl
    rw [hk]
    exact ⟨rfl, rfl⟩

end Sys2Proof
end

section
/-! SUPPORT. The views of a general register (10_state.md R12 to R15): what a view reads is a field of the full view, two adjacent views
are one wider view, and writes through views that share no bit do not disturb each other. -/

namespace Sys2Proof

/-! ## Adjacent views -/

/-- A view reads the bits from its lowest one up, as many as it is wide (10_state.md R12, R14). -/
theorem view_read_toNat (v : View) (g : Word) : (v.read g).toNat = g.toNat / 2 ^ v.low % 2 ^ v.width := by
  have hw : 2 ^ v.width ≤ 2 ^ 32 := Nat.pow_le_pow_right (by decide) (by cases v <;> decide)
  rw [View.read, BitVec.toNat_setWidth, BitVec.extractLsb'_toNat, Nat.shiftRight_eq_div_pow]
  exact Nat.mod_eq_of_lt ((Nat.mod_lt _ (Nat.two_pow_pos _)).trans_le hw)

/-- `w` is the view `u` standing right above the view `v` (10_state.md R12). -/
def View.Joins (w u v : View) : Prop := w.low = v.low ∧ u.low = v.low + v.width ∧ w.width = v.width + u.width

theorem full_joins : View.full.Joins .h .l := ⟨rfl, rfl, rfl⟩
theorem h_joins : View.h.Joins .hh .hl := ⟨rfl, rfl, rfl⟩
theorem l_joins : View.l.Joins .lh .ll := ⟨rfl, rfl, rfl⟩

/-- A view that two views make up reads as both, the upper one shifted past the lower one (10_state.md R13). -/
theorem view_read_join {w u v : View} (h : w.Joins u v) (g : Word) : w.read g = (u.read g <<< v.width) ||| v.read g := by
  obtain ⟨hlow, hup, hwidth⟩ := h
  apply BitVec.eq_of_getLsbD_eq
  intro i hi
  rw [BitVec.getLsbD_or, BitVec.getLsbD_shiftLeft, view_read_bit w g i hi, view_read_bit v g i hi]
  by_cases hv : i < v.width
  · simp [hv, hlow, hwidth, Nat.lt_add_right]
  · rw [view_read_bit u g (i - v.width) (by omega), hup, hlow, hwidth, show v.low + v.width + (i - v.width) = v.low + i by omega]
    simp [hv, hi, show i - v.width < u.width ↔ i < v.width + u.width by omega]

/-- The same, in numbers. -/
theorem view_read_join_toNat {w u v : View} (h : w.Joins u v) (g : Word) :
    (w.read g).toNat = (u.read g).toNat * 2 ^ v.width + (v.read g).toNat := by
  obtain ⟨hlow, hup, hwidth⟩ := h
  rw [view_read_toNat, view_read_toNat, view_read_toNat, hlow, hup, hwidth, pow_add, pow_add, Nat.mod_mul, Nat.div_div_eq_div_mul]
  ring

namespace Machine

variable (s : State) (r : GReg)

/-! ## Register operands that are views -/

theorem readReg_join {w u v : View} (h : w.Joins u v) :
    s.readReg (.view r w) = (s.readReg (.view r u) <<< v.width) ||| s.readReg (.view r v) := view_read_join h _

theorem readReg_join_toNat {w u v : View} (h : w.Joins u v) :
    (s.readReg (.view r w)).toNat = (s.readReg (.view r u)).toNat * 2 ^ v.width + (s.readReg (.view r v)).toNat :=
  view_read_join_toNat h _

/-- Every view is a field of the full view (10_state.md R12). -/
theorem readReg_view_toNat (v : View) :
    (s.readReg (.view r v)).toNat = (s.readReg (.view r .full)).toNat / 2 ^ v.low % 2 ^ v.width := by
  rw [State.readReg, State.readReg, view_read_full, view_read_toNat]

/-- The full view is its four quarters (10_state.md R13). -/
theorem readReg_full_quarters :
    s.readReg (.view r .full) =
      (s.readReg (.view r .hh) <<< 24) ||| (s.readReg (.view r .hl) <<< 16) |||
        (s.readReg (.view r .lh) <<< 8) ||| s.readReg (.view r .ll) := by
  rw [readReg_join s r full_joins, readReg_join s r h_joins, readReg_join s r l_joins]
  simp only [View.width, BitVec.shiftLeft_or_distrib, ← BitVec.shiftLeft_add, BitVec.or_assoc]

/-- What a view reads after a write of the full view (10_state.md R12, R15). -/
theorem readReg_write_full_toNat (v : View) (w : Word) :
    ((s.writeReg (.view r .full) w).readReg (.view r v)).toNat = w.toNat / 2 ^ v.low % 2 ^ v.width := by
  rw [readReg_view_toNat, readReg_writeReg_same, Reg.width, View.width, Nat.mod_eq_of_lt w.isLt]

/-- A write of the upper of two adjacent views leaves the lower one (10_state.md R15). -/
theorem readReg_write_upper_toNat {w u v : View} (h : w.Joins u v) (x : Word) :
    ((s.writeReg (.view r u) x).readReg (.view r w)).toNat =
      x.toNat % 2 ^ u.width * 2 ^ v.width + (s.readReg (.view r v)).toNat := by
  have hv : (Reg.view r v).apart (.view r u) = true := by simp [Reg.apart, h.2.1]
  rw [readReg_join_toNat _ r h, readReg_writeReg_same, readReg_writeReg_apart x hv, Reg.width]

/-- A write of the lower of two adjacent views leaves the upper one (10_state.md R15). -/
theorem readReg_write_lower_toNat {w u v : View} (h : w.Joins u v) (x : Word) :
    ((s.writeReg (.view r v) x).readReg (.view r w)).toNat =
      (s.readReg (.view r u)).toNat * 2 ^ v.width + x.toNat % 2 ^ v.width := by
  have hu : (Reg.view r u).apart (.view r v) = true := by simp [Reg.apart, h.2.1]
  rw [readReg_join_toNat _ r h, readReg_writeReg_same, readReg_writeReg_apart x hu, Reg.width]

/-! ## Bytes written through several views -/

/-- Bytes written through views of one register, in their order. -/
def State.writeViews (ws : List (View × Byte)) : State := ws.foldl (fun u p => u.writeReg (.view r p.1) (p.2.setWidth 32)) s

theorem apart_comm {q p : Reg} (h : q.apart p = true) : p.apart q = true := by
  cases q <;> cases p <;> simp only [Reg.apart, Bool.or_eq_true, bne_iff_ne, decide_eq_true_eq] at h ⊢
  · obtain (h | h) | h := h
    · exact .inl (.inl h.symm)
    · exact .inr h
    · exact .inl (.inr h)
  · exact h.symm

variable {s r}

/-- A register operand that shares no bit with any of the views reads as before. -/
theorem readReg_writeViews_apart {q : Reg} {ws : List (View × Byte)} (h : ∀ p ∈ ws, q.apart (.view r p.1) = true) :
    (s.writeViews r ws).readReg q = s.readReg q := by
  induction ws generalizing s with
  | nil => rfl
  | cons p ws ih =>
    obtain ⟨hp, hws⟩ := List.forall_mem_cons.1 h
    exact (ih hws).trans (readReg_writeReg_apart _ hp)

/-- Of views that share no bit, each reads back the low bits of the byte written through it. -/
theorem readReg_writeViews_mem {v : View} {b : Byte} {ws : List (View × Byte)}
    (hws : ws.Pairwise fun p q => (Reg.view r p.1).apart (.view r q.1) = true) (hmem : (v, b) ∈ ws) :
    (s.writeViews r ws).readReg (.view r v) = ((b.setWidth 32).setWidth v.width).setWidth 32 := by
  induction ws generalizing s with
  | nil => cases hmem
  | cons p ws ih =>
    obtain ⟨hp, hws⟩ := List.pairwise_cons.1 hws
    obtain rfl | hmem := List.mem_cons.1 hmem
    · refine (readReg_writeViews_apart hp).trans ?_
      simp only [State.readReg, State.writeReg, State.setGpr_gpr, gprs_get_set_same, view_read_write]
    · exact ih hws hmem

/-- The four quarters, written in any order, make up the full view (10_state.md R13, R15). -/
theorem readReg_full_writeViews {b0 b1 b2 b3 : Byte} {ws : List (View × Byte)}
    (h : ws.Perm [(.ll, b0), (.lh, b1), (.hl, b2), (.hh, b3)]) :
    (s.writeViews r ws).readReg (.view r .full) =
      (b3.setWidth 32 <<< 24) ||| (b2.setWidth 32 <<< 16) ||| (b1.setWidth 32 <<< 8) ||| b0.setWidth 32 := by
  have hws : ws.Pairwise fun p q => (Reg.view r p.1).apart (.view r q.1) = true :=
    (h.pairwise_iff apart_comm).2 (by simp [Reg.apart, View.low, View.width])
  have quarter {v : View} {b : Byte} (hw : v.width = 8) (hv : (v, b) ∈ [(.ll, b0), (.lh, b1), (.hl, b2), (.hh, b3)]) :
      (s.writeViews r ws).readReg (.view r v) = b.setWidth 32 := by
    rw [readReg_writeViews_mem hws (h.mem_iff.2 hv), hw, BitVec.setWidth_setWidth_of_le b (by decide), BitVec.setWidth_eq]
  rw [readReg_full_quarters, quarter (b := b3) rfl (by simp), quarter (b := b2) rfl (by simp), quarter (b := b1) rfl (by simp),
    quarter (b := b0) rfl (by simp)]

/-- Settles O9: the quarters make up the full view, and each is a field of it. -/
theorem quarterViewsAliasFullView : Obligations.QuarterViewsAliasFullView := by
  intro s r
  refine ⟨readReg_full_quarters s r, fun _ _ _ _ _ h => readReg_full_writeViews h, fun v => ⟨?_, ?_, ?_, ?_⟩⟩ <;>
    rw [readReg_write_full_toNat] <;> simp only [View.low, View.width] <;> omega

/-- Settles O10: each wider view is two adjacent ones, and a write of one half leaves the other. -/
theorem halfViewsAliasFullView : Obligations.HalfViewsAliasFullView := by
  intro s r
  refine ⟨?_, ?_, ?_, fun v => ⟨?_, ?_, ?_, ?_⟩⟩
  · simpa only [View.width] using readReg_join s r full_joins
  · simpa only [View.width] using readReg_join s r h_joins
  · simpa only [View.width] using readReg_join s r l_joins
  · rw [readReg_write_full_toNat]
    simp only [View.low, View.width]
    omega
  · rw [readReg_write_full_toNat]
    simp only [View.low, View.width]
    omega
  · rw [readReg_write_upper_toNat s r full_joins, readReg_view_toNat s r .l]
    simp only [View.low, View.width]
    omega
  · rw [readReg_write_lower_toNat s r full_joins, readReg_view_toNat s r .h]
    simp only [View.low, View.width]
    omega

/-- Settles O11: the laws of register operands, and one frame lemma for each field that no register write reaches. -/
theorem registerWriteKeepsLowBits : Obligations.RegisterWriteKeepsLowBits := by
  intro s r w
  refine ⟨readReg_writeReg_same s r w, fun q hq => readReg_writeReg_apart w hq, ?_, ?_, sameMemory_of (s.writeReg_mem r w),
    s.writeReg_env r w⟩
  · exact ⟨s.writeReg_flags r w, s.writeReg_clocks r w⟩
  · simp [State.sameSystem, State.sameStatus, State.sameInterrupts, State.sameClock]

end Machine

end Sys2Proof
end

section
/-! SUPPORT. Invariants of the whole machine and the writers of its control state (10_state.md R20 to R32; 60_exceptions.md R171): what
an instruction or a step keeps follows from what it reads off two projections of the state, which most updates leave alone. -/

namespace Sys2Proof.Machine

/-! ## The part of the state that only few updates reach -/

/-- The control state, the memory and the configuration: everything but the registers, the stack pointer, the interrupt slot and the
environment, which stand at their reset values. -/
def State.control (s : State) : State :=
  { s with gpr := GPRs.reset, cs := 0, ds := 0, ss := 0, pc := 0, sp := 0, bp := 0, ipend := false, iline := 0, env := Env.quiet }

/-- What the invariants read: the memory, the fault record, the table pointer and the configuration. -/
def State.guarded (s : State) : State :=
  { s.control with flags := 0, clocks := 0, status := 0, ie := false, ticks := 0, clkHalt := false, clkStop := false }

@[simp] theorem control_setMem (s : State) (m : Memory) : (s.setMem m).control = s.control.setMem m := rfl
@[simp] theorem control_setEnv (s : State) (e : Env) : (s.setEnv e).control = s.control := rfl
@[simp] theorem control_setGpr (s : State) (r : GReg) (v : Word) : (s.setGpr r v).control = s.control := rfl
@[simp] theorem control_setSpecial (s : State) (r : SReg) (v : Word) : (s.setSpecial r v).control = s.control := by cases r <;> rfl
@[simp] theorem control_setPc (s : State) (v : Word) : (s.setPc v).control = s.control := rfl
@[simp] theorem control_setSp (s : State) (v : Word) : (s.setSp v).control = s.control := rfl
@[simp] theorem control_writeReg (s : State) (r : Reg) (v : Word) : (s.writeReg r v).control = s.control := by
  cases r with
  | view g u => exact control_setGpr s g _
  | special g => exact control_setSpecial s g v
@[simp] theorem control_raiseLine (s : State) (line : Byte) : (s.raiseLine line).control = s.control := by rw [raiseLine_eq]; rfl
@[simp] theorem control_handlerRaise (s : State) (r : Option Byte) : (s.handlerRaise r).control = s.control := by
  rw [handlerRaise_eq]; rfl

theorem guarded_of_control {s t : State} (h : t.control = s.control) : t.guarded = s.guarded := by
  simp only [State.guarded, h]

/-- A host action other than the reset reaches none of what the invariants read (60_exceptions.md R198). -/
theorem applyAction_guarded {s : State} {a : HostAction} (ha : a ≠ .reset) : (applyAction s a).guarded = s.guarded := by
  cases a with
  | raise line => exact guarded_of_control (control_raiseLine s line)
  | status b v => cases v <;> rfl
  | clockHalt | clockResume | clockStop => rfl
  | reset => exact absurd rfl ha

/-! ## What is kept by an instruction and by a step -/

section
variable {P : State → Prop}

/-- What is read off the control state, and kept by stores to RAM, is kept by every execute phase. -/
theorem phaseKeeps_of_control (hread : ∀ s, P s.control ↔ P s)
    (hmem : ∀ s (a : Word) v, a.toNat < s.config.memSize → P s → P (s.setMem (memSet s.mem a.toNat v))) : PhaseKeeps P :=
  have keep {s t : State} (h : t.control = s.control) (hs : P s) : P t := (hread t).1 (h ▸ (hread s).2 hs)
  { mem := hmem
    env := fun s e _ => keep (control_setEnv s e)
    reg := fun s r w => keep (control_writeReg s r w)
    gpr := fun s r w => keep (control_setGpr s r w)
    special := fun s r w => keep (control_setSpecial s r w)
    pc := fun s v => keep (control_setPc s v)
    sp := fun s v => keep (control_setSp s v)
    raise := fun s r => keep (control_handlerRaise s r) }

/-- What is read off the guarded part, and kept by the three updates that reach it, is kept by every tick. -/
theorem tickKeeps_of_guarded (hread : ∀ s, P s.guarded ↔ P s)
    (hmem : ∀ s (a : Word) v, a.toNat < s.config.memSize → P s → P (s.setMem (memSet s.mem a.toNat v)))
    (hidt : ∀ s v, P s → P (s.setIdt v))
    (hfault : ∀ s o k info, k ≠ .none → P s → P (s.raiseFault o k info)) : TickKeeps P :=
  have keep {s t : State} (h : t.guarded = s.guarded) (hs : P s) : P t := (hread t).1 (h ▸ (hread s).2 hs)
  { phaseKeeps_of_control (fun s => (hread s.control).symm.trans (hread s)) hmem with
    flags := fun _ _ => keep rfl
    clocks := fun _ _ => keep rfl
    status := fun _ _ => keep rfl
    ie := fun _ _ => keep rfl
    idt := hidt
    clear := fun _ => keep rfl
    fault := hfault
    count := fun _ => keep rfl
    stop := fun _ => keep rfl }

/-- A step keeps what every tick keeps and is read off the guarded part, where a reset that is due keeps it (60_exceptions.md R198). -/
theorem step_keeps_guarded (hread : ∀ s, P s.guarded ↔ P s) (hP : TickKeeps P) {s t : State}
    (hreset : HostAction.reset ∈ s.env.schedule.headD [] → ∀ u, P u → P u.hostReset) (h : P s) (he : step s = .next t) : P t := by
  have keep {s t : State} (h : t.guarded = s.guarded) (hs : P s) : P t := (hread t).1 (h ▸ (hread s).2 hs)
  refine step_holds hP (fun _ _ => keep rfl) (fun a ha u hu => ?_) h he
  by_cases hr : a = .reset
  · subst hr
    exact hreset ha u hu
  · exact keep (applyAction_guarded hr) hu

/-- An instruction keeps what is read off the control state and does not depend on the fault it may end with, where the writers of the
control fields keep it. -/
theorem exec_keeps_control (hread : ∀ s, P s.control ↔ P s)
    (hmem : ∀ s (a : Word) v, a.toNat < s.config.memSize → P s → P (s.setMem (memSet s.mem a.toNat v)))
    (hfault : ∀ s o k info, P s → P (s.raiseFault o k info)) (i : Instr)
    (hflags : (∃ r v, i = .cmpRI r v) ∨ (∃ r q, i = .cmpRR r q) ∨ i = .popa → ∀ s v, P s → P (s.setFlags v))
    (hclocks : i = .popa → ∀ s v, P s → P (s.setClocks v))
    (hstatus : i = .hlt ∨ i = .iret → ∀ s v, P s → P (s.setStatus v))
    (hie : i = .sti ∨ i = .cli → ∀ s v, P s → P (s.setIe v))
    (hidt : (∃ t, i = .ldidt t) → ∀ s v, P s → P (s.setIdt v))
    {s t : State} (h : P s) (he : exec i s = .next t) : P t := by
  obtain ⟨u, hu, rfl | ⟨k, info, -, rfl⟩⟩ :=
    exec_keeps (phaseKeeps_of_control hread hmem) i hflags hclocks hstatus hie hidt h he
  · exact hu
  · exact hfault _ _ _ _ hu

end

/-! ## The invariant (10_state.md R26, R27, R32; 20_memory.md R40, R48) -/

theorem invariant_iff (s : State) :
    s.invariant = true ↔ s.memoryOk = true ∧ s.faultRecordOk = true ∧ s.idtOk = true := by
  simp only [State.invariant, Bool.and_eq_true, and_assoc]

theorem memoryOk_iff (s : State) :
    s.memoryOk = true ↔ Memory.wf s.mem = true ∧ memBelow s.config.memSize s.mem = true ∧ Config.wf s.config = true := by
  simp only [State.memoryOk, Bool.and_eq_true, and_assoc]

/-- A well-formed platform starts with canonical memory that lies in RAM. -/
theorem config_wf_mem0 {k : Config} (h : Config.wf k = true) : Memory.wf k.mem0 = true ∧ memBelow k.memSize k.mem0 = true := by
  simp only [Config.wf, Bool.and_eq_true] at h
  obtain ⟨⟨-, hwf⟩, hbelow⟩ := h
  exact ⟨hwf, hbelow⟩

/-- A store at an address of RAM keeps memory canonical and in range (20_memory.md R40, R43). -/
theorem invariant_setMem {s : State} {a : Word} (v : Byte) (ha : a.toNat < s.config.memSize) (h : s.invariant = true) :
    (s.setMem (memSet s.mem a.toNat v)).invariant = true := by
  obtain ⟨hm, hf, hi⟩ := (invariant_iff s).1 h
  obtain ⟨hwf, hbelow, hc⟩ := (memoryOk_iff s).1 hm
  exact (invariant_iff _).2 ⟨(memoryOk_iff _).2 ⟨memSet_wf _ _ v hwf, memSet_below _ v hbelow ha, hc⟩, hf, hi⟩

/-- LDIDT leaves the table set (10_state.md R26). -/
theorem invariant_setIdt {s : State} (v : Word) (h : s.invariant = true) : (s.setIdt v).invariant = true := by
  obtain ⟨hm, hf, -⟩ := (invariant_iff s).1 h
  exact (invariant_iff _).2 ⟨hm, hf, rfl⟩

/-- A fault latches with a kind of its own (10_state.md R27; 60_exceptions.md R171). -/
theorem invariant_raiseFault {s : State} (o : Origin) {k : FaultKind} (info : Word) (hk : k ≠ .none) (h : s.invariant = true) :
    (s.raiseFault o k info).invariant = true := by
  obtain ⟨hm, -, hi⟩ := (invariant_iff s).1 h
  exact (invariant_iff _).2 ⟨hm, bne_iff_ne.2 hk, hi⟩

theorem resetOn_invariant {k : Config} (e : Env) (h : Config.wf k = true) : (State.resetOn k e).invariant = true := by
  obtain ⟨hwf, hbelow⟩ := config_wf_mem0 h
  exact (invariant_iff _).2 ⟨(memoryOk_iff _).2 ⟨hwf, hbelow, h⟩, rfl, rfl⟩

theorem invariant_tickKeeps : TickKeeps fun s => s.invariant = true :=
  tickKeeps_of_guarded (fun _ => Iff.rfl) (fun _ _ v ha h => invariant_setMem v ha h) (fun _ v h => invariant_setIdt v h)
    fun _ o _ info hk h => invariant_raiseFault o info hk h

/-- Settles O52: every update of a tick keeps the invariant, and a reset establishes it again. -/
theorem stepKeepsInvariant : Obligations.StepKeepsInvariant := fun _ _ h he =>
  step_keeps_guarded (fun _ => Iff.rfl) invariant_tickKeeps
    (fun _ u hu => resetOn_invariant u.env ((memoryOk_iff u).1 ((invariant_iff u).1 hu).1).2.2) h he

theorem reference_wf : Config.wf Config.reference = true := by
  simp only [Config.wf, Config.reference, spec_wf]
  decide

/-- Settles O53, by `resetOn_invariant`. -/
theorem resetHasInvariant : Obligations.ResetHasInvariant :=
  ⟨resetOn_invariant _ reference_wf, fun _ e h => resetOn_invariant e h⟩

/-- Settles O54: no update of a tick names the configuration, and the reset takes it over. -/
theorem configurationNeverChanges : Obligations.ConfigurationNeverChanges := fun s _ he =>
  have hread (u : State) : u.guarded.config = s.config ↔ u.config = s.config := Iff.rfl
  step_keeps_guarded (P := fun u => u.config = s.config) hread
    (tickKeeps_of_guarded hread (fun _ _ _ _ h => h) (fun _ _ h => h) (fun _ _ _ _ _ h => h)) (fun _ _ h => h) rfl he

/-- Settles O55: in a tick a fault record is only ever replaced by a latched one. -/
theorem onlyResetClearsFaultLatch : Obligations.OnlyResetClearsFaultLatch := fun _ _ hl hr he =>
  have hread (u : State) : u.guarded.fault.latch = true ↔ u.fault.latch = true := Iff.rfl
  step_keeps_guarded (P := fun u => u.fault.latch = true) hread
    (tickKeeps_of_guarded hread (fun _ _ _ _ h => h) (fun _ _ h => h) (fun _ _ _ _ _ _ => rfl)) (fun h => absurd h hr) hl he

/-! ## The fault record (60_exceptions.md R171) -/

/-- An instruction leaves the fault record as it was, or the state is the one its own fault leaves. -/
theorem exec_fault {i : Instr} {s t : State} (he : exec i s = .next t) :
    t.fault = s.fault ∨
      ∃ u k info, k ≠ .none ∧ t = State.raiseFault u (originOf (encode s.config.encoding i) s.pc) k info := by
  obtain ⟨u, hu, rfl | ⟨k, info, hk, rfl⟩⟩ :=
    exec_keeps (P := fun u => u.fault = s.fault) (phaseKeeps_of_control (fun _ => Iff.rfl) fun _ _ _ _ h => h) i
      (fun _ _ _ h => h) (fun _ _ _ h => h) (fun _ _ _ h => h) (fun _ _ _ h => h) (fun _ _ _ h => h) rfl he
  · exact .inl hu
  · exact .inr ⟨u, k, info, hk, rfl⟩

/-- Settles O40, by `exec_fault` and the bits of `State.faultStatus`. -/
theorem faultRecordNamesTheInstruction : Obligations.FaultRecordNamesTheInstruction := by
  intro i s t he
  obtain h | ⟨u, k, info, hk, rfl⟩ := exec_fault he
  · exact .inl h
  · obtain ⟨hhalted, hfault, -⟩ := faultStatus_bits u
    exact .inr ⟨rfl, hk, rfl, rfl, rfl, hhalted, hfault⟩

/-! ## The writers of the control state (10_state.md R20 to R30) -/

section
variable {i : Instr} {s t : State} (he : exec i s = .next t)
include he

theorem exec_flags (hRI : ∀ r v, i ≠ .cmpRI r v) (hRR : ∀ r q, i ≠ .cmpRR r q) (hpopa : i ≠ .popa) : t.flags = s.flags :=
  exec_keeps_control (P := fun u => u.flags = s.flags) (fun _ => Iff.rfl) (fun _ _ _ _ h => h) (fun _ _ _ _ h => h) i
    (by rintro (⟨r, v, h⟩ | ⟨r, q, h⟩ | h); exacts [absurd h (hRI r v), absurd h (hRR r q), absurd h hpopa])
    (fun _ _ _ h => h) (fun _ _ _ h => h) (fun _ _ _ h => h) (fun _ _ _ h => h) rfl he

theorem exec_clocks (hpopa : i ≠ .popa) : t.clocks = s.clocks :=
  exec_keeps_control (P := fun u => u.clocks = s.clocks) (fun _ => Iff.rfl) (fun _ _ _ _ h => h) (fun _ _ _ _ h => h) i
    (fun _ _ _ h => h) (fun h => absurd h hpopa) (fun _ _ _ h => h) (fun _ _ _ h => h) (fun _ _ _ h => h) rfl he

theorem exec_ie (hsti : i ≠ .sti) (hcli : i ≠ .cli) : t.ie = s.ie :=
  exec_keeps_control (P := fun u => u.ie = s.ie) (fun _ => Iff.rfl) (fun _ _ _ _ h => h) (fun _ _ _ _ h => h) i
    (fun _ _ _ h => h) (fun _ _ _ h => h) (fun _ _ _ h => h) (fun h => (h.elim hsti hcli).elim) (fun _ _ _ h => h) rfl he

theorem exec_idt (hldidt : ∀ v, i ≠ .ldidt v) : t.idtBase = s.idtBase ∧ t.idtSet = s.idtSet :=
  exec_keeps_control (P := fun u => u.idtBase = s.idtBase ∧ u.idtSet = s.idtSet) (fun _ => Iff.rfl) (fun _ _ _ _ h => h)
    (fun _ _ _ _ h => h) i (fun _ _ _ h => h) (fun _ _ _ h => h) (fun _ _ _ h => h) (fun _ _ _ h => h)
    (fun ⟨v, h⟩ => absurd h (hldidt v)) ⟨rfl, rfl⟩ he

theorem exec_clock : s.sameClock t :=
  exec_keeps_control (P := s.sameClock) (fun _ => Iff.rfl) (fun _ _ _ _ h => h) (fun _ _ _ _ h => h) i
    (fun _ _ _ h => h) (fun _ _ _ h => h) (fun _ _ _ h => h) (fun _ _ _ h => h) (fun _ _ _ h => h) ⟨rfl, rfl, rfl, rfl⟩ he

/-- The status word a fault leaves is that of the state before the instruction, where the instruction itself does not write it. -/
theorem exec_status (hhlt : i ≠ .hlt) (hiret : i ≠ .iret) :
    t.status = s.status ∨ (t.status = s.faultStatus ∧ t.fault.latch = true) := by
  obtain ⟨u, ⟨hu, hc⟩, rfl | ⟨k, info, -, rfl⟩⟩ :=
    exec_keeps (P := fun u => u.status = s.status ∧ u.config = s.config)
      (phaseKeeps_of_control (fun _ => Iff.rfl) fun _ _ _ _ h => h) i (fun _ _ _ h => h) (fun _ _ _ h => h)
      (fun h => (h.elim hhlt hiret).elim) (fun _ _ _ h => h) (fun _ _ _ h => h) ⟨rfl, rfl⟩ he
  · exact .inl hu
  · exact .inr ⟨faultStatus_congr hu hc, rfl⟩

end

/-- Settles O56: one lemma for each group of fields. -/
theorem controlStateHasOnlyItsWriters : Obligations.ControlStateHasOnlyItsWriters := fun _ _ _ he =>
  ⟨exec_flags he, exec_clocks he, exec_ie he, exec_idt he, exec_status he, exec_clock he⟩

/-! ## The host's reset (10_state.md R32; 70_reset_and_hazards.md R210) -/

theorem view_read_zero (v : View) : v.read 0 = 0 := by cases v <;> decide

theorem gprs_reset_get (r : GReg) : GPRs.reset.get r = 0 := by cases r <;> rfl

/-- Every register operand reads as 0 after reset. -/
theorem resetOn_readReg (k : Config) (e : Env) (r : Reg) : (State.resetOn k e).readReg r = 0 := by
  cases r with
  | view g v =>
    show v.read (GPRs.reset.get g) = 0
    rw [gprs_reset_get, view_read_zero]
  | special g => cases g <;> rfl

/-- Settles O58: the register operands by `resetOn_readReg`, every other field by its value in `State.resetOn`. -/
theorem hostResetGivesResetValues : Obligations.HostResetGivesResetValues := by
  rintro s t rfl
  exact ⟨resetOn_readReg s.config s.env, rfl, rfl, rfl, rfl, rfl, rfl, rfl, rfl, rfl, rfl, rfl, rfl, rfl, rfl⟩

end Sys2Proof.Machine
end

section
/-! SUPPORT. The bus and the stack (20_memory.md R40 to R50, R58): which region holds an address, what one access does, and what wide
accesses, pushes and pops leave in RAM and show the regions. -/

namespace Sys2Proof

/-! ## The region that holds an address (20_memory.md R41) -/

/-- The address lies in the region's range. -/
def Region.Holds (g : Region) (a : Word) : Prop := g.start ≤ a.toNat ∧ a.toNat < g.start + g.size

theorem inRange_iff_holds {g : Region} {a : Word} :
    (decide (g.start ≤ a.toNat) && decide (a.toNat < g.start + g.size)) = true ↔ g.Holds a := by
  simp only [Region.Holds, Bool.and_eq_true, decide_eq_true_eq]

theorem regionAt_first {k : Config} {a : Word} {before after : List Region} {g : Region} (hk : k.regions = before ++ g :: after)
    (hb : ∀ h ∈ before, ¬ h.Holds a) (hg : g.Holds a) : k.regionAt a = some g := by
  refine List.find?_eq_some_iff_append.2 ⟨inRange_iff_holds.2 hg, before, after, hk, fun h hh => ?_⟩
  rw [Bool.not_eq_true', ← Bool.not_eq_true, inRange_iff_holds]
  exact hb h hh

theorem regionAt_none {k : Config} {a : Word} (h : ∀ g ∈ k.regions, ¬ g.Holds a) : k.regionAt a = none :=
  List.find?_eq_none.2 fun g hg hp => h g hg (inRange_iff_holds.1 hp)

namespace Machine

/-! ## The bytes of a value -/

/-- A byte of a number fits in a byte. -/
theorem byte_ofNat_toNat (v k : Nat) : (BitVec.ofNat 8 (byteOf v k)).toNat = byteOf v k :=
  (BitVec.toNat_ofNat _ _).trans (Nat.mod_mod _ _)

/-- Byte `k` of a value that is written stands at place `k` (20_memory.md R45, R46). -/
theorem leBytes_getElem? {n : Size} {k : Nat} (hk : k < n.bytes) (v : Word) :
    (leBytes n v)[k]? = some (BitVec.ofNat 8 (byteOf v.toNat k)) := by
  simp [leBytes_eq_bytesOf, bytesOf, hk]

/-- The first bytes of a value do not depend on how many are written. -/
theorem leBytes_take {n : Size} {j : Nat} (hj : j ≤ n.bytes) (v : Word) : (leBytes n v).take j = bytesOf j v.toNat := by
  rw [leBytes_eq_bytesOf, bytesOf, ← List.map_take, List.take_range, Nat.min_eq_left hj, bytesOf]

@[simp] theorem addrsFrom_length (a : Word) (n : Nat) : (addrsFrom a n).length = n := by simp [addrsFrom]

theorem addrsFrom_getElem? {a b : Word} {n k : Nat} :
    (addrsFrom a n)[k]? = some b ↔ k < n ∧ b = a + BitVec.ofNat 32 k := by
  rw [List.getElem?_eq_some_iff]
  simp [addrsFrom, eq_comm]

/-! ## One byte access -/

theorem readByte_region {s : State} {a : Word} {g : Region} (h : s.config.regionAt a = some g) :
    readByte s a = .ok ((s.env.see (.regionRead g a (g.relative a))).regionAnswer g a).1
      (s.setEnv ((s.env.see (.regionRead g a (g.relative a))).regionAnswer g a).2) := by
  simp only [readByte, h]

theorem writeByte_region {s : State} {a : Word} {g : Region} (v : Byte) (h : s.config.regionAt a = some g) :
    writeByte s a v = .ok () (s.setEnv (s.env.see (.regionWrite g a (g.relative a) v))) := by
  simp only [writeByte, h]

/-- A scripted answer is the one the region gives, and the script goes on behind it (log 3). -/
theorem regionAnswer_scripted {e : Env} {b : Byte} {rest : List Byte} (h : e.regionReplies = b :: rest) (g : Region) (a : Word) :
    e.regionAnswer g a = (b, { e with regionReplies := rest }) := by
  simp only [Env.regionAnswer, h]

/-- The accesses to a byte a region serves: the region sees each, and a read answers what the region does (20_memory.md R41 to R43). -/
theorem byteAccesses_region {s : State} {a : Word} {g : Region} (v : Byte) (h : s.config.regionAt a = some g) :
    (∃ b t, readByte s a = .ok b t ∧ t = s.setEnv t.env ∧ t.env.schedule = s.env.schedule ∧
      t.env.log = s.env.log ++ [.regionRead g a (g.relative a)] ∧
      (∀ answer rest, s.env.regionReplies = answer :: rest → b = answer ∧ t.env.regionReplies = rest)) ∧
    (∃ t, writeByte s a v = .ok () t ∧ t = s.setEnv t.env ∧ t.env.schedule = s.env.schedule ∧
      t.env.log = s.env.log ++ [.regionWrite g a (g.relative a) v]) := by
  refine ⟨⟨_, _, readByte_region h, rfl, regionAnswer_schedule _ g a, regionAnswer_log _ g a, fun answer rest hs => ?_⟩,
    _, writeByte_region v h, rfl, rfl, rfl⟩
  have hscript := regionAnswer_scripted (e := s.env.see (.regionRead g a (g.relative a))) hs g a
  exact ⟨congrArg Prod.fst hscript, congrArg (fun p => p.2.regionReplies) hscript⟩

/-- The accesses to a byte of RAM (20_memory.md R42, R43). -/
theorem byteAccesses_ram {s : State} {a : Word} (v : Byte) (hm : Memory.wf s.mem = true) (h : s.inRam a = true) :
    readByte s a = .ok (s.ramByte a) s ∧
      (∃ t, writeByte s a v = .ok () t ∧ t = s.setMem t.mem ∧ t.ramByte a = v ∧ ∀ b : Word, b ≠ a → t.ramByte b = s.ramByte b) :=
  ⟨readByte_ram h, _, writeByte_ram v h, rfl, memGet_memSet_same _ _ _ hm,
    fun _ hb => memGet_memSet_other _ _ (toNat_ne_of_ne hb)⟩

/-- Settles O14, by what holds the address: a region, RAM or nothing. -/
theorem byteAccessesGoToTheFirstRegion : Obligations.ByteAccessesGoToTheFirstRegion := by
  intro s a v hm holds
  refine ⟨fun before after g hk hb hg => ?_, fun hnone hlt => ?_, fun hnone hge => ?_⟩
  · exact byteAccesses_region v (regionAt_first hk hb hg)
  · exact byteAccesses_ram v hm (by simp [State.inRam, regionAt_none hnone, hlt])
  · have hun : s.mapped a = false := by simpa [State.mapped, regionAt_none hnone] using hge
    exact ⟨readByte_unmapped hun, writeByte_unmapped v hun⟩

/-! ## Wide accesses -/

theorem busBytes_length (s : State) (as : List Word) (e : Env) : (s.busBytes as e).length = as.length := by
  induction as generalizing e with
  | nil => rfl
  | cons a rest ih =>
    unfold State.busBytes
    split <;> simp [ih]

/-- The value of a wide read is the number its bytes make (20_memory.md R44, R46). -/
theorem leValue_busBytes (s : State) (a : Word) (n : Size) (e : Env) :
    (leValue n (s.busBytes (addrsFrom a n.bytes) e)).toNat = leNumber (s.busBytes (addrsFrom a n.bytes) e) :=
  leValue_toNat (by rw [busBytes_length, addrsFrom_length])

/-- A byte that no region claims holds its byte of the value after a wide write (20_memory.md R43, R45). -/
theorem ramByte_memWrite {s t : State} {a v : Word} {n : Size} {u : Unit} (hm : Memory.wf s.mem = true)
    (h : s.mappedRange a n.bytes = true) (hw : memWrite s a n v = .ok u t) {k : Nat} (hk : k < n.bytes)
    (hc : s.claimed (a + BitVec.ofNat 32 k) = false) : (t.ramByte (a + BitVec.ofNat 32 k)).toNat = byteOf v.toNat k := by
  rw [memWrite_unclaimed hm h hw (leBytes_getElem? hk v) hc, byte_ofNat_toNat]

/-- Settles O15, a read by `memRead_mapped`, a write by `memWrite_mapped`. -/
theorem regionsInterceptEachByteOnce : Obligations.RegionsInterceptEachByteOnce := by
  rintro s a n as hm rfl h
  constructor
  · obtain ⟨e, hread, hsched, hlog⟩ := memRead_mapped h
    exact ⟨_, _, hread, leValue_busBytes s a n s.env, rfl, hlog, hsched⟩
  · intro v
    obtain ⟨m, e, hwrite, hsched, hlog, hother⟩ := memWrite_mapped v h
    exact ⟨_, hwrite, rfl, leBytes_eq_bytesOf n v ▸ hlog, hsched, fun _ => ramByte_memWrite hm h hwrite, hother⟩

/-- Settles O13: the bytes before the one that nothing serves are a write of their own, and the one after them faults. -/
theorem partialStoreBeforeBusError : Obligations.PartialStoreBeforeBusError := by
  intro s a n v j hm h
  have hj : j < n.bytes := (firstUnmapped_iff.1 h).1
  obtain ⟨m, e, hwrite, hsched, hlog, hother⟩ := memWrite_unmapped_frame v h
  refine ⟨_, hwrite, rfl, leBytes_take hj.le v ▸ hlog, hsched, fun k hk hc => ?_, hother⟩
  rw [memWrite_unmapped_bytes hm h hwrite hk (leBytes_getElem? (hk.trans hj) v) hc, byte_ofNat_toNat]

/-! ## RAM written and read back -/

theorem mappedRange_of_ramRange {s : State} {a : Word} {k : Nat} (h : s.ramRange a k = true) : s.mappedRange a k = true :=
  List.all_eq_true.2 fun b hb => mapped_of_inRam (List.all_eq_true.1 h b hb)

theorem inRam_of_ramRange {s : State} {a : Word} {n k : Nat} (h : s.ramRange a n = true) (hk : k < n) :
    s.inRam (a + BitVec.ofNat 32 k) = true := List.all_eq_true.1 h _ (mem_addrsFrom.2 ⟨k, hk, rfl⟩)

/-- A store to RAM changes no byte outside it (20_memory.md R45). -/
theorem sameMemoryBut_storeBytes (s : State) (a : Word) (n : Size) (v : Word) :
    s.sameMemoryBut (s.setMem (storeBytes (leBytes n v) a s.mem)) a n.bytes := fun b hb =>
  storeBytes_other _ a b _ (by rwa [leBytes_length])

/-- Settles O12: the write is `storeBytes`, and the laws of `storeBytes` say what is read after it. -/
theorem busWriteThenReadRoundTrip : Obligations.BusWriteThenReadRoundTrip := by
  intro s a n v hm h
  have hwrite := memWrite_ram v h
  refine ⟨_, _, hwrite, memRead_ram (ramRange_setMem s _ a n.bytes ▸ h), ?_, fun k hk => ?_, sameMemoryBut_storeBytes s a n v⟩
  · rw [ramValue_storeBytes s a n v hm, size_cut_toNat]
  · rw [ramByte_memWrite hm (mappedRange_of_ramRange h) hwrite hk (claimed_of_inRam (inRam_of_ramRange h hk)), byteOf, pow_mul]
    rfl

/-! ## The stack (20_memory.md R49, R50) -/

/-- A push of four bytes into RAM leaves `SP` lower by 4 and the configuration as it was. -/
theorem push_qword_ram_sp {s : State} (v : Word) (h : s.ramRange (s.sp - 4) 4 = true) :
    ∃ t, push s .qword v = .ok () t ∧ t.sp = s.sp - 4 ∧ t.config = s.config := ⟨_, push_ram v h, rfl, rfl⟩

/-- Three pushes of four bytes each take the next four bytes below `SP`. -/
theorem push_qword_three {s : State} (v1 v2 v3 : Word) (h : s.ramRange (s.sp - 12) 12 = true) :
    ∃ t u w, push s .qword v1 = .ok () t ∧ push t .qword v2 = .ok () u ∧ push u .qword v3 = .ok () w ∧ w.sp = s.sp - 12 := by
  have eight : s.sp - 4 - 4 = s.sp - 12 + 4 := by bv_omega
  have twelve : s.sp - 4 - 4 - 4 = s.sp - 12 := by bv_omega
  have parts : s.ramRange (s.sp - 12) 4 = true ∧ s.ramRange (s.sp - 4 - 4) 4 = true ∧ s.ramRange (s.sp - 4) 4 = true := by
    rw [ramRange_add s _ 4 8, ramRange_add s _ 4 4, word_add_assoc, Bool.and_eq_true, Bool.and_eq_true] at h
    rwa [eight, show s.sp - 4 = s.sp - 12 + (4 + 4) by bv_omega]
  obtain ⟨hlow, hmid, htop⟩ := parts
  obtain ⟨t, hpush1, hsp1, hcfg1⟩ := push_qword_ram_sp v1 htop
  obtain ⟨u, hpush2, hsp2, hcfg2⟩ := push_qword_ram_sp (s := t) v2 (by rwa [ramRange_of_config hcfg1, hsp1])
  obtain ⟨w, hpush3, hsp3, -⟩ := push_qword_ram_sp (s := u) v3 (by
    rwa [ramRange_of_config (hcfg2.trans hcfg1), hsp2, hsp1, twelve])
  exact ⟨t, u, w, hpush1, hpush2, hpush3, by rw [hsp3, hsp2, hsp1, twelve]⟩

/-- A push into RAM is a store below `SP`, and the pop after it reads that store (20_memory.md R49, R50). -/
theorem push_then_pop_ram {s : State} {n : Size} (v : Word) (hm : Memory.wf s.mem = true)
    (h : s.ramRange (s.sp - BitVec.ofNat 32 n.bytes) n.bytes = true) :
    ∃ t u, push s n v = .ok () t ∧ t.sp = s.sp - BitVec.ofNat 32 n.bytes ∧ t.ramValue t.sp n = n.cut v ∧
      s.sameMemoryBut t t.sp n.bytes ∧ pop t n = .ok (n.cut v) u ∧ u.sp = s.sp ∧ t.sameMemory u := by
  have hpush := push_ram v h
  have hval := ramValue_storeBytes (s.setSp (s.sp - BitVec.ofNat 32 n.bytes)) (s.sp - BitVec.ofNat 32 n.bytes) n v hm
  have hmem := sameMemoryBut_storeBytes (s.setSp (s.sp - BitVec.ofNat 32 n.bytes)) (s.sp - BitVec.ofNat 32 n.bytes) n v
  have hpop (t : State) (ht : t.ramRange t.sp n.bytes = true) (hv : t.ramValue t.sp n = n.cut v) :
      pop t n = .ok (n.cut v) (t.setSp (t.sp + BitVec.ofNat 32 n.bytes)) := hv ▸ pop_ram ht
  exact ⟨_, _, hpush, rfl, hval, hmem, hpop _ h hval, BitVec.sub_add_cancel _ _, fun _ => rfl⟩

/-- Settles O16 by `push_then_pop_ram` and `push_qword_three`. -/
theorem pushThenPopRoundTrip : Obligations.PushThenPopRoundTrip := by
  refine fun s hm => ⟨fun n v h => ?_, push_qword_three⟩
  obtain ⟨t, u, hpush, hsp, hval, hmem, hpop, hsp', hmem'⟩ := push_then_pop_ram v hm h
  exact ⟨t, n.cut v, u, hpush, hsp, by rw [hval, size_cut_toNat], hmem, hpop, size_cut_toNat n v, hsp', hmem'⟩

end Machine

end Sys2Proof
end

section
/-! SUPPORT. MOV over bytes that regions or RAM serve (40_mov.md R90, R91, R95; 20_memory.md R42 to R45): each of its modes is one sized
move, and the obligation is what a move into a register and a move into memory leave. -/

namespace Sys2Proof.Machine

/-! ## Every MOV is a sized move -/

/-- The register a destination is, if it is one. -/
def Dest.register? : Dest → Option Reg
  | .reg r => some r
  | .mem _ => none

/-- `i` runs as the sized move of `o` to `d`, and the terms statements use of a MOV are those of that move. -/
structure IsMove (i : Instr) (n : Size) (d : Dest) (o : Source) : Prop where
  exec_eq : ∀ s, exec i s = perform i (move n d o) s
  dest_eq : movDest i = d.register?
  reads_eq : ∀ s, movReads i s = o.reads n (s.past i.length)
  writes_eq : ∀ s, movWrites i s = d.writes n (s.past i.length)
  value_eq : ∀ s, movValue i s = (o.fetched n (s.past i.length)).toNat

theorem busBytes_past (s : State) (k : Nat) (as : List Word) (e : Env) : (s.past k).busBytes as e = s.busBytes as e := by
  induction as generalizing e with
  | nil => rfl
  | cons a rest ih => simp only [State.busBytes, past_config, State.ramByte, past_mem, ih]

/-- The value of a source in memory is the number its bytes make (20_memory.md R44, R46). -/
theorem fetched_mem_toNat (x : Address) (n : Size) (s : State) (k : Nat) :
    ((Source.mem x).fetched n (s.past k)).toNat = leNumber (s.busBytes (addrsFrom (x.ea (s.past k)) n.bytes) s.env) := by
  rw [Source.fetched, leValue_busBytes, busBytes_past, past_env]

/-- Every MOV is a sized move; MOV Register-Register, which has no size, is one of all four bytes (40_mov.md R90). -/
theorem exists_isMove {i : Instr} (h : isMov i = true) : ∃ n d o, IsMove i n d o := by
  have imm (n : Size) (v : Word) : v.toNat % 2 ^ (8 * n.bytes) = (n.cut v).toNat := (size_cut_toNat n v).symm
  have mem (x : Address) (n : Size) (k : Nat) (s : State) := (fetched_mem_toNat x n s k).symm
  cases i with
  | movRI n r1 v => exact ⟨n, .reg r1, .imm v, exec_movRI n r1 v, rfl, fun _ => rfl, fun _ => rfl, fun _ => imm n v⟩
  | movRR r1 r2 => exact ⟨.qword, .reg r1, .reg r2, exec_movRR r1 r2, rfl, fun _ => rfl, fun _ => rfl, fun _ => rfl⟩
  | movRA n r1 a2 => exact ⟨n, .reg r1, .mem (.abs a2), exec_movRA n r1 a2, rfl, fun _ => rfl, fun _ => rfl, mem (.abs a2) n _⟩
  | movRP n r1 r2 => exact ⟨n, .reg r1, .mem (.ind r2), exec_movRP n r1 r2, rfl, fun _ => rfl, fun _ => rfl, mem (.ind r2) n _⟩
  | movAI n a1 v => exact ⟨n, .mem (.abs a1), .imm v, exec_movAI n a1 v, rfl, fun _ => rfl, fun _ => rfl, fun _ => imm n v⟩
  | movAR n a1 r2 => exact ⟨n, .mem (.abs a1), .reg r2, exec_movAR n a1 r2, rfl, fun _ => rfl, fun _ => rfl, fun _ => imm n _⟩
  | movAA n a1 a2 => exact ⟨n, .mem (.abs a1), .mem (.abs a2), exec_movAA n a1 a2, rfl, fun _ => rfl, fun _ => rfl, mem (.abs a2) n _⟩
  | movAP n a1 r2 => exact ⟨n, .mem (.abs a1), .mem (.ind r2), exec_movAP n a1 r2, rfl, fun _ => rfl, fun _ => rfl, mem (.ind r2) n _⟩
  | movPI n r1 v => exact ⟨n, .mem (.ind r1), .imm v, exec_movPI n r1 v, rfl, fun _ => rfl, fun _ => rfl, fun _ => imm n v⟩
  | movPR n r1 r2 => exact ⟨n, .mem (.ind r1), .reg r2, exec_movPR n r1 r2, rfl, fun _ => rfl, fun _ => rfl, fun _ => imm n _⟩
  | movPA n r1 a2 => exact ⟨n, .mem (.ind r1), .mem (.abs a2), exec_movPA n r1 a2, rfl, fun _ => rfl, fun _ => rfl, mem (.abs a2) n _⟩
  | movPP n r1 r2 => exact ⟨n, .mem (.ind r1), .mem (.ind r2), exec_movPP n r1 r2, rfl, fun _ => rfl, fun _ => rfl, mem (.ind r2) n _⟩
  | _ => exact nomatch h

/-! ## What a move leaves -/

/-- A move into a register, its source served: the source's reads, then the register. -/
theorem move_reg_mapped {n : Size} {r : Reg} {o : Source} {s : State} (hr : (o.reads n s).all s.mapped = true) :
    ∃ e, move n (.reg r) o s = .ok () ((s.setEnv e).writeReg r (o.fetched n s)) ∧ e.schedule = s.env.schedule ∧
      e.log = s.env.log ++ s.readEvents (o.reads n s) := by
  obtain ⟨e, hload, hsched, hlog⟩ := load_mapped hr
  exact ⟨e, by rw [move_reg, hload, ok_andThen], hsched, hlog⟩

/-- A move into memory, all its bytes served: the source's reads, then the writes, and RAM takes the bytes no region claims. -/
theorem move_mem_mapped {n : Size} {x : Address} {o : Source} {s : State} (hm : Memory.wf s.mem = true)
    (hr : (o.reads n s).all s.mapped = true) (hw : s.mappedRange (x.ea s) n.bytes = true) :
    ∃ m e, move n (.mem x) o s = .ok () ((s.setMem m).setEnv e) ∧ e.schedule = s.env.schedule ∧
      e.log = s.env.log ++ s.readEvents (o.reads n s) ++
        s.writeEvents (addrsFrom (x.ea s) n.bytes) (bytesOf n.bytes (o.fetched n s).toNat) ∧
      (∀ k < n.bytes, s.claimed (x.ea s + BitVec.ofNat 32 k) = false →
        (memGet m (x.ea s + BitVec.ofNat 32 k).toNat).toNat = byteOf (o.fetched n s).toNat k) ∧
      (∀ b : Word, s.claimed b = true ∨ b ∉ addrsFrom (x.ea s) n.bytes → memGet m b.toNat = memGet s.mem b.toNat) := by
  obtain ⟨e, hload, hsched, hlog⟩ := load_mapped hr
  obtain ⟨m, e', hwrite, hsched', hlog', hother⟩ := memWrite_mapped (s := s.setEnv e) (o.fetched n s) hw
  refine ⟨m, e', by rw [move_mem, hload, ok_andThen, hwrite]; rfl, hsched'.trans hsched, ?_, fun k hk hc => ?_, hother⟩
  · rw [hlog', State.setEnv_env, hlog, leBytes_eq_bytesOf]; rfl
  · exact ramByte_memWrite (s := s.setEnv e) hm hw hwrite hk hc

theorem sameSystem_writeReg (s : State) (r : Reg) (w : Word) : s.sameSystem (s.writeReg r w) := by
  simp [State.sameSystem, State.sameStatus, State.sameInterrupts, State.sameClock]

/-- Settles O19: by the destination of the move that the MOV is. -/
theorem movAccessesBusInOrder : Obligations.MovAccessesBusInOrder := by
  intro i s hi hm hr hw
  obtain ⟨n, d, o, hmove⟩ := exists_isMove hi
  rw [hmove.reads_eq] at hr
  rw [hmove.writes_eq] at hw
  rw [hmove.exec_eq, hmove.dest_eq, hmove.reads_eq, hmove.writes_eq, hmove.value_eq]
  cases d with
  | reg r =>
    obtain ⟨e, hrun, hsched, hlog⟩ := move_reg_mapped (r := r) (s := s.past i.length) hr
    obtain ⟨hstatus, hint, hclock⟩ := sameSystem_writeReg ((s.past i.length).setEnv e) r (o.fetched n (s.past i.length))
    have hregs : s.sameRegs ((s.past i.length).setEnv e) := sameRegs_of rfl rfl rfl rfl rfl rfl
    refine ⟨_, perform_ok hrun, hstatus, ⟨by simp, by simp⟩, hint, hclock, ?_, by simpa using hsched, nofun, ?_, nofun,
      by simp [State.ramByte]⟩
    · rw [State.writeReg_env]; exact hlog.trans (List.append_nil _).symm
    · rintro _ ⟨⟩
      exact ⟨readReg_writeReg_same _ r _, sameRegsBut_writeReg hregs r _, fun hpc => State.writeReg_pc _ r _ hpc⟩
  | mem x =>
    obtain ⟨m, e, hrun, hsched, hlog, hbytes, hother⟩ := move_mem_mapped (s := s.past i.length) hm hr hw
    have hregs : s.sameRegs (((s.past i.length).setMem m).setEnv e) := sameRegs_of rfl rfl rfl rfl rfl rfl
    refine ⟨_, perform_ok hrun, ⟨rfl, rfl⟩, ⟨rfl, rfl⟩, ⟨rfl, rfl, rfl, rfl, rfl⟩, ⟨rfl, rfl, rfl, rfl⟩, ?_, hsched,
      fun _ => ⟨hregs, rfl⟩, nofun, fun k b hk hc => ?_, hother⟩
    · rw [Dest.writes, addrsFrom_length]; exact hlog
    · obtain ⟨hlt, rfl⟩ := addrsFrom_getElem?.1 hk
      exact hbytes k hlt hc

end Sys2Proof.Machine
end

section
/-! SUPPORT. Faults of the fetch and of the unimplemented instructions (30_encoding.md R61, R62, R69 to R73, R78; 60_exceptions.md R171,
R173): where a decode script rejects, which field it fetches next, and what a tick leaves whose fetch faults. -/

namespace Sys2Proof

/-! ## Where a decode script rejects -/

/-- The bytes fetched when decoding rejects, by the reason: the opcode byte alone, with the mode byte, with the size byte, or up to the
register code (30_encoding.md R65, R73, R78). -/
def Reject.At (bs : List Byte) : Reject → Prop
  | .unimplementedOpcode b => bs = [b]
  | .invalidMode b | .impossibleMode b | .unimplementedMode b => bs.length = 2 ∧ bs[1]? = some b
  | .invalidSize b => bs.length = 3 ∧ bs[2]? = some b
  | .invalidRegister b => bs.getLast? = some b
  | .truncated => False

/-- Run after `pre` has been fetched, the script rejects by name at a place that fits the reason, and needs no byte past it. -/
def Script.RejectsAt (pre : List Byte) (sc : Script) : Prop :=
  ∀ ⦃bs : List Byte⦄ ⦃r : Reject⦄, sc.runBytes bs = .error r → r ≠ .truncated →
    ∃ p rest, bs = p ++ rest ∧ sc.runBytes p = .error r ∧ r.At (pre ++ p)

section

variable {e : Encoding} {pre : List Byte}

theorem rejectsAt_done (i : Instr) : (Script.done i).RejectsAt pre := fun _ _ hr => nomatch hr

theorem rejectsAt_reject {r : Reject} (hr : r.At pre) : (Script.reject r).RejectsAt pre := by
  rintro bs r' ⟨⟩ -
  exact ⟨[], bs, rfl, rfl, by rwa [List.append_nil]⟩

/-- A field itself is never a reason to reject by name. -/
theorem rejectsAt_fetch {n : Size} {k : Word → Script} (hk : ∀ v, (k v).RejectsAt (pre ++ leBytes n v)) :
    (Script.fetch n k).RejectsAt pre := by
  intro bs r hr hne
  cases ht : takeField n bs with
  | none =>
    simp only [Script.runBytes, ht, Except.error.injEq] at hr
    exact absurd hr.symm hne
  | some field =>
    obtain ⟨v, tl⟩ := field
    simp only [Script.runBytes, ht] at hr
    obtain ⟨p, rest, rfl, hp, hat⟩ := hk v hr hne
    rw [List.append_assoc] at hat
    exact ⟨leBytes n v ++ p, rest, by rw [takeField_some ht, List.append_assoc], runBytes_fetch (takeField_fits ht) hp, hat⟩

theorem rejectsAt_byte {k : Byte → Script} (hk : ∀ b, (k b).RejectsAt (pre ++ [b])) : (Script.byte k).RejectsAt pre :=
  rejectsAt_fetch fun v => hk (v.setWidth 8)

/-- A register code is validated as soon as it is fetched (30_encoding.md R65). -/
theorem rejectsAt_reg {k : Reg → Script} (hk : ∀ r b, (k r).RejectsAt (pre ++ [b])) : (Script.reg e k).RejectsAt pre := by
  refine rejectsAt_byte fun b => ?_
  split
  next r _ => exact hk r b
  next => exact rejectsAt_reject List.getLast?_concat

/-- The size byte is the third byte of the encoding (30_encoding.md R69). -/
theorem rejectsAt_size (hpre : pre.length = 2) {k : Size → Script} (hk : ∀ n b, (k n).RejectsAt (pre ++ [b])) :
    (Script.size e k).RejectsAt pre := by
  refine rejectsAt_byte fun b => ?_
  split
  next n _ => exact hk n b
  next =>
    have hlast : (pre ++ [b])[2]? = some b := by rw [← hpre, List.getElem?_concat_length]
    exact rejectsAt_reject ⟨by simp [hpre], hlast⟩

/-- Row by row of the operand scripts: a size byte comes first, and nothing else but register codes is validated. -/
theorem operandScript_rejectsAt (hpre : pre.length = 2) {o : Opcode} {m : Mode} {sc : Script}
    (hs : operandScript? e o m = some sc) : sc.RejectsAt pre :=
  match o, m, hs with
  | .mov, .pair .reg .imm, rfl | .mov, .pair .reg .abs, rfl | .mov, .pair .ind .imm, rfl | .mov, .pair .ind .abs, rfl =>
    rejectsAt_size hpre fun _ _ => rejectsAt_reg fun _ _ => rejectsAt_fetch fun _ => rejectsAt_done _
  | .mov, .pair .reg .ind, rfl | .mov, .pair .ind .reg, rfl | .mov, .pair .ind .ind, rfl =>
    rejectsAt_size hpre fun _ _ => rejectsAt_reg fun _ _ => rejectsAt_reg fun _ _ => rejectsAt_done _
  | .mov, .pair .abs .imm, rfl | .mov, .pair .abs .abs, rfl =>
    rejectsAt_size hpre fun _ _ => rejectsAt_fetch fun _ => rejectsAt_fetch fun _ => rejectsAt_done _
  | .mov, .pair .abs .reg, rfl | .mov, .pair .abs .ind, rfl =>
    rejectsAt_size hpre fun _ _ => rejectsAt_fetch fun _ => rejectsAt_reg fun _ _ => rejectsAt_done _
  | .add, .pair .reg .imm, rfl | .mul, .pair .reg .imm, rfl | .or, .pair .reg .imm, rfl | .shl, .pair .reg .imm, rfl
  | .cmp, .pair .reg .imm, rfl | .outb, .pair .reg .imm, rfl =>
    rejectsAt_reg fun _ _ => rejectsAt_fetch fun _ => rejectsAt_done _
  | .mov, .pair .reg .reg, rfl | .add, .pair .reg .reg, rfl | .mul, .pair .reg .reg, rfl | .or, .pair .reg .reg, rfl
  | .shl, .pair .reg .reg, rfl | .cmp, .pair .reg .reg, rfl =>
    rejectsAt_reg fun _ _ => rejectsAt_reg fun _ _ => rejectsAt_done _
  | .inc, .single .reg, rfl => rejectsAt_reg fun _ _ => rejectsAt_done _
  | .jmp, .single .imm, rfl | .je, .single .imm, rfl | .jne, .single .imm, rfl | .jl, .single .imm, rfl
  | .call, .single .imm, rfl | .calle, .single .imm, rfl | .ldidt, .single .imm, rfl => rejectsAt_fetch fun _ => rejectsAt_done _
  | .inb, .pair .imm .imm, rfl | .inb, .pair .imm .abs, rfl => rejectsAt_fetch fun _ => rejectsAt_fetch fun _ => rejectsAt_done _
  | .inb, .pair .imm .reg, rfl => rejectsAt_fetch fun _ => rejectsAt_reg fun _ _ => rejectsAt_done _

theorem modeScript_rejectsAt (o : Opcode) (c b : Byte) : (modeScript e o b).RejectsAt [c, b] := by
  unfold modeScript
  split
  next => exact rejectsAt_reject ⟨rfl, rfl⟩
  next =>
    split
    next sc hs => exact operandScript_rejectsAt rfl hs
    next => split <;> exact rejectsAt_reject ⟨rfl, rfl⟩

theorem opcodeScript_rejectsAt (b : Byte) : (opcodeScript e b).RejectsAt [b] := by
  unfold opcodeScript
  split
  next => exact rejectsAt_reject rfl
  next o _ =>
    split
    next => exact rejectsAt_done _
    next => exact rejectsAt_byte (modeScript_rejectsAt o b)

/-- The whole decode, from before the opcode byte. -/
theorem decodeScript_rejectsAt (e : Encoding) : (decodeScript e).RejectsAt [] := rejectsAt_byte opcodeScript_rejectsAt

end

/-- A part of a byte list that is rejected by name is the whole list where decoding is not yet decided without the last byte. -/
theorem eq_of_dropLast_truncated {sc : Script} {p rest : List Byte} {r : Reject} (hr : r ≠ .truncated)
    (hp : sc.runBytes p = .error r) (hd : sc.runBytes (p ++ rest).dropLast = .error .truncated) : rest = [] := by
  by_contra hrest
  rw [List.dropLast_append_of_ne_nil hrest, runBytes_error_append sc rest.dropLast hr hp, Except.error.injEq] at hd
  exact hr hd

/-- The bytes fetched for an encoding that is rejected by name (30_encoding.md R73, R78). -/
theorem rejected_at {e : Encoding} {bs : List Byte} {r : Reject} (hr : r ≠ .truncated) (h : decode e bs = .error r)
    (hd : decode e bs.dropLast = .error .truncated) : r.At bs := by
  obtain ⟨p, rest, rfl, hp, hat⟩ := decodeScript_rejectsAt e h hr
  rwa [eq_of_dropLast_truncated hr hp hd, List.append_nil]

/-! ## Which field a decode script fetches next -/

/-- The script fetches fields of these widths from these bytes: with the fields before it fetched, each one is next. -/
def Script.Fetches (sc : Script) (fs : List Size) (bs : List Byte) : Prop :=
  ∀ ⦃m : Nat⦄ ⦃n : Size⦄, fs[m]? = some n → sc.next? (bs.take (widthOf (fs.take m))) = some n

section

variable {e : Encoding} {bs : List Byte} {fs : List Size}

theorem fetches_nil (sc : Script) : sc.Fetches [] bs := fun _ _ h => nomatch h

theorem fetches_fetch {n : Size} {v : Word} {k : Word → Script} (hv : n.fits v = true) (hk : (k v).Fetches fs bs) :
    (Script.fetch n k).Fetches (n :: fs) (leBytes n v ++ bs) := by
  intro m n' h
  cases m with
  | zero =>
    obtain rfl : n = n' := by simpa using h
    exact next_nil n k
  | succ m =>
    have htake : (leBytes n v ++ bs).take (widthOf ((n :: fs).take (m + 1))) = leBytes n v ++ bs.take (widthOf (fs.take m)) := by
      rw [List.take_succ_cons, widthOf, ← Machine.leBytes_length n v, List.take_length_add_append]
    rw [htake, next_field, cut_of_fits hv]
    exact hk (by simpa using h)

theorem fetches_word {v : Word} {k : Word → Script} (hk : (k v).Fetches fs bs) :
    (Script.word k).Fetches (.qword :: fs) (leBytes .qword v ++ bs) :=
  fetches_fetch (fits_qword v) hk

theorem fetches_byte {b : Byte} {k : Byte → Script} (hk : (k b).Fetches fs bs) : (Script.byte k).Fetches (.word :: fs) (b :: bs) := by
  have hb : (b.setWidth 32).setWidth 8 = b := by simp
  have hle : leBytes .word (b.setWidth 32) = [b] := congrArg ([·]) hb
  have hfits : Size.word.fits (b.setWidth 32) = true := by
    simp only [Size.fits, BitVec.toNat_setWidth, decide_eq_true_eq]
    exact Nat.lt_of_le_of_lt (Nat.mod_le _ _) b.isLt
  have h := fetches_fetch (k := fun v => k (v.setWidth 8)) (bs := bs) (fs := fs) hfits (by rwa [hb])
  rwa [hle] at h

theorem fetches_reg (h : e.wf = true) {r : Reg} {k : Reg → Script} (hk : (k r).Fetches fs bs) :
    (Script.reg e k).Fetches (.word :: fs) (e.reg r :: bs) :=
  fetches_byte (by simpa only [reg_of_code h] using hk)

theorem fetches_size (h : e.wf = true) {n : Size} {k : Size → Script} (hk : (k n).Fetches fs bs) :
    (Script.size e k).Fetches (.word :: fs) (e.size n :: bs) :=
  fetches_byte (by simpa only [size_of_code h] using hk)

/-- The opcode byte is the first field of every instruction. -/
theorem fetches_opcode (c : Byte) : (decodeScript e).Fetches [.word] (c :: bs) := fetches_byte (fetches_nil _)

/-- Past the opcode and the mode byte come the fields of the operand script (30_encoding.md R78, steps 2 to 5). -/
theorem fetches_head (h : e.wf = true) {o : Opcode} {m : Mode} {sc : Script} (ho : o.nullary? = none)
    (hs : operandScript? e o m = some sc) (hf : sc.Fetches fs bs) :
    (decodeScript e).Fetches (.word :: .word :: fs) (e.opcode o :: e.mode m :: bs) := by
  refine fetches_byte ?_
  simp only [opcodeScript, opcode_of_code h, ho]
  refine fetches_byte ?_
  simpa only [modeScript, mode_of_code h, hs] using hf

/-- By the instruction's format: its fields are the ones that decoding its encoding fetches (30_encoding.md R64, R69, R78). -/
theorem decodeScript_fetches (h : e.wf = true) {i : Instr} (hw : i.wf = true) (rest : List Byte) :
    (decodeScript e).Fetches i.fields (encode e i ++ rest) := by
  cases i with
  | push | pop | pusha | popa | mmset | mmcpy | sub | div | mod | dec | and | not | shr | jle | jg | jge | ret | iret | inw | inq
  | outw | outq | hlt | sti | cli | intr => exact fetches_opcode _
  | jmp t | je t | jne t | jl t | call t | calle t | ldidt t => exact fetches_head h rfl rfl (fetches_word (fetches_nil _))
  | inc r1 => exact fetches_head h rfl rfl (fetches_reg h (fetches_nil _))
  | movRR r1 r2 | addRR r1 r2 | mulRR r1 r2 | orRR r1 r2 | shlRR r1 r2 | cmpRR r1 r2 =>
    exact fetches_head h rfl rfl (fetches_reg h (fetches_reg h (fetches_nil _)))
  | addRI r1 v | mulRI r1 v | orRI r1 v | shlRI r1 v | cmpRI r1 v =>
    exact fetches_head h rfl rfl (fetches_reg h (fetches_word (fetches_nil _)))
  | movRI n r1 v | movPI n r1 v =>
    exact fetches_head h rfl rfl (fetches_size h (fetches_reg h (fetches_fetch hw (fetches_nil _))))
  | movRA n r1 a2 | movPA n r1 a2 =>
    exact fetches_head h rfl rfl (fetches_size h (fetches_reg h (fetches_word (fetches_nil _))))
  | movRP n r1 r2 | movPR n r1 r2 | movPP n r1 r2 =>
    exact fetches_head h rfl rfl (fetches_size h (fetches_reg h (fetches_reg h (fetches_nil _))))
  | movAI n a1 v => exact fetches_head h rfl rfl (fetches_size h (fetches_word (fetches_fetch hw (fetches_nil _))))
  | movAR n a1 r2 | movAP n a1 r2 =>
    exact fetches_head h rfl rfl (fetches_size h (fetches_word (fetches_reg h (fetches_nil _))))
  | movAA n a1 a2 => exact fetches_head h rfl rfl (fetches_size h (fetches_word (fetches_word (fetches_nil _))))
  | inbII p v => exact fetches_head h rfl rfl (fetches_byte (fetches_byte (fetches_nil _)))
  | inbIR p r2 => exact fetches_head h rfl rfl (fetches_byte (fetches_reg h (fetches_nil _)))
  | inbIA p a2 => exact fetches_head h rfl rfl (fetches_byte (fetches_word (fetches_nil _)))
  | outbRI r1 p => exact fetches_head h rfl rfl (fetches_reg h (fetches_byte (fetches_nil _)))

/-- With the fields before it fetched, any field of an instruction is the next one that decoding fetches. -/
theorem next_of_fields (h : e.wf = true) {i : Instr} (hw : i.wf = true) {m : Nat} {n : Size} (hm : i.fields[m]? = some n) :
    (decodeScript e).next? ((encode e i).take (widthOf (i.fields.take m))) = some n := by
  have hf := decodeScript_fetches h hw []
  rw [List.append_nil] at hf
  exact hf hm

end

namespace Machine

/-! ## How a fetch faults -/

/-- An illegal encoding in RAM: the fetch faults with its kind, and the bytes given have been fetched (30_encoding.md R73). -/
theorem fetchInstr_reject {s : State} {bs : List Byte} {r : Reject} (hr : r ≠ .truncated) (h : decode s.encoding bs = .error r)
    (hd : decode s.encoding bs.dropLast = .error .truncated) (hram : s.ramHolds s.pc bs = true) :
    fetchInstr s = .fault (rejectKind r) (rejectInfo r) bs s := by
  obtain ⟨p, rest, rfl, hp, hf⟩ :=
    fetchScript_ram_reject (a0 := s.pc) (seen := []) (s := s) hr h (by rw [List.length_nil, BitVec.add_zero]; exact hram)
  rw [eq_of_dropLast_truncated hr hp hd, List.append_nil]
  exact hf

/-- An opcode byte that nothing serves: BusError at `PC`, and nothing has been fetched (30_encoding.md R61). -/
theorem fetchInstr_opcode_unmapped {s : State} (h : s.mapped s.pc = false) : fetchInstr s = .fault .busError s.pc [] s := by
  have hread : memRead s (s.pc + BitVec.ofNat 32 0) .word = .trap .busError s.pc s := by
    rw [BitVec.add_zero, memRead, readByte_unmapped h, trap_andThen]
  simp only [fetchInstr, decodeScript, Script.byte, fetchScript, List.length_nil, hread]

/-- A later field that meets a byte nothing serves: BusError there, with the fields before it fetched (30_encoding.md R61). -/
theorem fetchInstr_field_unmapped {s : State} {i : Instr} {m j : Nat} {n : Size} {seen : List Byte} {field : Word}
    (he : s.encoding.wf = true) (hw : i.wf = true) (hm : i.fields[m]? = some n)
    (hseen : seen = (encode s.encoding i).take (widthOf (i.fields.take m))) (hfield : field = s.pc + BitVec.ofNat 32 seen.length)
    (hram : s.ramHolds s.pc seen = true) (hu : s.firstUnmapped field n.bytes j = true) :
    ∃ env, fetchInstr s = .fault .busError (field + BitVec.ofNat 32 j) seen (s.setEnv env) ∧ env.schedule = s.env.schedule ∧
      env.log = s.env.log ++ s.readEvents (addrsFrom field j) := by
  have hnext : (decodeScript s.encoding).next? seen = some n := hseen ▸ next_of_fields he hw hm
  subst hfield
  exact fetchScript_unmapped (seen := []) hnext (by rw [List.length_nil, BitVec.add_zero]; exact hram) hu

/-! ## What a fault of the fetch leaves -/

/-- `t` is `s` after a tick whose fetch faulted with the bytes `seen` fetched and the environment left as `env`: the fault is recorded,
`PC` is at the decode point, the tick is counted, and nothing else has changed (60_exceptions.md R171, R173). -/
structure State.FetchFaulted (s t : State) (k : FaultKind) (info : Word) (seen : List Byte) (env : Env) : Prop where
  faulted : s.faultedFrom t k info (seen.headD 0) (seen.tail.headD 0)
  pc : t.pc = s.pc + BitVec.ofNat 32 seen.length
  regs : s.sameRegs t
  flags : s.sameFlags t
  interrupts : s.sameInterrupts t
  memory : s.sameMemory t
  env : t.env = env
  ticks : t.ticks = s.ticks + 1
  clkHalt : t.clkHalt = s.clkHalt
  clkStop : t.clkStop = s.clkStop
  config : t.config = s.config

theorem fetchFaulted_of_countTick (s : State) (k : FaultKind) (info : Word) (seen : List Byte) (env : Env) :
    s.FetchFaulted (fetchFault k info seen (s.countTick.setEnv env)) k info seen env where
  faulted := ⟨rfl, rfl⟩
  pc := rfl
  regs := sameRegs_of rfl rfl rfl rfl rfl rfl
  flags := ⟨rfl, rfl⟩
  interrupts := ⟨rfl, rfl, rfl, rfl, rfl⟩
  memory := sameMemory_of rfl
  env := rfl
  ticks := rfl
  clkHalt := rfl
  clkStop := rfl
  config := rfl

/-- A step whose fetch faults: the fault is recorded, then come the service and the shutdown check (60_exceptions.md R174). -/
theorem step_of_fetchFault {s u : State} {k : FaultKind} {info : Word} {seen : List Byte} (hr : s.ready = true)
    (hf : fetchInstr s.countTick = .fault k info seen u) : step s = .next (shutdownCheck (service (fetchFault k info seen u))) := by
  have hh : s.countTick.halted = false := halted_of_ready hr
  simp only [step_ready hr, tick, stepInstr, hh, hf, finishTick, Bool.false_eq_true, if_false]

theorem ramHolds_countTick (s : State) (a : Word) (bs : List Byte) : s.countTick.ramHolds a bs = s.ramHolds a bs :=
  ramHolds_congr (s := s) (t := s.countTick) rfl rfl a bs

theorem shutdownCheck_on {s : State} (h : s.on = true) : shutdownCheck s = s := by rw [shutdownCheck, if_pos h]

/-- A step whose fetch faults, with no interrupt due and On set, leaves what the fault leaves. -/
theorem step_fetchFaulted {s : State} {k : FaultKind} {info : Word} {seen : List Byte} {env : Env} (hr : s.ready = true)
    (hon : s.on = true) (hi : (s.ipend && s.ie) = false)
    (hf : fetchInstr s.countTick = .fault k info seen (s.countTick.setEnv env)) :
    ∃ t, step s = .next t ∧ s.FetchFaulted t k info seen env := by
  refine ⟨_, ?_, fetchFaulted_of_countTick s k info seen env⟩
  have hidle : service (fetchFault k info seen (s.countTick.setEnv env)) = fetchFault k info seen (s.countTick.setEnv env) :=
    service_idle hi
  rw [step_of_fetchFault hr hf, hidle, shutdownCheck_on]
  exact raiseFault_on _ _ _ hon

/-- Settles O6, by where each reason to reject is found (`rejected_at`) and what a fault of the fetch leaves. -/
theorem illegalEncodingFaults : Obligations.IllegalEncodingFaults := by
  intro s bs r hr hon hi hdec hne hd hram
  have hf : fetchInstr s.countTick = .fault (rejectKind r) (rejectInfo r) bs (s.countTick.setEnv s.env) :=
    fetchInstr_reject hne hdec hd ((ramHolds_countTick s s.pc bs).trans hram)
  obtain ⟨t, ht, h⟩ := step_fetchFaulted hr hon hi hf
  have hkind : t.fault.kind = rejectKind r := congrArg FaultRecord.kind h.faulted.1
  have hinfo : t.fault.info = rejectInfo r := congrArg FaultRecord.info h.faulted.1
  have hat := rejected_at hne hdec hd
  refine ⟨t, ht, h.faulted, h.pc, ?_, h.regs, h.flags, h.interrupts, h.memory, h.env, h.ticks, h.clkHalt, h.clkStop, h.config⟩
  cases r with
  | unimplementedOpcode b | invalidRegister b => exact ⟨hat, hkind, hinfo⟩
  | invalidMode b | impossibleMode b | unimplementedMode b | invalidSize b => exact ⟨hat.1, hat.2, hkind, hinfo⟩
  | truncated => exact hne rfl

/-- Settles O7, by `fetchInstr_opcode_unmapped`. -/
theorem opcodeFetchBusError : Obligations.OpcodeFetchBusError := by
  intro s hr hon hi hm
  obtain ⟨t, ht, h⟩ := step_fetchFaulted (env := s.env) hr hon hi (fetchInstr_opcode_unmapped (s := s.countTick) hm)
  exact ⟨t, ht, h.faulted, h.pc.trans (BitVec.add_zero _), h.regs, h.flags, h.interrupts, h.memory, h.env, h.ticks, h.clkHalt,
    h.clkStop, h.config⟩

/-- Settles O8, by the field that decoding fetches next (`next_of_fields`). -/
theorem operandFetchBusError : Obligations.OperandFetchBusError := by
  intro s i m j n seen field hr hon hi he hw hm hseen hfield hram hu
  obtain ⟨env, hf, hsched, hlog⟩ := fetchInstr_field_unmapped (s := s.countTick) he hw hm hseen hfield
    ((ramHolds_countTick s s.pc seen).trans hram) hu
  obtain ⟨t, ht, h⟩ := step_fetchFaulted hr hon hi hf
  exact ⟨t, ht, h.faulted, h.pc.trans hfield.symm, h.regs, h.flags, h.interrupts, h.memory, h.env ▸ hlog, h.env ▸ hsched, h.ticks,
    h.clkHalt, h.clkStop, h.config⟩

/-! ## Words of the spec, the unimplemented instructions, and totality -/

/-- Settles O3: each word is the encoding of its instruction under the spec's numbers. -/
theorem sampleWordsDecode : Obligations.SampleWordsDecode :=
  ⟨decode_encode spec_wf (i := .movRI .qword (.view .a .full) 0x12345678) (by decide) [],
    decode_encode spec_wf (i := .movAR .word 0x2000 (.view .a .hl)) rfl [],
    decode_encode spec_wf (i := .addRR (.view .a .full) (.view .b .full)) rfl [],
    decode_encode spec_wf (i := .jne 0x10) rfl [],
    decode_encode spec_wf (i := .hlt) rfl []⟩

/-- The nineteen instructions that have a name and no handler, with their opcodes (30_encoding.md R73). -/
def unimplemented : List (Instr × Opcode) :=
  [(.push, .push), (.pop, .pop), (.mmset, .mmset), (.mmcpy, .mmcpy), (.sub, .sub), (.div, .div), (.mod, .mod), (.dec, .dec),
   (.and, .and), (.not, .not), (.shr, .shr), (.jle, .jle), (.jg, .jg), (.jge, .jge), (.inw, .inw), (.inq, .inq), (.outw, .outw),
   (.outq, .outq), (.intr, .intr)]

/-- Each is its opcode byte alone (format `FU`, 30_encoding.md R69). -/
theorem unimplemented_format : ∀ p ∈ unimplemented, p.2.nullary? = some p.1 ∧ p.1.length = 1 := by decide

theorem unimplemented_exec : ∀ p ∈ unimplemented, ∀ s, exec p.1 s = perform p.1 noHandler s := by
  simp only [unimplemented, List.forall_mem_cons, List.not_mem_nil, false_implies, implies_true, and_true]
  exact ⟨exec_push, exec_pop, exec_mmset, exec_mmcpy, exec_sub, exec_div, exec_mod, exec_dec, exec_and, exec_not, exec_shr, exec_jle,
    exec_jg, exec_jge, exec_inw, exec_inq, exec_outw, exec_outq, exec_intr⟩

/-- Settles O34: the default handler faults, and what `perform` records of a one-byte instruction is its opcode. -/
theorem unimplementedInstructionsFault : Obligations.UnimplementedInstructionsFault := by
  intro s i o hio
  obtain ⟨hnullary, hlength⟩ : o.nullary? = some i ∧ i.length = 1 := unimplemented_format (i, o) hio
  obtain ⟨-, hencode⟩ := encode_of_nullary (e := s.encoding) hnullary
  have hexec : exec i s = perform i noHandler s := unimplemented_exec (i, o) hio s
  have hperform : perform i noHandler s =
      .next ((s.past i.length).raiseFault (originOf (encode s.encoding i) s.pc) .unimplementedOpcode 0) := perform_trap rfl
  rw [hencode, hlength] at hperform
  exact ⟨_, hexec.trans hperform, ⟨rfl, rfl⟩, rfl, sameRegs_of rfl rfl rfl rfl rfl rfl, ⟨rfl, rfl⟩, ⟨rfl, rfl, rfl, rfl, rfl⟩,
    ⟨rfl, rfl, rfl, rfl⟩, sameMemory_of rfl, rfl⟩

/-- Settles O57: every meaning runs in the frame of `perform`, which answers a next state. -/
theorem everyInstructionHasANextState : Obligations.EveryInstructionHasANextState := by
  intro i s
  obtain ⟨body, hbody⟩ := exec_runs i
  rw [hbody]
  exact perform_next i body s

end Machine

end Sys2Proof
end

section
/-! SUPPORT. MOV over RAM, and MOV that meets a byte nothing serves (40_mov.md R90, R91, R94; 20_memory.md R48; 60_exceptions.md R171,
R172): what a sized move leaves in a register, in RAM, and where its source or its destination faults. -/

namespace Sys2Proof.Machine

/-! ## A move whose source changes nothing -/

/-- A register write in the execute phase of an `n`-byte instruction changes that register alone (40_mov.md R94). -/
theorem onlyWrites_writeReg (s : State) (n : Nat) (r : Reg) (v : Word) : s.onlyWrites ((s.past n).writeReg r v) r n :=
  ⟨State.writeReg_pc _ r v, sameRegsBut_writeReg (past_sameRegs s n) r v, ⟨by simp, by simp⟩, sameSystem_writeReg (s.past n) r v,
    sameMemory_of (by simp), by simp⟩

/-- A store in the execute phase of a `k`-byte instruction leaves the low bytes of its value in RAM and changes no other byte. -/
theorem storedAt_storeBytes {s : State} (hm : Memory.wf s.mem = true) (a : Word) (n : Size) (v : Word) (k : Nat) :
    s.storedAt ((s.past k).setMem (storeBytes (leBytes n v) a s.mem)) a n v.toNat k := by
  refine ⟨?_, rfl, sameRegs_of rfl rfl rfl rfl rfl rfl, ⟨rfl, rfl⟩, ⟨⟨rfl, rfl⟩, ⟨rfl, rfl, rfl, rfl, rfl⟩, ⟨rfl, rfl, rfl, rfl⟩⟩,
    sameMemoryBut_storeBytes s a n v, rfl⟩
  rw [← size_cut_toNat, ← ramValue_storeBytes (s.past k) a n v hm, past_mem]

/-- A store keeps only the size's low bytes, so that it is the same for a value cut to the size (40_mov.md R91). -/
theorem storedAt_cut {s t : State} {a v : Word} {n : Size} {k : Nat} : s.storedAt t a n (n.cut v).toNat k ↔ s.storedAt t a n v.toNat k := by
  rw [State.storedAt, State.storedAt, size_cut_toNat, Nat.mod_mod]

/-- A MOV into a register whose source answers `v` and changes nothing. -/
theorem exec_move_reg {i : Instr} {n : Size} {r : Reg} {o : Source} {s : State} {v : Word} {k : Nat}
    (hexec : exec i s = perform i (move n (.reg r) o) s) (hk : i.length = k) (hload : o.load n (s.past k) = .ok v (s.past k)) :
    ∃ t, exec i s = .next t ∧ (t.readReg r).toNat = v.toNat % 2 ^ r.width ∧ s.onlyWrites t r k := by
  subst hk
  have hrun : move n (.reg r) o (s.past i.length) = .ok () ((s.past i.length).writeReg r v) := by rw [move_reg, hload, ok_andThen]
  exact ⟨_, hexec.trans (perform_ok hrun), readReg_writeReg_same _ r v, onlyWrites_writeReg s i.length r v⟩

/-- A MOV into RAM whose source answers `v` and changes nothing. -/
theorem exec_move_ram {i : Instr} {n : Size} {x : Address} {o : Source} {s : State} {v : Word} {k : Nat}
    (hexec : exec i s = perform i (move n (.mem x) o) s) (hk : i.length = k) (hm : Memory.wf s.mem = true)
    (hram : s.ramRange (x.ea (s.past k)) n.bytes = true) (hload : o.load n (s.past k) = .ok v (s.past k)) :
    ∃ t, exec i s = .next t ∧ s.storedAt t (x.ea (s.past k)) n v.toNat k := by
  subst hk
  have hrun : move n (.mem x) o (s.past i.length) =
      .ok () ((s.past i.length).setMem (storeBytes (leBytes n v) (x.ea (s.past i.length)) s.mem)) := by
    rw [move_mem, hload, ok_andThen, memWrite_ram v ((past_ramRange s _ _ _).trans hram), past_mem]
  exact ⟨_, hexec.trans (perform_ok hrun), storedAt_storeBytes hm _ n v i.length⟩

/-- A MOV of a literal or a register into RAM: what is stored is the low bytes of the whole value (40_mov.md R90, R91). -/
theorem exec_move_ram_cut {i : Instr} {n : Size} {x : Address} {o : Source} {s : State} {v : Word} {k : Nat}
    (hexec : exec i s = perform i (move n (.mem x) o) s) (hk : i.length = k) (hm : Memory.wf s.mem = true)
    (hram : s.ramRange (x.ea (s.past k)) n.bytes = true) (hload : o.load n (s.past k) = .ok (n.cut v) (s.past k)) :
    ∃ t, exec i s = .next t ∧ s.storedAt t (x.ea (s.past k)) n v.toNat k := by
  obtain ⟨t, ht, hstored⟩ := exec_move_ram hexec hk hm hram hload
  exact ⟨t, ht, storedAt_cut.1 hstored⟩

/-- A source in RAM answers the value that stood there before the instruction, and changes nothing. -/
theorem load_past_ram (x : Address) {n : Size} {s : State} {k : Nat} (h : s.ramRange (x.ea (s.past k)) n.bytes = true) :
    (Source.mem x).load n (s.past k) = .ok (s.ramValue (x.ea (s.past k)) n) (s.past k) :=
  past_ramValue s k _ n ▸ load_ram ((past_ramRange s k _ _).trans h)

/-- Settles O17: each form is a move into a register, by its source. -/
theorem movWritesDestinationRegister : Obligations.MovWritesDestinationRegister := by
  intro n r1 r2 a2 v s
  refine ⟨?_, ?_, fun h => ?_, fun h => ?_⟩
  · rw [← size_cut_toNat]
    exact exec_move_reg (exec_movRI n r1 v s) (length_movRI n r1 v) rfl
  · exact exec_move_reg (n := .qword) (o := .reg r2) (exec_movRR r1 r2 s) rfl rfl
  · exact exec_move_reg (exec_movRA n r1 a2 s) rfl (load_past_ram (.abs a2) h)
  · exact exec_move_reg (exec_movRP n r1 r2 s) rfl (load_past_ram (.ind r2) h)

/-- Settles O18: each form is a move into RAM, by its destination and its source. -/
theorem movStoresAtEffectiveAddress : Obligations.MovStoresAtEffectiveAddress := by
  intro n r1 r2 a1 a2 v s hm
  refine ⟨fun hd => ⟨?_, ?_, fun hs => ?_, fun hs => ?_⟩, fun hd => ?_, fun hd => ⟨?_, fun hs => ?_⟩, fun hd hs => ?_⟩
  · exact exec_move_ram_cut (exec_movAI n a1 v s) (length_movAI n a1 v) hm hd rfl
  · exact exec_move_ram_cut (exec_movAR n a1 r2 s) rfl hm hd rfl
  · exact exec_move_ram (exec_movAA n a1 a2 s) rfl hm hd (load_past_ram (.abs a2) hs)
  · exact exec_move_ram (exec_movAP n a1 r2 s) rfl hm hd (load_past_ram (.ind r2) hs)
  · exact exec_move_ram_cut (exec_movPI n r1 v s) (length_movPI n r1 v) hm hd rfl
  · exact exec_move_ram_cut (exec_movPR n r1 r2 s) rfl hm hd rfl
  · exact exec_move_ram (exec_movPP n r1 r2 s) rfl hm hd (load_past_ram (.ind r2) hs)
  · exact exec_move_ram (exec_movPA n r1 a2 s) rfl hm hd (load_past_ram (.abs a2) hs)

/-! ## A move that meets a byte nothing serves -/

/-- A source that meets a byte nothing serves faults there; the regions have seen the reads before it, and only the environment has
changed (20_memory.md R44, R48). -/
theorem load_unmapped {o : Source} {n : Size} {s : State} {j : Nat} {b : Word} (hb : (o.reads n s)[j]? = some b)
    (ht : ((o.reads n s).take j).all s.mapped = true) (hu : s.mapped b = false) :
    ∃ e, o.load n s = .trap .busError b (s.setEnv e) ∧ e.schedule = s.env.schedule ∧
      e.log = s.env.log ++ s.readEvents ((o.reads n s).take j) := by
  cases o with
  | imm v | reg r => exact nomatch hb
  | mem x =>
    obtain ⟨hfirst, rfl, htake⟩ := firstUnmapped_of_getElem hb ht hu
    rw [Source.reads, htake]
    exact memRead_unmapped hfirst

/-- A fault of the source is the fault of the move: the destination is not reached (40_mov.md R90). -/
theorem move_load_trap {n : Size} {o : Source} {s t : State} {k : FaultKind} {info : Word} (h : o.load n s = .trap k info t) (d : Dest) :
    move n d o s = .trap k info t := by
  cases d with
  | reg r => rw [move_reg, h, trap_andThen]
  | mem x => rw [move_mem, h, trap_andThen]

/-- A move whose source is served and whose destination meets a byte nothing serves: the source's reads, then the writes of the bytes
before it, and BusError there (20_memory.md R45, R48; 60_exceptions.md R172). -/
theorem move_mem_unmapped {n : Size} {x : Address} {o : Source} {s : State} {j : Nat} (hm : Memory.wf s.mem = true)
    (hr : (o.reads n s).all s.mapped = true) (hu : s.firstUnmapped (x.ea s) n.bytes j = true) :
    ∃ m e, move n (.mem x) o s = .trap .busError (x.ea s + BitVec.ofNat 32 j) ((s.setMem m).setEnv e) ∧
      e.schedule = s.env.schedule ∧
      e.log = s.env.log ++ s.readEvents (o.reads n s) ++ s.writeEvents (addrsFrom (x.ea s) j) (bytesOf j (o.fetched n s).toNat) ∧
      (∀ k < j, s.claimed (x.ea s + BitVec.ofNat 32 k) = false →
        (memGet m (x.ea s + BitVec.ofNat 32 k).toNat).toNat = byteOf (o.fetched n s).toNat k) ∧
      (∀ b : Word, s.claimed b = true ∨ b ∉ addrsFrom (x.ea s) j → memGet m b.toNat = memGet s.mem b.toNat) := by
  obtain ⟨e, hload, hsched, hlog⟩ := load_mapped hr
  obtain ⟨t, hwrite, hframe, hlog', hsched', hbytes, hother⟩ :=
    partialStoreBeforeBusError (s.setEnv e) (x.ea s) n (o.fetched n s) j hm hu
  refine ⟨t.mem, t.env, ?_, hsched'.trans hsched, ?_, hbytes, hother⟩
  · rw [move_mem, hload, ok_andThen, hwrite]
    exact congrArg _ hframe
  · rw [hlog', State.setEnv_env, hlog]; rfl

/-! ## The fault record of a MOV -/

/-- Every MOV starts with the opcode byte of MOV (30_encoding.md R60, R69). -/
theorem encode_headD_of_isMov {i : Instr} (h : isMov i = true) (e : Encoding) : (encode e i).headD 0 = e.opcode .mov := by
  cases i with
  | movRI | movRR | movRA | movRP | movAI | movAR | movAA | movAP | movPI | movPR | movPA | movPP => rfl
  | _ => exact nomatch h

theorem tail_headD_eq_getD (bs : List Byte) : bs.tail.headD 0 = bs.getD 1 0 := by
  rw [List.headD_eq_head?_getD, List.head?_tail, List.getD_eq_getElem?_getD]

/-- `t` is `s` after the MOV `i` met a byte at `b` that nothing serves: the fault is recorded, and but for `PC`, memory and what regions
have seen nothing has changed (60_exceptions.md R171, R172). -/
def State.movFaulted (s t : State) (i : Instr) (b : Word) : Prop :=
  s.faultedFrom t .busError b (s.encoding.opcode .mov) ((encode s.encoding i).getD 1 0) ∧
    t.pc = s.pc + BitVec.ofNat 32 i.length ∧ s.sameRegs t ∧ s.sameFlags t ∧ s.sameInterrupts t ∧ s.sameClock t ∧
    t.env.schedule = s.env.schedule

/-- A MOV whose execute phase faults at `b`, having changed only memory and the environment. -/
theorem exec_movFaulted {i : Instr} {body : State → Res Unit} {s : State} {m : Memory} {e : Env} {b : Word} (hi : isMov i = true)
    (hexec : exec i s = perform i body s)
    (hrun : body (s.past i.length) = .trap .busError b (((s.past i.length).setMem m).setEnv e))
    (hsched : e.schedule = s.env.schedule) :
    ∃ t, exec i s = .next t ∧ s.movFaulted t i b ∧ t.mem = m ∧ t.env = e := by
  refine ⟨_, hexec.trans (perform_trap hrun), ⟨⟨?_, rfl⟩, rfl, sameRegs_of rfl rfl rfl rfl rfl rfl, ⟨rfl, rfl⟩,
    ⟨rfl, rfl, rfl, rfl, rfl⟩, ⟨rfl, rfl, rfl, rfl⟩, hsched⟩, rfl, rfl⟩
  rw [← encode_headD_of_isMov hi, ← tail_headD_eq_getD]
  rfl

/-- Settles O20: the first clause by the source of the move that the MOV is, the second by its destination. -/
theorem movBusErrorsAreRecorded : Obligations.MovBusErrorsAreRecorded := by
  intro i s j b hi hm failed
  obtain ⟨n, d, o, hmove⟩ := exists_isMove hi
  rw [hmove.reads_eq, hmove.writes_eq, hmove.value_eq]
  refine ⟨fun hb ht hu => ?_, fun hr hb ht hu => ?_⟩
  · obtain ⟨e, hload, hsched, hlog⟩ := load_unmapped (s := s.past i.length) hb ht hu
    obtain ⟨t, hnext, hfailed, hmem, henv⟩ := exec_movFaulted (m := s.mem) hi (hmove.exec_eq s) (move_load_trap hload d) hsched
    exact ⟨t, hnext, hfailed, sameMemory_of hmem, henv ▸ hlog⟩
  · cases d with
    | reg r => exact nomatch hb
    | mem x =>
      obtain ⟨hfirst, rfl, htake⟩ := firstUnmapped_of_getElem (s := s.past i.length) hb ht hu
      obtain ⟨m, e, hrun, hsched, hlog, hbytes, hother⟩ := move_mem_unmapped (s := s.past i.length) hm hr hfirst
      obtain ⟨t, hnext, hfailed, rfl, rfl⟩ := exec_movFaulted hi (hmove.exec_eq s) hrun hsched
      rw [Dest.writes, htake]
      refine ⟨t, hnext, hfailed, hlog, fun k c hk hc hclaim => ?_, hother⟩
      obtain ⟨-, rfl⟩ := addrsFrom_getElem?.1 hc
      exact hbytes k hk hclaim

end Sys2Proof.Machine
end

section
/-! SUPPORT. CMP and the control transfers (41_compare_and_control.md R100 to R109, R113): the bits of the flags word, the one
equation of a jump, and what a call, a return and a return from interrupt leave where their stack is in RAM and where it meets a byte
nothing serves. -/

namespace Sys2Proof.Machine

/-! ## CMP -/

theorem flagIf_getLsbD (c : Bool) (i : Nat) {k : Nat} (hk : k < 16) : (flagIf c i).getLsbD k = true ↔ c = true ∧ k = i := by
  have hbit : (1#16 <<< i).getLsbD k = true ↔ k = i := by
    simp [BitVec.getLsbD_shiftLeft, BitVec.getLsbD_one]
    omega
  cases c with
  | false => simp [flagIf]
  | true => rw [flagIf, if_pos rfl, hbit, eq_self, true_and]

/-- Each bit of the flags word of a CMP is one of the four conditions at its place (41_compare_and_control.md R101). -/
theorem cmpFlags_getLsbD (b : FlagBits) (d : Int) {k : Nat} (hk : k < 16) :
    (cmpFlags b d).getLsbD k = true ↔
      (d = 0 ∧ k = b.zero) ∨ (d < 0 ∧ k = b.underflow) ∨ (d > 0xFFFFFFFF ∧ k = b.overflow) ∨ (d % 2 = 0 ∧ k = b.parity) := by
  simp only [cmpFlags, BitVec.getLsbD_or, Bool.or_eq_true, flagIf_getLsbD _ _ hk, decide_eq_true_eq, or_assoc]

/-- The flags word of a CMP with the flags where the spec puts them, by the sign of the difference and its parity; the difference of
two words is too small for Overflow (41_compare_and_control.md R113). -/
theorem cmpFlags_spec {d : Int} (hd : d ≤ 0xFFFFFFFF) :
    cmpFlags FlagBits.spec d =
      if d = 0 then 0x0009 else if d < 0 then (if d % 2 = 0 then 0x000A else 0x0002) else if d % 2 = 0 then 0x0008 else 0x0000 := by
  have hover : ¬ d > 0xFFFFFFFF := by omega
  by_cases hzero : d = 0
  · subst hzero; decide
  · by_cases hneg : d < 0 <;> by_cases heven : d % 2 = 0 <;> simp only [cmpFlags, hover, hzero, hneg, heven] <;> decide

theorem cmpDiff_le (a b : Word) : cmpDiff a b ≤ 0xFFFFFFFF := by
  have := a.isLt
  unfold cmpDiff
  omega

/-- The next state of a CMP: `FLAGS` and `PC`, and nothing else (41_compare_and_control.md R101). -/
theorem perform_compareWith (i : Instr) (r : Reg) (o : Right) (s : State) :
    perform i (compareWith r o) s = .next ((s.past i.length).setFlags
      (cmpFlags s.encoding.flags (cmpDiff ((s.past i.length).readReg r) (o.value (s.past i.length))))) := perform_ok rfl

theorem sameRegs_past_setFlags (s : State) (n : Nat) (f : Half) : s.sameRegs ((s.past n).setFlags f) :=
  sameRegs_of rfl rfl rfl rfl rfl rfl

theorem sameSystem_past_setFlags (s : State) (n : Nat) (f : Half) : s.sameSystem ((s.past n).setFlags f) :=
  ⟨⟨rfl, rfl⟩, ⟨rfl, rfl, rfl, rfl, rfl⟩, rfl, rfl, rfl, rfl⟩

/-- Settles O21: both forms by `perform_compareWith`, the bits by `cmpFlags_getLsbD`. -/
theorem cmpSetsFlagsFromDifference : Obligations.CmpSetsFlagsFromDifference := by
  intro r1 r2 v s place law
  have hlaw (n : Nat) (a b : Word) : law ((s.past n).setFlags (cmpFlags place (cmpDiff a b))) a.toNat b.toNat n :=
    ⟨fun _ hk => cmpFlags_getLsbD place _ hk, rfl, sameRegs_past_setFlags s n _, rfl, sameSystem_past_setFlags s n _,
      sameMemory_of rfl, rfl⟩
  exact ⟨⟨_, perform_compareWith (.cmpRR r1 r2) r1 (.reg r2) s, hlaw 4 _ _⟩,
    ⟨_, perform_compareWith (.cmpRI r1 v) r1 (.imm v) s, hlaw 7 _ _⟩⟩

/-- The flags word after a CMP of either form, with the flags where the spec puts them. -/
theorem perform_compareWith_flags {i : Instr} {r : Reg} {o : Right} {s t : State} (hspec : s.encoding.flags = FlagBits.spec)
    (h : perform i (compareWith r o) s = .next t) :
    t.flags = cmpFlags FlagBits.spec (cmpDiff ((s.past i.length).readReg r) (o.value (s.past i.length))) := by
  rw [perform_compareWith, hspec] at h
  injection h with h
  exact h ▸ rfl

/-- The five values of the flags word (41_compare_and_control.md R113). -/
theorem cmpFlags_spec_mem (a b : Word) :
    cmpFlags FlagBits.spec (cmpDiff a b) ∈ ([0x0000, 0x0002, 0x0008, 0x0009, 0x000A] : List Half) := by
  rw [cmpFlags_spec (cmpDiff_le a b)]
  split_ifs <;> decide

/-- The rows of the spec's table, each by `cmpFlags_spec` (41_compare_and_control.md R113). -/
theorem cmpFlags_spec_table :
    ∀ p ∈ ([(5, 5, 0x0009), (3, 5, 0x000A), (5, 3, 0x0008), (5, 4, 0x0000), (4, 5, 0x0002), (0xFFFFFFFF, 0, 0x0000),
      (0, 0xFFFFFFFF, 0x0002), (0x80000000, 0x7FFFFFFF, 0x0000)] : List (Word × Word × Half)),
      cmpFlags FlagBits.spec (cmpDiff p.1 p.2.1) = p.2.2 := by
  simp [cmpFlags_spec, cmpDiff]

/-- Settles O22: what either form leaves is `cmpFlags` of the difference; the table is its value at eight differences. -/
theorem cmpFlagOutcomes : Obligations.CmpFlagOutcomes := by
  refine ⟨fun r1 s t a b f hspec hrow ha he => ?_, fun r1 r2 v s t hspec he => ?_⟩
  · rw [perform_compareWith_flags hspec (exec_cmpRI r1 b s ▸ he), length_cmpRI, ha]
    exact cmpFlags_spec_table (a, b, f) hrow
  · obtain he | he := he
    · exact perform_compareWith_flags hspec (exec_cmpRR r1 r2 s ▸ he) ▸ cmpFlags_spec_mem _ _
    · exact perform_compareWith_flags hspec (exec_cmpRI r1 v s ▸ he) ▸ cmpFlags_spec_mem _ _

/-! ## Jumps -/

/-- A jump writes `PC` and nothing else (41_compare_and_control.md R100). -/
theorem perform_jumpIf (i : Instr) (c : State → Bool) (t : Word) (s : State) :
    perform i (jumpIf c t) s =
      .next { s with pc := if c (s.past i.length) = true then t else s.pc + BitVec.ofNat 32 i.length } := by
  refine perform_ok (u := ()) ?_
  unfold jumpIf
  split <;> rfl

/-- Settles O23: each jump by `perform_jumpIf`, its condition read in the state past the instruction. -/
theorem jumpsWriteOnlyPc : Obligations.JumpsWriteOnlyPc := by
  intro t s zero underflow
  refine ⟨perform_jumpIf (.jmp t) (fun _ => true) t s, perform_jumpIf (.je t) State.zero t s, ?_,
    perform_jumpIf (.jl t) State.underflow t s⟩
  have hjne : exec (.jne t) s = .next { s with pc := if (!zero) = true then t else s.pc + 6 } :=
    perform_jumpIf (.jne t) (fun u => !u.zero) t s
  rw [hjne]
  cases zero <;> rfl

/-! ## What a transfer over the stack leaves alone -/

/-- Every register but `PC` and `SP`, `FLAGS`, `CLOCKS`, the interrupt controller, the clock sequencer and the configuration are as
before: a call or a return has none of them to write. -/
def State.sameOffStack (s t : State) : Prop :=
  s.sameRegsBut t (.special .sp) ∧ s.sameFlags t ∧ s.sameInterrupts t ∧ s.sameClock t

theorem sameOffStack_of_update (s : State) (pc sp status : Word) (fault : FaultRecord) (mem : Memory) (env : Env) :
    s.sameOffStack { s with pc := pc, sp := sp, status := status, fault := fault, mem := mem, env := env } :=
  ⟨sameRegsBut_sp_of rfl rfl rfl rfl rfl, ⟨rfl, rfl⟩, ⟨rfl, rfl, rfl, rfl, rfl⟩, rfl, rfl, rfl, rfl⟩

/-- Where `SP` is as before too, every register but `PC` is. -/
theorem sameRegs_of_sp {s t : State} (h : s.sameRegsBut t (.special .sp)) (hsp : t.sp = s.sp) : s.sameRegs t := by
  intro q hq
  by_cases e : q = .special .sp
  · subst e; exact hsp
  · refine h q ?_ hq
    cases q with
    | view g v => rfl
    | special r => simpa [Reg.apart] using e

/-- An instruction whose execute phase, having changed at most `SP`, `STATUS`, memory and the environment, meets a byte nothing serves:
the fault is recorded over the status word as it then stood, and `PC` is past the instruction (60_exceptions.md R171, R172). -/
theorem exec_stackFault {i : Instr} {body : State → Res Unit} {s : State} {b sp status : Word} {mem : Memory} {env : Env}
    (hexec : exec i s = perform i body s)
    (hrun : body (s.past i.length) =
      .trap .busError b { s.past i.length with sp := sp, status := status, mem := mem, env := env }) :
    ∃ t, exec i s = .next t ∧
      (s.setStatus status).faultedFrom t .busError b ((encode s.encoding i).headD 0) ((encode s.encoding i).tail.headD 0) ∧
      t.sp = sp ∧ t.pc = s.pc + BitVec.ofNat 32 i.length ∧ s.sameOffStack t ∧ t.mem = mem ∧ t.env = env :=
  ⟨_, hexec.trans (perform_trap hrun), ⟨rfl, rfl⟩, rfl, rfl, sameOffStack_of_update s _ _ _ _ _ _, rfl, rfl⟩

/-! ## CALL and CALLE -/

/-- The outcome depends on what the execute phase does past the instruction alone. -/
theorem perform_congr {i : Instr} {body body' : State → Res Unit} {s : State}
    (h : body (s.past i.length) = body' (s.past i.length)) : perform i body s = perform i body' s := by
  unfold perform State.past at *
  rw [h]

theorem exec_calle_taken {s : State} (target : Word) (h : s.zero = true) :
    exec (.calle target) s = perform (.calle target) (callTo target) s :=
  (exec_calle target s).trans (perform_congr (if_pos h))

theorem exec_calle_not_taken {s : State} (target : Word) (h : s.zero = false) : exec (.calle target) s = .next (s.past 6) :=
  (exec_calle target s).trans (perform_ok (u := ()) (if_neg (Bool.eq_false_iff.1 h)))

theorem onlyMovesPc_past (s : State) (n : Nat) : s.onlyMovesPc (s.past n) (s.pc + BitVec.ofNat 32 n) :=
  ⟨rfl, past_sameRegs s n, ⟨rfl, rfl⟩, ⟨⟨rfl, rfl⟩, ⟨rfl, rfl, rfl, rfl, rfl⟩, rfl, rfl, rfl, rfl⟩, sameMemory_of rfl, rfl⟩

/-- `t` is `s` after a call to `target` over a stack in RAM (41_compare_and_control.md R106). -/
def State.called (s t : State) (target : Word) : Prop :=
  t.pc = target ∧ t.sp = s.sp - 4 ∧ t.ramValue t.sp .qword = s.pc + 6 ∧ s.sameMemoryBut t (s.sp - 4) 4 ∧
    s.sameRegsBut t (.special .sp) ∧ s.sameFlags t ∧ s.sameSystem t ∧ t.env = s.env

/-- `t` is `s` after a call whose push met a byte nothing serves, `j` places above the new `SP` (60_exceptions.md R172). -/
def State.callFaulted (s t : State) (j : Nat) (op : Opcode) : Prop :=
  s.faultedFrom t .busError (s.sp - 4 + BitVec.ofNat 32 j) (s.encoding.opcode op) (s.encoding.mode (.single .imm)) ∧
    t.sp = s.sp - 4 ∧ t.pc = s.pc + 6 ∧ s.sameRegsBut t (.special .sp) ∧ s.sameFlags t ∧ s.sameInterrupts t ∧
    s.sameClock t ∧ s.sameMemoryBut t (s.sp - 4) j ∧
    t.env.log = s.env.log ++ s.writeEvents (addrsFrom (s.sp - 4) j) (bytesOf j (s.pc + 6).toNat) ∧
    t.env.schedule = s.env.schedule

/-- The push of a call over a stack in RAM, then its jump. -/
theorem callTo_ram {s : State} (target : Word) (h : s.ramRange (s.sp - 4) 4 = true) :
    callTo target s = .ok () { s with
      pc := target
      sp := s.sp - 4
      mem := storeBytes (leBytes .qword s.pc) (s.sp - 4) s.mem } := by
  rw [callTo, push_qword_ram (a := s.sp - 4) s.pc rfl h]
  rfl

/-- A six-byte instruction that calls, over a stack in RAM. -/
theorem exec_callTo_ram {i : Instr} {target : Word} {s : State} (hexec : exec i s = perform i (callTo target) s)
    (hlength : i.length = 6) (hm : Memory.wf s.mem = true) (h : s.ramRange (s.sp - 4) 4 = true) :
    ∃ t, exec i s = .next t ∧ s.called t target := by
  have hrun : callTo target (s.past i.length) = .ok () { s with
      pc := target
      sp := s.sp - 4
      mem := storeBytes (leBytes .qword (s.pc + 6)) (s.sp - 4) s.mem } := by
    rw [hlength]
    exact callTo_ram (s := s.past 6) target h
  obtain ⟨hregs, hflags, hinterrupts, hclock⟩ := sameOffStack_of_update s target (s.sp - 4) s.status s.fault
    (storeBytes (leBytes .qword (s.pc + 6)) (s.sp - 4) s.mem) s.env
  exact ⟨_, hexec.trans (perform_ok hrun), rfl, rfl, ramValue_storeBytes s (s.sp - 4) .qword (s.pc + 6) hm,
    sameMemoryBut_storeBytes s (s.sp - 4) .qword (s.pc + 6), hregs, hflags, ⟨⟨rfl, rfl⟩, hinterrupts, hclock⟩, rfl⟩

/-- A six-byte instruction that calls, where its push meets a byte nothing serves. -/
theorem exec_callTo_unmapped {i : Instr} {op : Opcode} {target : Word} {s : State} {j : Nat}
    (hexec : exec i s = perform i (callTo target) s) (hlength : i.length = 6)
    (hop : (encode s.encoding i).headD 0 = s.encoding.opcode op)
    (hmode : (encode s.encoding i).tail.headD 0 = s.encoding.mode (.single .imm))
    (h : s.firstUnmapped (s.sp - 4) 4 j = true) : ∃ t, exec i s = .next t ∧ s.callFaulted t j op := by
  have hj : j < 4 := (firstUnmapped_iff.1 h).1
  obtain ⟨m, e, hpush, hsched, hlog, hmem⟩ := push_unmapped (s := s.past i.length) (n := .qword) (s.pc + 6) h
  have hrun : callTo target (s.past i.length) = .trap .busError (s.sp - 4 + BitVec.ofNat 32 j)
      { s.past i.length with sp := s.sp - 4, status := s.status, mem := m, env := e } := by
    rw [callTo, past_pc, hlength]
    rw [hlength] at hpush
    exact congrArg (fun r => r.andThen fun _ u => .ok () (u.setPc target)) hpush
  obtain ⟨t, hnext, hfault, hsp, hpc, ⟨hregs, hflags, hinterrupts, hclock⟩, rfl, rfl⟩ := exec_stackFault hexec hrun
  rw [hop, hmode] at hfault
  rw [hlength] at hpc
  rw [leBytes_take hj.le] at hlog
  exact ⟨t, hnext, hfault, hsp, hpc, hregs, hflags, hinterrupts, hclock, fun b hb => hmem b (.inr hb), hlog, hsched⟩

/-- Settles O24: CALL, and CALLE with Zero set, are both the execute phase `callTo`. -/
theorem callPushesReturnAddress : Obligations.CallPushesReturnAddress := by
  intro target s hm call failed
  refine ⟨fun h => ⟨?_, fun hz => ?_⟩, fun hz => ?_, fun j h => ⟨?_, fun hz => ?_⟩⟩
  · exact exec_callTo_ram (exec_call target s) rfl hm h
  · exact exec_callTo_ram (exec_calle_taken target hz) rfl hm h
  · exact ⟨_, exec_calle_not_taken target hz, onlyMovesPc_past s 6⟩
  · exact exec_callTo_unmapped (exec_call target s) rfl rfl rfl h
  · exact exec_callTo_unmapped (exec_calle_taken target hz) rfl rfl rfl h

/-! ## RET and IRET -/

/-- `t` is `s` after a one-byte instruction whose pop at `a` met a byte nothing serves, `j` places above: the regions have seen the reads
before it, `SP` is at `a` and the fault is recorded over the status word `status` (60_exceptions.md R171, R172). -/
def State.popFaulted (s t : State) (status a : Word) (j : Nat) (op : Opcode) : Prop :=
  (s.setStatus status).faultedFrom t .busError (a + BitVec.ofNat 32 j) (s.encoding.opcode op) 0 ∧ t.sp = a ∧ t.pc = s.pc + 1 ∧
    s.sameRegsBut t (.special .sp) ∧ s.sameFlags t ∧ s.sameInterrupts t ∧ s.sameClock t ∧ s.sameMemory t ∧
    t.env.log = s.env.log ++ s.readEvents (addrsFrom a j) ∧ t.env.schedule = s.env.schedule

/-- A one-byte instruction whose execute phase faults where a pop does, at an `SP` and under a status word that it may have replaced
before. -/
theorem exec_popFault {i : Instr} {op : Opcode} {body : State → Res Unit} {s : State} {status a : Word} {j : Nat}
    (hexec : exec i s = perform i body s) (hencode : encode s.encoding i = [s.encoding.opcode op]) (hlength : i.length = 1)
    (hbody : ∀ k b u, pop (((s.past 1).setSp a).setStatus status) .qword = .trap k b u → body (s.past 1) = .trap k b u)
    (h : s.firstUnmapped a 4 j = true) : ∃ t, exec i s = .next t ∧ s.popFaulted t status a j op := by
  obtain ⟨e, hpop, hsched, hlog⟩ := pop_unmapped (s := ((s.past 1).setSp a).setStatus status) (n := .qword) h
  have hrun := hbody _ _ _ hpop
  rw [← hlength] at hrun
  obtain ⟨t, hnext, hfault, hsp, hpc, ⟨hregs, hflags, hinterrupts, hclock⟩, hmem, rfl⟩ := exec_stackFault hexec hrun
  rw [hencode] at hfault
  rw [hlength] at hpc
  exact ⟨t, hnext, hfault, hsp, hpc, hregs, hflags, hinterrupts, hclock, sameMemory_of hmem, hlog, hsched⟩

/-- A one-byte instruction whose first act is a pop that faults: `SP` is as before, so every register but `PC` is. -/
theorem exec_firstPopFault {i : Instr} {op : Opcode} {body : State → Res Unit} {s : State} {j : Nat}
    (hexec : exec i s = perform i body s) (hencode : encode s.encoding i = [s.encoding.opcode op]) (hlength : i.length = 1)
    (hbody : ∀ k b u, pop (s.past 1) .qword = .trap k b u → body (s.past 1) = .trap k b u) (h : s.firstUnmapped s.sp 4 j = true) :
    ∃ t, exec i s = .next t ∧ s.faultedFrom t .busError (s.sp + BitVec.ofNat 32 j) (s.encoding.opcode op) 0 ∧ t.sp = s.sp ∧
      t.pc = s.pc + 1 ∧ s.sameRegs t ∧ s.sameFlags t ∧ s.sameInterrupts t ∧ s.sameClock t ∧ s.sameMemory t ∧
      t.env.log = s.env.log ++ s.readEvents (addrsFrom s.sp j) ∧ t.env.schedule = s.env.schedule := by
  obtain ⟨t, hnext, hfault, hsp, hpc, hregs, hrest⟩ := exec_popFault (status := s.status) hexec hencode hlength hbody h
  exact ⟨t, hnext, hfault, hsp, hpc, sameRegs_of_sp hregs hsp, hrest⟩

/-- A pop from RAM into `PC` (41_compare_and_control.md R108). -/
theorem popPc_ram {s : State} (h : s.ramRange s.sp 4 = true) :
    ((pop s .qword).andThen fun v w => .ok () (w.setPc v)) =
      Res.ok () { s with pc := s.ramValue s.sp .qword, sp := s.sp + 4 } := by
  rw [pop_ram (n := .qword) h]
  rfl

theorem popPc_trap {s u : State} {k : FaultKind} {b : Word} (h : pop s .qword = .trap k b u) :
    ((pop s .qword).andThen fun v w => .ok () (w.setPc v)) = Res.trap k b u := by
  rw [h, trap_andThen]

/-- Settles O25: the pop in RAM by `popPc_ram`, the failing one by `exec_firstPopFault`. -/
theorem retPopsProgramCounter : Obligations.RetPopsProgramCounter := by
  refine fun s => ⟨fun h => ?_, fun j h => exec_firstPopFault (exec_ret s) rfl rfl (fun _ _ _ => popPc_trap) h⟩
  obtain ⟨hregs, hflags, hinterrupts, hclock⟩ :=
    sameOffStack_of_update s (s.ramValue s.sp .qword) (s.sp + 4) s.status s.fault s.mem s.env
  exact ⟨_, (exec_ret s).trans (perform_ok (popPc_ram (s := s.past 1) h)), rfl, rfl, hregs, hflags,
    ⟨⟨rfl, rfl⟩, hinterrupts, hclock⟩, sameMemory_of rfl, rfl⟩

theorem returnFromInterrupt_first_trap {s u : State} {k : FaultKind} {b : Word} (h : pop s .qword = .trap k b u) :
    returnFromInterrupt s = .trap k b u := by
  rw [returnFromInterrupt, h, trap_andThen]

/-- Where the first pop is from RAM, a fault of the second is that of IRET, over the status word popped (41_compare_and_control.md R109). -/
theorem returnFromInterrupt_second_trap {s u : State} {k : FaultKind} {b : Word} (hs : s.ramRange s.sp 4 = true)
    (h : pop ((s.setSp (s.sp + 4)).setStatus (s.ramValue s.sp .qword)) .qword = .trap k b u) :
    returnFromInterrupt s = .trap k b u := by
  rw [returnFromInterrupt, pop_ram (n := .qword) hs, ok_andThen]
  exact congrArg (fun r => r.andThen fun w s2 => .ok () (s2.setPc w)) h

/-- Settles O26: both pops in RAM by `returnFromInterrupt_ram`, the first failing by `exec_firstPopFault`, the second, made under the
status word popped, by `exec_popFault`. -/
theorem iretPopsStatusThenProgramCounter : Obligations.IretPopsStatusThenProgramCounter := by
  refine fun s => ⟨fun h1 h2 => ?_, fun j h => ?_, fun j h1 h2 => ?_⟩
  · obtain ⟨hregs, hflags, hinterrupts, hclock⟩ := sameOffStack_of_update s (s.ramValue (s.sp + 4) .qword) (s.sp + 8)
      (s.ramValue s.sp .qword) s.fault s.mem s.env
    exact ⟨_, (exec_iret s).trans (perform_ok (returnFromInterrupt_ram (s := s.past 1) h1 h2)), rfl, rfl, rfl, hregs, hflags, rfl,
      hinterrupts, hclock, sameMemory_of rfl, rfl⟩
  · exact exec_firstPopFault (exec_iret s) rfl rfl (fun _ _ _ => returnFromInterrupt_first_trap) h
  · exact exec_popFault (exec_iret s) rfl rfl (fun _ _ _ => returnFromInterrupt_second_trap (s := s.past 1) h1) h2

/-! ## A call and its return -/

/-- Settles O27: the RET pops what the CALL pushed, since the slot and what serves it are as the CALL left them. -/
theorem callThenRetReturns : Obligations.CallThenRetReturns := by
  intro target s t u hm h he husp hconfig hslot
  obtain ⟨t', hnext, -, hsp, hvalue, -, -, -, ⟨-, -, -, -, -, hconfig'⟩, -⟩ := exec_callTo_ram (exec_call target s) rfl hm h
  obtain rfl : t = t' := Host.Outcome.next.inj (he.symm.trans hnext)
  have hram : u.ramRange u.sp 4 = true := by rwa [ramRange_of_config (hconfig.trans hconfig'), husp, hsp]
  obtain ⟨w, hret, hpc, hwsp, -⟩ := (retPopsProgramCounter u).1 hram
  refine ⟨w, hret, ?_, ?_⟩
  · rw [hpc, husp, ramValue_of_bytes (n := .qword) hslot, hvalue]
  · rw [hwsp, husp, hsp, BitVec.sub_add_cancel]

end Sys2Proof.Machine
end

section
/-! SUPPORT. ADD, MUL, OR, SHL and INC (42_alu.md R120 to R124, R133, R134): each word operation is the exact one modulo 2^32, and a
write through a view reduces it further to the width of the view. -/

namespace Sys2Proof.Machine

/-! ## The word operations, in numbers -/

theorem addWord_toNat (a b : Word) : (addWord a b).toNat = (a.toNat + b.toNat) % 2 ^ 32 := BitVec.toNat_ofNat ..

theorem mulWord_toNat (a b : Word) : (mulWord a b).toNat = a.toNat * b.toNat % 2 ^ 32 := BitVec.toNat_ofNat ..

/-- The or of two words is a word: nothing is lost (42_alu.md R123). -/
theorem orWord_toNat (a b : Word) : (orWord a b).toNat = (a.toNat ||| b.toNat) % 2 ^ 32 := by
  rw [Nat.mod_eq_of_lt (Nat.or_lt_two_pow a.isLt b.isLt)]
  exact BitVec.toNat_or a b

/-- The count is not masked: from 32 on, 2^32 divides the exact result (42_alu.md R124). -/
theorem shlWord_toNat (a n : Word) : (shlWord a n).toNat = a.toNat * 2 ^ n.toNat % 2 ^ 32 := by
  unfold shlWord
  split
  · exact BitVec.toNat_ofNat ..
  · next h =>
    have hdvd : 2 ^ 32 ∣ a.toNat * 2 ^ n.toNat := (Nat.pow_dvd_pow 2 (Nat.le_of_not_lt h)).mul_left a.toNat
    exact (Nat.mod_eq_zero_of_dvd hdvd).symm

/-! ## The execute phase -/

/-- No register operand is wider than a word (10_state.md R12). -/
theorem reg_width_le (r : Reg) : r.width ≤ 32 := by
  cases r with
  | view g v =>
    have hv : v.width ≤ 32 := by cases v <;> decide
    exact hv
  | special q => exact Nat.le_refl 32

/-- An ALU instruction whose word operation answers `x` modulo 2^32 on the operands read with `PC` past it: the destination reads `x`
modulo the width of its view, and nothing else changes (42_alu.md R133, R134). -/
theorem exec_alu {i : Instr} {f : Word → Word → Word} {r : Reg} {o : Right} {s : State} {k x : Nat}
    (hexec : exec i s = perform i (alu f r o) s) (hk : i.length = k)
    (hx : (f ((s.past k).readReg r) (o.value (s.past k))).toNat = x % 2 ^ 32) :
    ∃ t, exec i s = .next t ∧ (t.readReg r).toNat = x % 2 ^ r.width ∧ s.onlyWrites t r k := by
  subst hk
  refine ⟨_, hexec.trans (perform_ok rfl), ?_, onlyWrites_writeReg s i.length r _⟩
  rw [readReg_writeReg_same, hx]
  exact Nat.mod_mod_of_dvd x (Nat.pow_dvd_pow 2 (reg_width_le r))

/-- Settles O28: each of the nine forms by `exec_alu`, with its word operation in numbers. -/
theorem aluWritesExactResultModWidth : Obligations.AluWritesExactResultModWidth := by
  intro r1 r2 v s law a b
  refine ⟨?addRR, ?addRI, ?mulRR, ?mulRI, ?shlRR, ?shlRI, ?orRR, ?orRI, ?inc⟩
  case addRR => exact exec_alu (exec_addRR r1 r2 s) rfl (addWord_toNat _ _)
  case addRI => exact exec_alu (exec_addRI r1 v s) rfl (addWord_toNat _ _)
  case mulRR => exact exec_alu (exec_mulRR r1 r2 s) rfl (mulWord_toNat _ _)
  case mulRI => exact exec_alu (exec_mulRI r1 v s) rfl (mulWord_toNat _ _)
  case shlRR => exact exec_alu (exec_shlRR r1 r2 s) rfl (shlWord_toNat _ _)
  case shlRI => exact exec_alu (exec_shlRI r1 v s) rfl (shlWord_toNat _ _)
  case orRR => exact exec_alu (exec_orRR r1 r2 s) rfl (orWord_toNat _ _)
  case orRI => exact exec_alu (exec_orRI r1 v s) rfl (orWord_toNat _ _)
  case inc => exact exec_alu (exec_inc r1 s) rfl (addWord_toNat _ 1)

end Sys2Proof.Machine
end

section
/-! SUPPORT. INB and OUTB (43_port_io.md R140 to R143; 20_memory.md R53 to R55): INB reads its byte from a source and then hands it to the
port's handler; what a handler's answer leaves of the core, and what a fault leaves before or in place of the call. -/

namespace Sys2Proof.Machine

/-! ## INB as a source and a delivery -/

/-- The execute phase of INB: its byte is read, then handed to the handler of port `p` (43_port_io.md R140). -/
def deliverFrom (p : Byte) (o : Source) (s : State) : Res Unit :=
  (o.load .word s).andThen fun v t => portDeliver t .w8 p v

/-- A byte delivered to a port is the byte itself: nothing of it is cut off (20_memory.md R54). -/
theorem cut_byte (b : Byte) : PortWidth.w8.cut (b.setWidth 32) = b.setWidth 32 := by
  rw [PortWidth.cut, BitVec.setWidth_setWidth_of_le b (by decide), BitVec.setWidth_eq]

/-- The low byte of a word, as a number. -/
theorem lowByte_eq_ofNat (v : Word) : (v.setWidth 8).setWidth 32 = BitVec.ofNat 32 (v.toNat % 256) := by
  apply BitVec.eq_of_toNat_eq
  simp

theorem load_literalByte (b : Byte) (s : State) : (Source.imm (b.setWidth 32)).load .word s = .ok (b.setWidth 32) s :=
  congrArg (Res.ok · s) (cut_byte b)

theorem exec_inbII_deliverFrom (p v : Byte) (s : State) :
    exec (.inbII p v) s = perform (.inbII p v) (deliverFrom p (.imm (v.setWidth 32))) s := by
  refine (exec_inbII p v s).trans (perform_congr ?_)
  rw [deliverFrom, load_literalByte, ok_andThen]

theorem exec_inbIR_deliverFrom (p : Byte) (r2 : Reg) (s : State) :
    exec (.inbIR p r2) s = perform (.inbIR p r2) (deliverFrom p (.reg r2)) s := exec_inbIR p r2 s

theorem exec_inbIA_deliverFrom (p : Byte) (a2 : Word) (s : State) :
    exec (.inbIA p a2) s = perform (.inbIA p a2) (deliverFrom p (.mem (.abs a2))) s := exec_inbIA p a2 s

/-! ## A source of one byte of memory -/

/-- A byte of memory that is read is the byte the bus answers, zero-extended (20_memory.md R42). -/
theorem load_memByte {s t : State} {a : Word} {b : Byte} (h : readByte s a = .ok b t) :
    (Source.mem (.abs a)).load .word s = .ok (b.setWidth 32) t := by
  show (readByte s a).andThen _ = _
  rw [h, ok_andThen]

theorem load_memByte_unmapped {s : State} {a : Word} (h : s.mapped a = false) :
    (Source.mem (.abs a)).load .word s = .trap .busError a s := by
  show (readByte s a).andThen _ = _
  rw [readByte_unmapped h, trap_andThen]

/-- What the regions see of the read of one byte they serve. -/
theorem readEvents_region {s : State} {a : Word} {g : Region} (h : s.config.regionAt a = some g) :
    s.readEvents [a] = [.regionRead g a (g.relative a)] := by
  simp [State.readEvents, h, Region.relative]

/-! ## What a handler's answer leaves -/

/-- `t` is `s` but for `PC`, the environment and what the handler raises (43_port_io.md R142). -/
def State.handled (s t : State) (raises : Option Byte) : Prop :=
  s.sameRegs t ∧ s.sameFlags t ∧ s.sameStatus t ∧ s.sameClock t ∧ s.sameMemory t ∧ s.sameButRaise t raises

theorem handled_handlerRaise (s : State) (k : Nat) (e : Env) (raises : Option Byte) :
    s.handled (((s.past k).setEnv e).handlerRaise raises) raises := by
  refine ⟨sameRegs_of ?_ ?_ ?_ ?_ ?_ ?_, ⟨?_, ?_⟩, ⟨?_, ?_⟩, ⟨?_, ?_, ?_, ?_⟩, sameMemory_of ?_, ?_, ?_, ?_, ?slot⟩
  case slot => exact handlerRaise_slot _ _
  all_goals simp

/-- An INB whose byte has been read, on a port with a handler: the byte is delivered (43_port_io.md R140, R142). -/
theorem exec_inb_claimed {i : Instr} {p b : Byte} {o : Source} {s : State} {e : Env} {k : Nat}
    (hexec : exec i s = perform i (deliverFrom p o) s) (hk : i.length = k) (hp : p ∈ s.config.portIn8)
    (hload : o.load .word (s.past k) = .ok (b.setWidth 32) ((s.past k).setEnv e)) (hsched : e.schedule = s.env.schedule) :
    ∃ t, exec i s = .next t ∧ s.delivered t e p (b.setWidth 32) k := by
  subst hk
  have hrun := portDeliver_claimed (s := (s.past i.length).setEnv e) (w := .w8) (b.setWidth 32) hp
  rw [cut_byte, State.setEnv_env] at hrun
  have hbody := (congrArg (Res.andThen · fun v t => portDeliver t .w8 p v) hload).trans hrun
  refine ⟨_, hexec.trans (perform_ok hbody), handlerRaise_env _ _, ?_, ?_, handlerRaise_pc _ _, handled_handlerRaise s _ _ _⟩
  · rw [handlerRaise_env, State.setEnv_env, portAnswer_log]; rfl
  · rw [handlerRaise_env, State.setEnv_env, portAnswer_schedule]; exact hsched

/-- Settles O29: each form by `exec_inb_claimed`, with what its source answers. -/
theorem inbDeliversOneByte : Obligations.InbDeliversOneByte := by
  intro p v r2 a2 s hp
  refine ⟨?literal, ?register, fun hram => ?ram, fun g hg => ?region⟩
  case literal => exact exec_inb_claimed (exec_inbII_deliverFrom p v s) rfl hp (load_literalByte v (s.past 4)) rfl
  case register =>
    rw [← lowByte_eq_ofNat]
    exact exec_inb_claimed (e := s.env) (exec_inbIR_deliverFrom p r2 s) rfl hp rfl rfl
  case ram => exact exec_inb_claimed (exec_inbIA_deliverFrom p a2 s) rfl hp (load_memByte (readByte_ram (s := s.past 7) hram)) rfl
  case region =>
    intro answer
    obtain ⟨t, hnext, henv, hlog, hrest⟩ := exec_inb_claimed (exec_inbIA_deliverFrom p a2 s) rfl hp
      (load_memByte (readByte_region (s := s.past 7) hg)) (regionAnswer_schedule _ g a2)
    refine ⟨t, hnext, ⟨henv, hlog, hrest⟩, ?_, fun b rest hscript => ?_⟩
    · rw [hlog, regionAnswer_log]
      exact List.append_assoc ..
    · exact congrArg Prod.fst (regionAnswer_scripted (e := s.env.see _) hscript g a2)

/-! ## What a fault leaves -/

/-- `t` is `s` after a `k`-byte instruction faulted: but for `PC`, the record with its status bits and the environment nothing has
changed (60_exceptions.md R171). -/
def State.portFaulted (s t : State) (kind : FaultKind) (info : Word) (op : Opcode) (m : Mode) (k : Nat) : Prop :=
  s.faultedFrom t kind info (s.encoding.opcode op) (s.encoding.mode m) ∧ t.pc = s.pc + BitVec.ofNat 32 k ∧
    s.sameRegs t ∧ s.sameFlags t ∧ s.sameInterrupts t ∧ s.sameClock t ∧ s.sameMemory t

/-- An instruction whose execute phase faults, having changed at most the environment. -/
theorem exec_portFaulted {i : Instr} {op : Opcode} {m : Mode} {body : State → Res Unit} {s : State} {e : Env} {kind : FaultKind}
    {info : Word} {k : Nat} (hexec : exec i s = perform i body s) (hk : i.length = k)
    (hop : (encode s.encoding i).headD 0 = s.encoding.opcode op) (hmode : (encode s.encoding i).tail.headD 0 = s.encoding.mode m)
    (hrun : body (s.past k) = .trap kind info ((s.past k).setEnv e)) :
    ∃ t, exec i s = .next t ∧ s.portFaulted t kind info op m k ∧ t.env = e := by
  subst hk
  refine ⟨_, hexec.trans (perform_trap hrun), ⟨⟨?_, rfl⟩, rfl, sameRegs_of rfl rfl rfl rfl rfl rfl, ⟨rfl, rfl⟩,
    ⟨rfl, rfl, rfl, rfl, rfl⟩, ⟨rfl, rfl, rfl, rfl⟩, sameMemory_of rfl⟩, rfl⟩
  rw [← hop, ← hmode]
  rfl

/-- A fault of the source is the fault of INB: the port is not looked for (43_port_io.md R140). -/
theorem deliverFrom_load_trap {p : Byte} {o : Source} {s t : State} {kind : FaultKind} {info : Word}
    (h : o.load .word s = .trap kind info t) : deliverFrom p o s = .trap kind info t := by
  rw [deliverFrom, h, trap_andThen]

/-- Settles O30: the fault is the source's, whatever the port. -/
theorem inbReadsItsByteBeforeThePort : Obligations.InbReadsItsByteBeforeThePort := by
  intro p a2 s h
  have hrun : deliverFrom p (.mem (.abs a2)) (s.past 7) = .trap .busError a2 (s.past 7) :=
    deliverFrom_load_trap (load_memByte_unmapped h)
  obtain ⟨t, hnext, ⟨hfault, hpc, hregs, hflags, hinterrupts, hclock, hmem⟩, henv⟩ :=
    exec_portFaulted (e := s.env) (exec_inbIA_deliverFrom p a2 s) rfl rfl rfl hrun
  exact ⟨t, hnext, hfault, hpc, hregs, hflags, hinterrupts, hclock, hmem, henv⟩

/-- INB on a port without a handler: its byte has been read, and then it faults (43_port_io.md R140; 20_memory.md R54). -/
theorem deliverFrom_unclaimed {p : Byte} {o : Source} {s t : State} {v : Word} (hp : p ∉ t.config.portIn8)
    (hload : o.load .word s = .ok v t) : deliverFrom p o s = .trap .portUnclaimed (p.setWidth 32) t := by
  rw [deliverFrom, hload, ok_andThen]
  exact portDeliver_unclaimed (w := .w8) v hp

/-- Settles O32: INB by what its source answers, OUTB by its request. -/
theorem unclaimedPortFaults : Obligations.UnclaimedPortFaults := by
  intro p v r a2 s failed
  refine ⟨fun hp => ⟨?literal, ?register, fun hram => ?ram, fun hclaim => ?region⟩, fun hp => ?outb⟩
  case literal =>
    exact exec_portFaulted (e := s.env) (exec_inbII_deliverFrom p v s) rfl rfl rfl
      (deliverFrom_unclaimed hp (load_literalByte v (s.past 4)))
  case register =>
    exact exec_portFaulted (e := s.env) (exec_inbIR_deliverFrom p r s) rfl rfl rfl (deliverFrom_unclaimed hp rfl)
  case ram =>
    exact exec_portFaulted (e := s.env) (exec_inbIA_deliverFrom p a2 s) rfl rfl rfl
      (deliverFrom_unclaimed hp (load_memByte (readByte_ram (s := s.past 7) hram)))
  case region =>
    obtain ⟨g, hg⟩ := Option.isSome_iff_exists.1 hclaim
    obtain ⟨t, hnext, hfailed, henv⟩ := exec_portFaulted (exec_inbIA_deliverFrom p a2 s) rfl rfl rfl
      (deliverFrom_unclaimed hp (load_memByte (readByte_region (s := s.past 7) hg)))
    refine ⟨t, hnext, hfailed, ?_, ?_⟩
    · rw [henv, regionAnswer_log, readEvents_region hg]; rfl
    · rw [henv, regionAnswer_schedule]; rfl
  case outb =>
    have hrun := congrArg (Res.andThen · fun w t => Res.ok () (t.writeReg r w))
      (portRequest_unclaimed (s := s.past 4) (w := .w8) hp)
    exact exec_portFaulted (e := s.env) (exec_outbRI r p s) rfl rfl rfl hrun

/-! ## OUTB -/

/-- A register write after a handler's answer changes only that register of what the answer left. -/
theorem handled_writeReg {s t : State} {raises : Option Byte} (h : s.handled t raises) (r : Reg) (w : Word) :
    s.sameRegsBut (t.writeReg r w) r ∧ s.sameFlags (t.writeReg r w) ∧ s.sameStatus (t.writeReg r w) ∧ s.sameClock (t.writeReg r w) ∧
      s.sameMemory (t.writeReg r w) ∧ s.sameButRaise (t.writeReg r w) raises := by
  obtain ⟨hregs, hflags, hstatus, hclock, hmem, hraise⟩ := h
  refine ⟨sameRegsBut_writeReg hregs r w, ?_, ?_, ?_, fun a => ?_, ?_⟩
  · simpa [State.sameFlags] using hflags
  · simpa [State.sameStatus] using hstatus
  · simpa [State.sameClock] using hclock
  · simpa [State.ramByte] using hmem a
  · simpa only [State.sameButRaise, State.writeReg_ie, State.writeReg_idtBase, State.writeReg_idtSet, State.writeReg_ipend,
      State.writeReg_iline] using hraise

/-- A scripted answer is the one the handler gives, and the script goes on behind it (log 3). -/
theorem portAnswer_scripted {e : Env} {answer : PortReply} {rest : List PortReply} (h : e.portReplies = answer :: rest) (w : PortWidth)
    (p : Byte) : e.portAnswer w p = (answer, { e with portReplies := rest }) := by
  simp only [Env.portAnswer, h]

/-- Settles O31: the request's answer, cut to a byte, is written from the state that the answer left. -/
theorem outbStoresAnswer : Obligations.OutbStoresAnswer := by
  intro r1 p s hp reply
  have hrun := congrArg (Res.andThen · fun w t => Res.ok () (t.writeReg r1 w)) (portRequest_claimed (s := s.past 4) (w := .w8) hp)
  have hframe := handled_writeReg (handled_handlerRaise s 4 ((s.env.see (.portRequest .w8 p)).portAnswer .w8 p).2 reply.raises) r1
    (PortWidth.w8.cut reply.value)
  refine ⟨_, (exec_outbRI r1 p s).trans (perform_ok hrun), ?value, fun answer rest hscript => ?scripted, ?log, ?schedule,
    fun hpc => ?pc, hframe⟩
  case value =>
    rw [readReg_writeReg_same]
    exact congrArg (· % 2 ^ r1.width) (size_cut_toNat .word reply.value)
  case scripted =>
    have hanswer := portAnswer_scripted (e := s.env.see (.portRequest .w8 p)) hscript .w8 p
    refine ⟨congrArg Prod.fst hanswer, ?_⟩
    rw [State.writeReg_env, handlerRaise_env]
    exact congrArg (fun a => a.2.portReplies) hanswer
  case log =>
    rw [State.writeReg_env, handlerRaise_env, State.setEnv_env, portAnswer_log]
    rfl
  case schedule =>
    rw [State.writeReg_env, handlerRaise_env, State.setEnv_env, portAnswer_schedule]
    rfl
  case pc => rw [State.writeReg_pc _ r1 _ hpc, handlerRaise_pc]; rfl

end Sys2Proof.Machine
end

section
/-! SUPPORT. STI, CLI, LDIDT and HLT (44_system.md R150 to R153): the execute phase of each is one write of control state, which can
not fault. -/

namespace Sys2Proof.Machine

/-- An instruction whose execute phase is an update that cannot fault: the update, applied past the instruction. -/
theorem perform_update (i : Instr) (f : State → State) (s : State) :
    perform i (fun u => .ok () (f u)) s = .next (f (s.past i.length)) := perform_ok rfl

/-- Settles O33: each instruction's one write by `perform_update`, past an instruction of one byte, or of six for LDIDT. -/
theorem systemInstructionsWriteTheirControlState : Obligations.SystemInstructionsWriteTheirControlState := by
  intro base s
  refine ⟨?sti, ?cli, ?ldidt, ?hlt⟩
  case sti =>
    rw [exec_sti, perform_update .sti (State.setIe · true), length_sti]
    rfl
  case cli =>
    rw [exec_cli, perform_update .cli (State.setIe · false), length_cli]
    rfl
  case ldidt =>
    rw [exec_ldidt, perform_update (.ldidt base) (State.setIdt · base), length_ldidt]
    rfl
  case hlt =>
    rw [exec_hlt, perform_update .hlt (fun u => u.setStatusBit u.bits.halted), length_hlt]
    rfl

end Sys2Proof.Machine
end

section
/-! SUPPORT. PUSHA (45_stack_block.md R160, R166): where each push of a block has its slot, what a block of pushes leaves there, and a
block that stops at a push that meets a byte nothing serves. -/

namespace Sys2Proof.Machine

/-! ## The slots of a block -/

theorem blockSize_append (l m : List Saved) : blockSize (l ++ m) = blockSize l + blockSize m := by
  induction l with
  | nil => exact (Nat.zero_add _).symm
  | cons x rest ih => rw [List.cons_append, blockSize, blockSize, ih, Nat.add_assoc]

theorem blockSize_take_succ {l : List Saved} {k : Nat} {y : Saved} (hk : l[k]? = some y) :
    blockSize (l.take (k + 1)) = blockSize (l.take k) + y.size.bytes := by
  rw [List.take_add_one, hk, blockSize_append]
  rfl

theorem blockSize_take_add_drop (l : List Saved) (k : Nat) : blockSize (l.take k) + blockSize (l.drop k) = blockSize l := by
  rw [← blockSize_append, List.take_append_drop]

/-- A list at its member `k`. -/
theorem eq_take_append_cons_drop {l : List Saved} {k : Nat} {y : Saved} (hk : l[k]? = some y) :
    l = l.take k ++ y :: l.drop (k + 1) := by
  obtain ⟨hlt, rfl⟩ := List.getElem?_eq_some_iff.1 hk
  rw [List.getElem_cons_drop, List.take_append_drop]

/-- The place of a slot, counted from the top of the block, is a place counted from its bottom. -/
theorem slot_above_bottom (a : Word) (l : List Saved) (k : Nat) :
    a - BitVec.ofNat 32 (blockSize (l.take k)) =
      a - BitVec.ofNat 32 (blockSize l) + BitVec.ofNat 32 (blockSize (l.drop k)) := by
  rw [← blockSize_take_add_drop l k, word_sub_add_cancel]

/-- The bytes of a part of a range are bytes of the range. -/
theorem mem_addrsFrom_of_part {a b : Word} {i k n : Nat} (h : b ∈ addrsFrom (a + BitVec.ofNat 32 i) k) (hn : i + k ≤ n) :
    b ∈ addrsFrom a n := by
  obtain ⟨d, rfl⟩ := Nat.exists_eq_add_of_le hn
  rw [addrsFrom_add, addrsFrom_add]
  exact List.mem_append_left _ (List.mem_append_right _ h)

/-- The bytes of a slot are bytes of the block. -/
theorem mem_block_of_mem_slot {l : List Saved} {k : Nat} {y : Saved} {a b : Word} (hk : l[k]? = some y)
    (hb : b ∈ addrsFrom (a - BitVec.ofNat 32 (blockSize (l.take (k + 1)))) y.size.bytes) :
    b ∈ addrsFrom (a - BitVec.ofNat 32 (blockSize l)) (blockSize l) := by
  have htotal := blockSize_take_add_drop l (k + 1)
  have hslot := blockSize_take_succ hk
  rw [slot_above_bottom] at hb
  exact mem_addrsFrom_of_part hb (by omega)

/-! ## What a block of pushes leaves -/

/-- A value of the register set fits its natural width (45_stack_block.md R160). -/
theorem size_cut_value (x : Saved) (s : State) : x.size.cut (x.value s) = x.value s := by
  cases x with
  | gpr r => rfl
  | special r => rfl
  | flags => simp [Saved.size, Saved.value, Size.cut]
  | clocks => simp [Saved.size, Saved.value, Size.cut]

/-- Of the register set, a block of pushes changes `SP` alone. -/
theorem value_pushedAll (y : Saved) (l : List Saved) (s : State) :
    y.value (State.pushedAll l s) = y.value (s.setSp (s.sp - BitVec.ofNat 32 (blockSize l))) := by
  rw [pushedAll_frame]
  cases y with
  | special r => cases r <;> rfl
  | gpr r => rfl
  | flags => rfl
  | clocks => rfl

/-- Each value of a block of pushes is at its own slot, as it was when its push began. -/
theorem pushedAll_slot {l : List Saved} {s : State} {k : Nat} {y : Saved} (hm : Memory.wf s.mem = true) (hl : blockSize l ≤ 2 ^ 32)
    (hk : l[k]? = some y) :
    (State.pushedAll l s).ramValue (s.sp - BitVec.ofNat 32 (blockSize (l.take (k + 1)))) y.size =
      y.value (s.setSp (s.sp - BitVec.ofNat 32 (blockSize (l.take k)))) := by
  rw [framed_slot (pushedAll_framed l s hm hl) hk, size_cut_value, value_pushedAll]

/-- A block of pushes touches no byte outside its slots. -/
theorem pushedAll_outside_slots (l : List Saved) (s : State) (b : Word)
    (h : ∀ k y, l[k]? = some y → b ∉ addrsFrom (s.sp - BitVec.ofNat 32 (blockSize (l.take (k + 1)))) y.size.bytes) :
    (State.pushedAll l s).ramByte b = s.ramByte b := by
  induction l generalizing s with
  | nil => rfl
  | cons x rest ih =>
    have hrest : (State.pushedAll rest (s.pushed x)).ramByte b = (s.pushed x).ramByte b := by
      refine ih _ fun k y hk => ?_
      have hslot := h (k + 1) y hk
      rwa [List.take_succ_cons, blockSize, word_sub_add] at hslot
    have hfirst := h 0 x rfl
    exact hrest.trans (storeBytes_other _ _ b _ (by rwa [leBytes_length]))

/-! ## PUSHA over a stack in RAM -/

theorem exec_pusha_ram {s : State} (h : s.ramRange (s.sp - 68) 68 = true) :
    exec .pusha s = .next (State.pushedAll pushaOrder (s.past 1)) :=
  perform_ok (i := .pusha) (pushAll_ram pushaOrder (s := s.past 1) h)

/-- What PUSHA leaves off the stack (45_stack_block.md R160). -/
theorem pusha_frame (s : State) :
    ∃ m, State.pushedAll pushaOrder (s.past 1) = { s with pc := s.pc + 1, sp := s.sp - 68, mem := m } :=
  ⟨_, pushedAll_frame pushaOrder (s.past 1)⟩

/-- The entry `k` of the frame of a PUSHA: its offset from `SP` after the instruction, and its value (45_stack_block.md R166). -/
def pushaEntry (s : State) (k : Fin 18) : Word × Word :=
  (BitVec.ofNat 32 (blockSize (pushaOrder.drop (k + 1))),
    (pushaOrder.get k).value ((s.past 1).setSp (s.sp - BitVec.ofNat 32 (blockSize (pushaOrder.take k)))))

theorem pusha_entry {s : State} (hm : Memory.wf s.mem = true) (k : Fin 18) :
    (State.pushedAll pushaOrder (s.past 1)).ramValue (s.sp - 68 + (pushaEntry s k).1) (pushaOrder.get k).size = (pushaEntry s k).2 := by
  have hk : pushaOrder[k.val]? = some (pushaOrder.get k) := List.getElem?_eq_getElem _
  have hslot := pushedAll_slot (s := s.past 1) hm (by decide) hk
  rwa [slot_above_bottom] at hslot

/-- The entries of four bytes, `BP` first, at the bottom of the frame (45_stack_block.md R166). -/
def pushaQwords : List (Fin 18) := [17, 16, 15, 14, 13, 12, 9, 8, 7, 6, 5, 4, 3, 2, 1, 0]

/-- Settles O35: each slot by `pusha_entry`, the rest by the frame of a block of pushes. -/
theorem pushaStoresFrame : Obligations.PushaStoresFrame := by
  intro s hm h
  obtain ⟨m, hframe⟩ := pusha_frame s
  have hentry := pusha_entry hm
  have hother := pushedAll_other pushaOrder (s.past 1)
  rw [hframe] at hentry hother
  obtain ⟨hregs, hflags, hinterrupts, hclock⟩ := sameOffStack_of_update s (s.pc + 1) (s.sp - 68) s.status s.fault m s.env
  refine ⟨_, (exec_pusha_ram h).trans (congrArg _ hframe), rfl, rfl, fun off v hv => ?_, hentry 11, hentry 10, hother, hregs, hflags,
    ⟨⟨rfl, rfl⟩, hinterrupts, hclock⟩, rfl⟩
  obtain ⟨k, hk, he⟩ := List.mem_map.1 (show (off, v) ∈ pushaQwords.map (pushaEntry s) from hv)
  have hsize : ∀ k ∈ pushaQwords, (pushaOrder.get k).size = .qword := by decide
  have hvalue := hentry k
  rwa [hsize k hk, he] at hvalue

/-! ## A PUSHA that stops at a push -/

/-- A block of pushes of which one meets a byte nothing serves: the pushes before it, in RAM, are done, and of that one the bytes before
the failing one (20_memory.md R45, R49). -/
theorem pushAll_unmapped {l rest : List Saved} {x : Saved} {s : State} {a : Word} {j : Nat}
    (ha : a = s.sp - BitVec.ofNat 32 (blockSize l) - BitVec.ofNat 32 x.size.bytes)
    (hram : ∀ k y, l[k]? = some y → s.ramRange (s.sp - BitVec.ofNat 32 (blockSize (l.take (k + 1)))) y.size.bytes = true)
    (h : s.firstUnmapped a x.size.bytes j = true) :
    ∃ m e, pushAll (l ++ x :: rest) s = .trap .busError (a + BitVec.ofNat 32 j) (((s.setSp a).setMem m).setEnv e) ∧
      e.schedule = s.env.schedule ∧
      e.log = s.env.log ++ s.writeEvents (addrsFrom a j)
        (bytesOf j (x.value (s.setSp (s.sp - BitVec.ofNat 32 (blockSize l)))).toNat) ∧
      ∀ b : Word, b ∉ addrsFrom a j → memGet m b.toNat = (State.pushedAll l s).ramByte b := by
  subst ha
  have hvalue := value_pushedAll x l s
  have hfirst := pushAll_ram l (ramRange_of_slots l s hram)
  have hframe := pushedAll_frame l s
  generalize State.pushedAll l s = u at hvalue hfirst hframe ⊢
  have hj : j < x.size.bytes := (firstUnmapped_iff.1 h).1
  have hsp : u.sp = s.sp - BitVec.ofNat 32 (blockSize l) := by rw [hframe]; rfl
  obtain ⟨m, e, hpush, hsched, hlog, hmem⟩ := push_unmapped (s := u) (n := x.size) (x.value u) (j := j) (by rw [hframe]; exact h)
  rw [hsp] at hpush hlog hmem
  refine ⟨m, e, ?_, ?_, ?_, fun b hb => hmem b (.inr hb)⟩
  · rw [pushAll_append, hfirst, ok_andThen, pushAll, hpush, trap_andThen, hframe]
    rfl
  · rw [hsched, hframe]
    rfl
  · rw [hlog, leBytes_take hj.le, hvalue, hframe]
    rfl

/-- Where memory differs from that after a block of pushes only in the first `j` of the `n` bytes below it, each value of the block is
at its own slot. -/
theorem slot_above_store {l : List Saved} {s u : State} {a : Word} {n j k : Nat} {y : Saved} (hm : Memory.wf s.mem = true)
    (ha : a = s.sp - BitVec.ofNat 32 (blockSize l) - BitVec.ofNat 32 n) (hl : n + blockSize l ≤ 2 ^ 32) (hj : j ≤ n)
    (hu : ∀ b : Word, b ∉ addrsFrom a j → u.ramByte b = (State.pushedAll l s).ramByte b) (hk : l[k]? = some y) :
    u.ramValue (s.sp - BitVec.ofNat 32 (blockSize (l.take (k + 1)))) y.size =
      y.value (s.setSp (s.sp - BitVec.ofNat 32 (blockSize (l.take k)))) := by
  rw [← pushedAll_slot hm (by omega) hk]
  refine ramValue_of_bytes fun b hslot => hu b fun hstored => ?_
  have hbelow : b ∈ addrsFrom a n := (mem_addrsFrom.1 hstored).elim fun i hi => mem_addrsFrom.2 ⟨i, hi.1.trans_le hj, hi.2⟩
  have hblock : b ∈ addrsFrom (a + BitVec.ofNat 32 n) (blockSize l) := by
    rw [ha, BitVec.sub_add_cancel]
    exact mem_block_of_mem_slot hk hslot
  exact addrsFrom_apart hbelow hblock hl rfl

theorem blockSize_take_le (l : List Saved) (k : Nat) : blockSize (l.take k) ≤ blockSize l :=
  blockSize_take_add_drop l k ▸ Nat.le_add_right _ _

/-- A member of the first part of a block is at the same place in the whole block. -/
theorem getElem?_take_eq_some {l : List Saved} {m k : Nat} {y : Saved} :
    (l.take m)[k]? = some y ↔ k < m ∧ l[k]? = some y := by
  rw [List.getElem?_take]
  split <;> simp [*]

theorem take_take_succ (l : List Saved) {m k : Nat} (h : k < m) : (l.take m).take (k + 1) = l.take (k + 1) := by
  rw [List.take_take, Nat.min_eq_left h]

/-- Settles O36: the pushes before the failing one by `pushAll_unmapped`, and what that one has written lies below their slots. -/
theorem pushaStopsAtAFailingPush : Obligations.PushaStopsAtAFailingPush := by
  intro s m j x slot hm hslot hx hram h
  have hbottom (k : Nat) : s.sp - BitVec.ofNat 32 (blockSize (pushaOrder.take (k + 1))) = slot k := by
    rw [hslot, blockSize_eq_widthOf]
  have htop (k : Nat) {y : Saved} (hk : pushaOrder[k]? = some y) :
      slot k + BitVec.ofNat 32 y.size.bytes = s.sp - BitVec.ofNat 32 (blockSize (pushaOrder.take k)) := by
    rw [← hbottom, blockSize_take_succ hk, word_sub_add_cancel]
  have hbelow : slot m = s.sp - BitVec.ofNat 32 (blockSize (pushaOrder.take m)) - BitVec.ofNat 32 x.size.bytes := by
    rw [← htop m hx, BitVec.add_sub_cancel]
  have hblock : x.size.bytes + blockSize (pushaOrder.take m) ≤ 2 ^ 32 := by
    have hle : blockSize (pushaOrder.take (m + 1)) ≤ 68 := blockSize_take_le pushaOrder (m + 1)
    rw [blockSize_take_succ hx] at hle
    omega
  obtain ⟨mem, e, hrun, hsched, hlog, hmem⟩ := pushAll_unmapped (rest := pushaOrder.drop (m + 1)) (s := s.past 1) hbelow
    (fun k y hk => by
      obtain ⟨hkm, hk⟩ := getElem?_take_eq_some.1 hk
      rw [take_take_succ _ hkm, past_sp, hbottom]
      exact hram k y hkm hk) h
  rw [← eq_take_append_cons_drop hx] at hrun
  obtain ⟨t, hnext, hfault, hsp, hpc, ⟨hregs, hflags, hinterrupts, hclock⟩, rfl, rfl⟩ :=
    exec_stackFault (i := .pusha) (status := s.status) (exec_pusha s) hrun
  refine ⟨t, hnext, hfault, hsp, hpc, fun k y hkm hk => ?pushed, fun b hb hout => ?others, ?log, hregs, hflags, hinterrupts, hclock,
    hsched⟩
  case pushed =>
    have hvalue := slot_above_store (s := s.past 1) (u := t) hm hbelow hblock (firstUnmapped_iff.1 h).1.le hmem
      (getElem?_take_eq_some.2 ⟨hkm, hk⟩)
    rwa [take_take_succ _ hkm, List.take_take, Nat.min_eq_left hkm.le, past_sp, hbottom, ← htop k hk] at hvalue
  case others =>
    refine (hmem b hb).trans (pushedAll_outside_slots _ (s.past 1) b fun k y hk => ?_)
    obtain ⟨hkm, hk⟩ := getElem?_take_eq_some.1 hk
    rw [take_take_succ _ hkm, past_sp, hbottom]
    exact hout k y hkm hk
  case log => rwa [past_sp, ← htop m hx] at hlog

end Sys2Proof.Machine
end

section
/-! SUPPORT. POPA (45_stack_block.md R161): where each pop of a block finds its slot, `SP` being one of the registers popped, what the pops
leave, and a block that stops at a pop that meets a byte nothing serves. -/

namespace Sys2Proof.Machine

/-! ## A block of pops, `SP` among its registers or not -/

theorem poppedAll_append (l m : List Saved) (s : State) :
    State.poppedAll (l ++ m) s = State.poppedAll m (State.poppedAll l s) := by
  induction l generalizing s with
  | nil => rfl
  | cons x rest ih => exact ih (s.popped x)

/-- A block of pops leaves memory, the environment and the control state alone. -/
theorem poppedAll_keeps (l : List Saved) (s : State) :
    (State.poppedAll l s).mem = s.mem ∧ (State.poppedAll l s).env = s.env ∧ s.sameSystem (State.poppedAll l s) := by
  induction l generalizing s with
  | nil => exact ⟨rfl, rfl, ⟨rfl, rfl⟩, ⟨rfl, rfl, rfl, rfl, rfl⟩, rfl, rfl, rfl, rfl⟩
  | cons x rest ih =>
    obtain ⟨hmem, henv, hsys, -⟩ := restore_frame x (s.ramValue s.sp x.size) (s.setSp (s.sp + BitVec.ofNat 32 x.size.bytes))
    obtain ⟨hmem', henv', hsys'⟩ := ih (s.popped x)
    exact ⟨hmem'.trans hmem, henv'.trans henv, sameSystem_trans hsys hsys'⟩

theorem poppedAll_config (l : List Saved) (s : State) : (State.poppedAll l s).config = s.config := by
  obtain ⟨-, -, -, -, -, -, -, hconfig⟩ := poppedAll_keeps l s
  exact hconfig

/-- The pops of a block whose every slot is in RAM. -/
theorem popAll_ram_slots {l : List Saved} {s : State}
    (h : ∀ k y, l[k]? = some y → s.ramRange (State.poppedAll (l.take k) s).sp y.size.bytes = true) :
    popAll l s = .ok () (State.poppedAll l s) := by
  induction l generalizing s with
  | nil => rfl
  | cons x rest ih =>
    rw [popAll, pop_ram (h 0 x rfl), ok_andThen]
    refine ih (s := s.popped x) fun k y hk => ?_
    exact (ramRange_of_config (poppedAll_config [x] s) _ _).trans (h (k + 1) y hk)

/-- A block of pops of which one meets a byte nothing serves: the pops before it, from RAM, are done (20_memory.md R50). -/
theorem popAll_unmapped {l rest : List Saved} {x : Saved} {s : State} {a : Word} {j : Nat} (ha : (State.poppedAll l s).sp = a)
    (hram : ∀ k y, l[k]? = some y → s.ramRange (State.poppedAll (l.take k) s).sp y.size.bytes = true)
    (h : s.firstUnmapped a x.size.bytes j = true) :
    ∃ e, popAll (l ++ x :: rest) s = .trap .busError (a + BitVec.ofNat 32 j) ((State.poppedAll l s).setEnv e) ∧
      e.schedule = s.env.schedule ∧ e.log = s.env.log ++ s.readEvents (addrsFrom a j) := by
  subst ha
  have hfirst := popAll_ram_slots hram
  obtain ⟨-, henv, -⟩ := poppedAll_keeps l s
  have hconfig := poppedAll_config l s
  obtain ⟨e, hpop, hsched, hlog⟩ := pop_unmapped (s := State.poppedAll l s) (n := x.size) (j := j) (by
    rwa [State.firstUnmapped, mappedRange_of_config hconfig, mapped_of_config hconfig])
  refine ⟨e, ?_, by rw [hsched, henv], ?_⟩
  · rw [popAll_append, hfirst, ok_andThen, popAll, hpop, trap_andThen]
  · rw [hlog, henv]
    simp only [State.readEvents, hconfig]

/-- A value in RAM fits the width it is read with. -/
theorem size_cut_ramValue (s : State) (a : Word) (n : Size) : n.cut (s.ramValue a n) = s.ramValue a n :=
  BitVec.eq_of_toNat_eq (by rw [size_cut_toNat, Nat.mod_eq_of_lt (ramValue_lt s a n)])

/-- A register that a block of pops names once has the value of the slot its own pop found. -/
theorem value_poppedAll {l : List Saved} (hd : l.Nodup) (s : State) {k : Nat} {y : Saved} (hk : l[k]? = some y)
    (hy : y ≠ .special .sp) :
    y.value (State.poppedAll l s) = s.ramValue (State.poppedAll (l.take k) s).sp y.size := by
  have hsplit := eq_take_append_cons_drop hk
  have hafter : y ∉ l.drop (k + 1) := by
    rw [hsplit, List.nodup_append, List.nodup_cons] at hd
    exact hd.2.1.1
  obtain ⟨hmem, -, -⟩ := poppedAll_keeps (l.take k) s
  calc y.value (State.poppedAll l s)
      = y.value (State.poppedAll (l.drop (k + 1)) ((State.poppedAll (l.take k) s).popped y)) := by
        rw [← State.poppedAll, ← poppedAll_append, ← hsplit]
    _ = y.value ((State.poppedAll (l.take k) s).popped y) := poppedAll_other hy _ hafter _
    _ = (State.poppedAll (l.take k) s).ramValue (State.poppedAll (l.take k) s).sp y.size := by
        rw [State.popped, restore_value_same, size_cut_ramValue]
    _ = s.ramValue (State.poppedAll (l.take k) s).sp y.size :=
        ramValue_of_bytes fun b _ => by rw [State.ramByte, hmem, State.ramByte]

/-! ## The slots of a POPA -/

/-- Where pop `k` of a POPA finds its value: the first two at `SP`, the others at the popped `SP` (45_stack_block.md R161). -/
def State.popaSlot (s : State) : Nat → Word
  | 0 => s.sp
  | 1 => s.sp + 4
  | k + 2 => s.ramValue (s.sp + 4) .qword + BitVec.ofNat 32 (blockSize ((pushaOrder.reverse.drop 2).take k))

theorem popa_sp (s : State) (k : Nat) : (State.poppedAll (pushaOrder.reverse.take k) (s.past 1)).sp = s.popaSlot k := by
  match k with
  | 0 => rfl
  | 1 => rfl
  | k + 2 =>
    have hsp : Saved.special .sp ∉ (pushaOrder.reverse.drop 2).take k := fun h =>
      absurd (List.mem_of_mem_take h) (by decide)
    obtain ⟨htail, -⟩ := poppedAll_frame _ hsp (State.poppedAll [.special .bp, .special .sp] (s.past 1))
    exact htail

theorem pushaOrder_reverse_nodup : pushaOrder.reverse.Nodup := by decide

/-- A part of a range of RAM is in RAM. -/
theorem ramRange_of_part {s : State} {a : Word} {i k n : Nat} (h : s.ramRange a n = true) (hn : i + k ≤ n) :
    s.ramRange (a + BitVec.ofNat 32 i) k = true :=
  List.all_eq_true.2 fun b hb => List.all_eq_true.1 h b (mem_addrsFrom_of_part hb hn)

theorem ramRange_of_shorter {s : State} {a : Word} {k n : Nat} (h : s.ramRange a n = true) (hk : k ≤ n) : s.ramRange a k = true := by
  simpa using ramRange_of_part (i := 0) (k := k) h (by omega)

/-- The slots of a POPA are in RAM where the two blocks they make are. -/
theorem popaSlot_ram {s : State} (hlow : s.ramRange s.sp 8 = true) (hhigh : s.ramRange (s.ramValue (s.sp + 4) .qword) 60 = true)
    {k : Nat} {y : Saved} (hk : pushaOrder.reverse[k]? = some y) : s.ramRange (s.popaSlot k) y.size.bytes = true := by
  match k with
  | 0 =>
    obtain rfl : Saved.special .bp = y := Option.some.inj hk
    exact ramRange_of_shorter hlow (by decide)
  | 1 =>
    obtain rfl : Saved.special .sp = y := Option.some.inj hk
    exact ramRange_of_part (i := 4) (k := 4) hlow (by decide)
  | k + 2 =>
    have hle : blockSize ((pushaOrder.reverse.drop 2).take (k + 1)) ≤ 60 := blockSize_take_le (pushaOrder.reverse.drop 2) (k + 1)
    rw [blockSize_take_succ (y := y) (by rwa [List.getElem?_drop, Nat.add_comm])] at hle
    exact ramRange_of_part hhigh hle

/-! ## POPA over a stack in RAM -/

/-- POPA over a stack in RAM: every register of the set but `SP` has the value of its slot (45_stack_block.md R161). -/
theorem exec_popa_ram {s : State} (hlow : s.ramRange s.sp 8 = true) (hhigh : s.ramRange (s.ramValue (s.sp + 4) .qword) 60 = true) :
    ∃ t, exec .popa s = .next t ∧ t.sp = s.ramValue (s.sp + 4) .qword + 60 ∧
      (∀ k y, pushaOrder.reverse[k]? = some y → y ≠ .special .sp → y.value t = s.ramValue (s.popaSlot k) y.size) ∧
      s.sameSystem t ∧ t.mem = s.mem ∧ t.env = s.env := by
  obtain ⟨hmem, henv, hsys⟩ := poppedAll_keeps pushaOrder.reverse (s.past 1)
  refine ⟨_, perform_ok (i := .popa) (popAll_ram_slots (s := s.past 1) fun k y hk => ?_), popa_sp s 18, fun k y hk hy => ?_, hsys,
    hmem, henv⟩
  · rw [popa_sp]
    exact popaSlot_ram hlow hhigh hk
  · rw [value_poppedAll pushaOrder_reverse_nodup _ hk hy, popa_sp, past_ramValue]

/-- Settles O37: each register by the slot `exec_popa_ram` gives it. -/
theorem popaLoadsRegisterSet : Obligations.PopaLoadsRegisterSet := by
  rintro s p rfl hlow hhigh
  obtain ⟨t, hnext, hsp, hslot, hsys, hmem, henv⟩ := exec_popa_ram hlow hhigh
  have hpc : t.pc = s.ramValue (s.ramValue (s.sp + 4) .qword) .qword := by
    have h := hslot 2 (.special .pc) rfl (by decide)
    rwa [State.popaSlot, show blockSize (List.take 0 (pushaOrder.reverse.drop 2)) = 0 from rfl, BitVec.add_zero] at h
  have hother (k : Nat) (y : Saved) (hk : pushaOrder.reverse[k]? = some y := by rfl) (hy : y ≠ .special .sp := by decide) :=
    hslot k y hk hy
  exact ⟨t, hnext, hother 0 (.special .bp), hsp, hpc, hother 3 (.special .ss), hother 4 (.special .ds), hother 5 (.special .cs),
    hother 6 .clocks, hother 7 .flags, hother 8 (.gpr .z), hother 9 (.gpr .y), hother 10 (.gpr .x), hother 11 (.gpr .w),
    hother 12 (.gpr .f), hother 13 (.gpr .e), hother 14 (.gpr .d), hother 15 (.gpr .c), hother 16 (.gpr .b), hother 17 (.gpr .a),
    hsys, sameMemory_of hmem, henv⟩

/-! ## A POPA that stops at a pop -/

/-- Recording a fault changes no register of the set. -/
theorem value_raiseFault (y : Saved) (s : State) (e : Env) (o : Origin) (k : FaultKind) (info : Word) :
    y.value ((s.setEnv e).raiseFault o k info) = y.value s := by
  cases y with
  | special r => cases r <;> rfl
  | gpr r => rfl
  | flags => rfl
  | clocks => rfl

/-- Settles O38: the pops before the failing one by `popAll_unmapped`; a register is among those popped or is as it was. -/
theorem popaStopsAtAFailingPop : Obligations.PopaStopsAtAFailingPop := by
  rintro s m j x order slot rfl h0 h1 hhigh hx hram h
  obtain rfl : slot = s.popaSlot := by
    funext k
    match k with
    | 0 => exact h0
    | 1 => exact h1
    | k + 2 => rw [hhigh, State.popaSlot, blockSize_eq_widthOf]
  obtain ⟨e, hrun, hsched, hlog⟩ := popAll_unmapped (l := pushaOrder.reverse.take m) (rest := pushaOrder.reverse.drop (m + 1))
    (s := s.past 1) (popa_sp s m) (fun k y hk => by
      obtain ⟨hkm, hk⟩ := getElem?_take_eq_some.1 hk
      rw [List.take_take, Nat.min_eq_left hkm.le, popa_sp]
      exact hram k y hkm hk) h
  rw [← eq_take_append_cons_drop hx] at hrun
  obtain ⟨hmem, -, ⟨hstatus, hrecord⟩, hinterrupts, hclock⟩ := poppedAll_keeps (pushaOrder.reverse.take m) (s.past 1)
  refine ⟨_, (exec_popa s).trans (perform_trap hrun), ⟨rfl, ?status⟩, popa_sp s m, fun k y hkm hk hy => ?popped,
    fun k y hmk hk hy => ?unpopped, hinterrupts, hclock, sameMemory_of hmem, hlog, hsched⟩
  case status => exact faultStatus_congr hstatus (poppedAll_config _ (s.past 1))
  case popped =>
    have hnodup : (pushaOrder.reverse.take m).Nodup := pushaOrder_reverse_nodup.sublist (List.take_sublist _ _)
    rw [value_raiseFault, value_poppedAll hnodup _ (getElem?_take_eq_some.2 ⟨hkm, hk⟩) hy, List.take_take,
      Nat.min_eq_left hkm.le, popa_sp, past_ramValue]
  case unpopped =>
    have hlater : y ∈ pushaOrder.reverse.drop m :=
      List.mem_iff_getElem?.2 ⟨k - m, by rwa [List.getElem?_drop, Nat.add_sub_cancel' hmk]⟩
    rw [value_raiseFault]
    exact poppedAll_other hy _ (fun hc => List.disjoint_take_drop pushaOrder_reverse_nodup le_rfl hc hlater) _

/-! ## A PUSHA and its POPA -/

theorem mem_pushaOrder (y : Saved) : y ∈ pushaOrder := by
  cases y with
  | gpr r => cases r <;> decide
  | special r => cases r <;> decide
  | flags => decide
  | clocks => decide

theorem gprs_ext {g g' : GPRs} (h : ∀ r, g.get r = g'.get r) : g = g' := by
  obtain ⟨⟩ := g
  obtain ⟨⟩ := g'
  rw [GPRs.mk.injEq]
  exact ⟨h .a, h .b, h .c, h .d, h .e, h .f, h .w, h .x, h .y, h .z⟩

theorem setWidth_half_injective {a b : Half} (h : a.setWidth 32 = b.setWidth 32) : a = b := by
  simpa using congrArg (BitVec.setWidth 16) h

/-- Where the popped `SP` is just above its own slot, as PUSHA leaves it, all of a POPA's slots are one block (45_stack_block.md R160,
R161). -/
theorem popaSlot_of_popped_sp {u : State} (h : u.ramValue (u.sp + 4) .qword = u.sp + 8) (k : Nat) :
    u.popaSlot k = u.sp + BitVec.ofNat 32 (blockSize (pushaOrder.reverse.take k)) := by
  match k with
  | 0 => exact (BitVec.add_zero u.sp).symm
  | 1 => rfl
  | k + 2 =>
    have htake : blockSize (pushaOrder.reverse.take (k + 2)) = 8 + blockSize ((pushaOrder.reverse.drop 2).take k) :=
      blockSize_append [.special .bp, .special .sp] _
    rw [State.popaSlot, h, word_add_assoc, htake, BitVec.ofNat_add]
    rfl

/-- The value that push `k` of a PUSHA stored is the one that pop `17 - k` of a POPA finds. -/
theorem pusha_order_mirrored (k : Fin 18) : pushaOrder.reverse[17 - k.val]? = some (pushaOrder.get k) ∧
    blockSize (pushaOrder.reverse.take (17 - k)) = blockSize (pushaOrder.drop (k + 1)) ∧
    blockSize (pushaOrder.drop (k + 1)) + (pushaOrder.get k).size.bytes ≤ 68 := by
  revert k
  decide

/-- Settles O39: the frame, by `pusha_entry`, has `SP` just above its own slot, so each pop finds the slot of its push. -/
theorem pushaThenPopaRestoresRegisterSet : Obligations.PushaThenPopaRestoresRegisterSet := by
  intro s t u hm h he husp hconfig hbytes
  obtain rfl := Host.Outcome.next.inj ((exec_pusha_ram h).symm.trans he)
  have hentry := pusha_entry hm
  obtain ⟨m, hframe⟩ := pusha_frame s
  generalize State.pushedAll pushaOrder (s.past 1) = t at hentry hframe husp hconfig hbytes
  have htsp : t.sp = s.sp - 68 := hframe ▸ rfl
  have hfound (k : Fin 18) : u.ramValue (u.sp + (pushaEntry s k).1) (pushaOrder.get k).size = (pushaEntry s k).2 := by
    obtain ⟨-, -, hfits⟩ := pusha_order_mirrored k
    rw [← hentry k, ← htsp, ← husp]
    exact ramValue_of_bytes fun b hb => hbytes b (husp ▸ mem_addrsFrom_of_part hb hfits)
  have hpopped : u.ramValue (u.sp + 4) .qword = u.sp + 8 := by
    have hnew : s.sp - 60 = u.sp + 8 := by
      rw [husp, htsp]
      bv_omega
    exact (hfound 16).trans hnew
  have hram : u.ramRange u.sp 68 = true := by
    rw [ramRange_of_config (hconfig.trans (hframe ▸ rfl : t.config = s.config)), husp, htsp]
    exact h
  obtain ⟨w, hnext, hsp, hslot, -⟩ := exec_popa_ram (ramRange_of_shorter hram (by decide))
    (hpopped ▸ ramRange_of_part (i := 8) hram le_rfl)
  have hback (y : Saved) (hy : y ≠ .special .sp) : y.value w = y.value (s.past 1) := by
    obtain ⟨k, rfl⟩ := List.mem_iff_get.1 (mem_pushaOrder y)
    obtain ⟨hplace, hoffset, -⟩ := pusha_order_mirrored k
    rw [hslot _ _ hplace hy, popaSlot_of_popped_sp hpopped, hoffset]
    exact (hfound k).trans (value_setSp hy _ _)
  have hwsp : w.sp = s.sp := by
    rw [hsp, hpopped, husp, htsp]
    bv_omega
  exact ⟨w, hnext, gprs_ext fun r => hback (.gpr r) nofun, setWidth_half_injective (hback .flags nofun),
    setWidth_half_injective (hback .clocks nofun), hback (.special .cs) (by decide), hback (.special .ds) (by decide),
    hback (.special .ss) (by decide), hback (.special .bp) (by decide), hwsp, hback (.special .pc) (by decide)⟩

end Sys2Proof.Machine
end

section
/-! SUPPORT. Interrupt entry (60_exceptions.md R182 to R188): what it leaves over a stack and a table in RAM, where it stops at a byte
nothing serves or at an unset table, and the return from it. -/

namespace Sys2Proof.Machine

/-! ## An entry over a stack and a table in RAM -/

/-- The state after an interrupt entry over a stack and a table in RAM (60_exceptions.md R183; `service_ram`). -/
def State.entered (s : State) : State :=
  { s with
    status := s.wakeStatus
    sp := s.sp - 8
    mem := s.entryMem
    pc := (s.setMem s.entryMem).ramValue (s.descriptorAddr s.iline) .qword
    ipend := false }

/-- What the service does where an interrupt is due and the stack and the line's descriptor are in RAM. -/
theorem service_ram {s : State} (hp : s.ipend = true) (hi : s.ie = true) (ht : s.idtSet = true)
    (hs : s.ramRange (s.sp - 8) 8 = true) (hd : s.ramRange (s.descriptorAddr s.iline) 4 = true) : service s = s.entered :=
  service_of_entry hp hi (enterInterrupt_ram ht hs hd)

theorem entered_pc (s : State) : s.entered.pc = s.entered.ramValue (s.descriptorAddr s.iline) .qword := rfl

/-- The frame of an entry: the status word at the new `SP`, the old `PC` above it, and every other byte as before. -/
theorem entered_frame {s : State} (hm : Memory.wf s.mem = true) :
    s.entered.ramValue (s.sp - 8) .qword = s.wakeStatus ∧ s.entered.ramValue (s.sp - 4) .qword = s.pc ∧
      s.sameMemoryBut s.entered (s.sp - 8) 8 := by
  obtain ⟨hstatus, hpc, hrest⟩ := two_qwords (u := s.entered) hm rfl
  have hslot : s.sp - 8 + 4 = s.sp - 4 := by bv_omega
  exact ⟨hstatus, hslot ▸ hpc, hrest⟩

theorem entered_sameRegsBut (s : State) : s.sameRegsBut s.entered (.special .sp) := sameRegsBut_sp_of rfl rfl rfl rfl rfl

theorem entered_halted (s : State) : s.entered.halted = false := (wakeStatus_bits s).1

theorem entered_on {s : State} (hw : s.encoding.wf = true) : s.entered.on = s.on := (wakeStatus_bits s).2 hw

/-- Settles O41: the service is `State.entered`, whose frame is `entered_frame`. -/
theorem interruptEntrySavesAndVectors : Obligations.InterruptEntrySavesAndVectors := by
  rintro s entry hm hp hi ht hs rfl hd
  obtain ⟨hstatus, hpc, hrest⟩ := entered_frame hm
  rw [service_ram hp hi ht hs hd]
  exact ⟨entered_pc s, rfl, rfl, hstatus, hpc, rfl, rfl, rfl, rfl, rfl, rfl, ⟨rfl, rfl, rfl, rfl⟩, rfl, entered_sameRegsBut s,
    ⟨rfl, rfl⟩, hrest⟩

/-- Settles O43: IRET pops, by `iretPopsStatusThenProgramCounter`, the two slots of `entered_frame`. -/
theorem interruptThenIretRestores : Obligations.InterruptThenIretRestores := by
  intro s u hm hp hi ht hs hd husp hconfig hbytes
  rw [service_ram hp hi ht hs hd] at husp hbytes
  obtain ⟨hstatus, hpc, -⟩ := entered_frame hm
  replace husp : u.sp = s.sp - 8 := husp
  have hhigh : s.sp - 8 + 4 = s.sp - 4 := by bv_omega
  have hram : u.ramRange u.sp 8 = true := by rwa [husp, ramRange_of_config hconfig]
  have hslot {i : Nat} (hfits : i + 4 ≤ 8) : u.ramValue (s.sp - 8 + BitVec.ofNat 32 i) .qword =
      s.entered.ramValue (s.sp - 8 + BitVec.ofNat 32 i) .qword :=
    ramValue_of_bytes fun b hb => hbytes b (mem_addrsFrom_of_part hb hfits)
  obtain ⟨w, hnext, hwstatus, hwpc, hwsp, -, -, -, -, ⟨-, -, -, hwconfig⟩, -⟩ :=
    (iretPopsStatusThenProgramCounter u).1 (ramRange_of_shorter hram (by decide)) (ramRange_of_part (i := 4) hram le_rfl)
  have hwake : w.status = s.wakeStatus := by
    rw [hwstatus, husp, ← hstatus]
    simpa using hslot (i := 0) (by decide)
  refine ⟨w, hnext, ?_, ?_, hwake, ?_⟩
  · rw [hwpc, husp, ← hpc, ← hhigh]
    exact hslot (i := 4) le_rfl
  · rw [hwsp, husp, BitVec.sub_add_cancel]
  · rw [State.halted, State.bits, hwake, hwconfig, hconfig]
    exact (wakeStatus_bits s).1

/-! ## An entry that faults (60_exceptions.md R172, R185) -/

/-- The service of an interrupt whose entry faults: the record names no instruction and the `PC` of that moment (60_exceptions.md R171). -/
theorem service_of_trap {s t : State} {k : FaultKind} {info : Word} (hp : s.ipend = true) (hi : s.ie = true)
    (h : enterInterrupt s = .trap k info t) : service s = t.raiseFault (serviceOrigin t.pc) k info := by
  simp [service, hp, hi, h]

/-- A fault sets Halted, whether or not the entry it ends had cleared it. -/
theorem faultStatus_of_wakeStatus (s : State) : (s.setStatus s.wakeStatus).faultStatus = s.faultStatus := by
  apply BitVec.eq_of_getLsbD_eq
  intro i hi
  have hbits : (s.setStatus s.wakeStatus).bits = s.bits := rfl
  rw [faultStatus_getLsbD _ hi, faultStatus_getLsbD _ hi, State.setStatus_status, wakeStatus_getLsbD _ hi, hbits]
  by_cases h : i = s.bits.halted.val <;> simp [h]

/-- `t` is `s` after an entry that met at `bad` a byte nothing serves, with `SP` at `sp` and the accesses `seen` made before it. -/
def State.entryFaulted (s t : State) (bad sp : Word) (seen : List DeviceEvent) : Prop :=
  s.faultedFrom t .busError bad 0 0 ∧ t.pc = s.pc ∧ t.sp = sp ∧ s.sameRegsBut t (.special .sp) ∧ s.sameFlags t ∧
    s.sameInterrupts t ∧ s.sameClock t ∧ t.env.log = s.env.log ++ seen ∧ t.env.schedule = s.env.schedule

/-- An entry that has changed `SP`, memory and the environment and cleared Halted when it meets a byte nothing serves. -/
theorem service_entryFaulted {s : State} {bad sp : Word} {seen : List DeviceEvent} {mem : Memory} {env : Env} (hp : s.ipend = true)
    (hi : s.ie = true)
    (h : enterInterrupt s = .trap .busError bad { s with status := s.wakeStatus, sp := sp, mem := mem, env := env })
    (hlog : env.log = s.env.log ++ seen) (hsched : env.schedule = s.env.schedule) :
    s.entryFaulted (service s) bad sp seen ∧ (service s).mem = mem := by
  rw [service_of_trap hp hi h]
  obtain ⟨hregs, hflags, hinterrupts, hclock⟩ := sameOffStack_of_update s s.pc sp s.faultStatus
    { latch := true, kind := .busError, opcode := 0, mode := 0, addr := s.pc, info := bad } mem env
  exact ⟨⟨⟨rfl, faultStatus_of_wakeStatus s⟩, rfl, rfl, hregs, hflags, hinterrupts, hclock, hlog, hsched⟩, rfl⟩

/-- An entry that has pushed `PC`. -/
def State.pcPushed (s : State) : State :=
  { s with status := s.wakeStatus, sp := s.sp - 4, mem := storeBytes (leBytes .qword s.pc) (s.sp - 4) s.mem }

/-- An entry that has pushed `PC` and the status word. -/
def State.framePushed (s : State) : State := { s with status := s.wakeStatus, sp := s.sp - 8, mem := s.entryMem }

theorem push_pc_ram {s : State} (h : s.ramRange (s.sp - 4) 4 = true) :
    push (s.setStatus s.wakeStatus) .qword s.pc = .ok () s.pcPushed := push_ram (s := s.setStatus s.wakeStatus) (n := .qword) s.pc h

theorem pcPushed_sp (s : State) : s.pcPushed.sp - 4#32 = s.sp - 8 := by
  show s.sp - 4 - 4#32 = s.sp - 8
  bv_omega

theorem push_status_ram {s : State} (h : s.ramRange (s.sp - 8) 4 = true) :
    push s.pcPushed .qword s.pcPushed.status = .ok () s.framePushed := by
  have hslot : s.sp - 4 = s.sp - 8 + 4 := by bv_omega
  rw [push_qword_ram (s := s.pcPushed) _ (pcPushed_sp s) h]
  simp only [State.pcPushed, State.framePushed, State.entryMem, State.setSp, State.setMem, hslot]

/-- The push of the status word, where it meets a byte nothing serves. -/
theorem push_status_unmapped {s : State} {j : Nat} (h : s.firstUnmapped (s.sp - 8) 4 j = true) :
    ∃ m e, push s.pcPushed .qword s.pcPushed.status = .trap .busError (s.sp - 8 + BitVec.ofNat 32 j)
        { s with status := s.wakeStatus, sp := s.sp - 8, mem := m, env := e } ∧
      e.schedule = s.env.schedule ∧
      e.log = s.env.log ++ s.writeEvents (addrsFrom (s.sp - 8) j) (bytesOf j s.wakeStatus.toNat) ∧
      ∀ b : Word, b ∉ addrsFrom (s.sp - 8) j → memGet m b.toNat = s.pcPushed.ramByte b := by
  obtain ⟨m, e, hpush, hsched, hlog, hmem⟩ :=
    push_unmapped (s := s.pcPushed) (n := .qword) s.pcPushed.status (j := j) ((pcPushed_sp s).symm ▸ h)
  have hsp : s.pcPushed.sp - BitVec.ofNat 32 Size.qword.bytes = s.sp - 8 := pcPushed_sp s
  rw [hsp] at hpush hlog hmem
  rw [leBytes_take (firstUnmapped_iff.1 h).1.le] at hlog
  exact ⟨m, e, hpush, hsched, hlog, fun b hb => hmem b (.inr hb)⟩

/-- Where the push of `PC` faults, the entry does. -/
theorem enterInterrupt_first_trap {s t : State} {k : FaultKind} {info : Word} (ht : s.idtSet = true)
    (h : push (s.setStatus s.wakeStatus) .qword s.pc = .trap k info t) : enterInterrupt s = .trap k info t := by
  rw [enterInterrupt, if_pos ht, h, trap_andThen]

/-- Where the push of the status word faults, the entry does. -/
theorem enterInterrupt_second_trap {s t : State} {k : FaultKind} {info : Word} (ht : s.idtSet = true)
    (h1 : s.ramRange (s.sp - 4) 4 = true) (h : push s.pcPushed .qword s.pcPushed.status = .trap k info t) :
    enterInterrupt s = .trap k info t := by
  rw [enterInterrupt, if_pos ht, push_pc_ram h1, ok_andThen, h, trap_andThen]

/-- Where the read of the descriptor faults, the entry does. -/
theorem enterInterrupt_third_trap {s t : State} {k : FaultKind} {info : Word} (ht : s.idtSet = true)
    (h8 : s.ramRange (s.sp - 8) 8 = true) (h : memRead s.framePushed (s.descriptorAddr s.iline) .qword = .trap k info t) :
    enterInterrupt s = .trap k info t := by
  have hslot : s.sp - 8 + 4 = s.sp - 4 := by bv_omega
  have h1 : s.ramRange (s.sp - 4) 4 = true := hslot ▸ ramRange_of_part (i := 4) h8 le_rfl
  rw [enterInterrupt, if_pos ht, push_pc_ram h1, ok_andThen, push_status_ram (ramRange_of_shorter h8 (by decide)), ok_andThen]
  exact congrArg (fun r => r.andThen fun v s3 => Res.ok () (s3.setPc v).clearPending) h

theorem mem_addrsFrom_mono {a b : Word} {j n : Nat} (h : b ∈ addrsFrom a j) (hj : j ≤ n) : b ∈ addrsFrom a n := by
  obtain ⟨i, hi, rfl⟩ := mem_addrsFrom.1 h
  exact mem_addrsFrom.2 ⟨i, hi.trans_le hj, rfl⟩

/-- An entry that has pushed `PC` has it in its slot, and every other byte is as before. -/
theorem pcPushed_frame {s : State} (hm : Memory.wf s.mem = true) :
    s.pcPushed.ramValue (s.sp - 4) .qword = s.pc ∧ s.sameMemoryBut s.pcPushed (s.sp - 4) 4 :=
  ⟨ramValue_storeBytes s (s.sp - 4) .qword s.pc hm, sameMemoryBut_storeBytes s (s.sp - 4) .qword s.pc⟩

/-- The `PC` slot is above what a second push can have stored. -/
theorem pcSlot_above {a b : Word} {j : Nat} (hj : j ≤ 4) (hb : b ∈ addrsFrom (a - 4) 4) : b ∉ addrsFrom (a - 8) j := by
  have hslot : a - 4 = a - 8 + BitVec.ofNat 32 4 := by bv_omega
  rw [hslot] at hb
  exact fun hbelow => addrsFrom_apart (mem_addrsFrom_mono hbelow hj) hb (by decide) rfl

/-- Settles O42: each clause by where the entry faults; what it had stored by then is `State.pcPushed`, then `State.framePushed`. -/
theorem interruptEntryStopsAtABusError : Obligations.InterruptEntryStopsAtABusError := by
  rintro s entry j hm hp hi ht rfl failed
  refine ⟨fun h => ?first, fun h1 h => ?second, fun h8 h => ?third⟩
  case first =>
    obtain ⟨m, e, hpush, hsched, hlog, hmem⟩ := push_unmapped (s := s.setStatus s.wakeStatus) (n := .qword) s.pc h
    rw [leBytes_take (firstUnmapped_iff.1 h).1.le] at hlog
    obtain ⟨hfailed, hservice⟩ := service_entryFaulted hp hi (enterInterrupt_first_trap ht hpush) hlog hsched
    exact ⟨hfailed, fun b hb => (congrArg (memGet · b.toNat) hservice).trans (hmem b (.inr hb))⟩
  case second =>
    have hj := (firstUnmapped_iff.1 h).1.le
    obtain ⟨m, e, hpush, hsched, hlog, hmem⟩ := push_status_unmapped h
    obtain ⟨hfailed, hservice⟩ := service_entryFaulted hp hi (enterInterrupt_second_trap ht h1 hpush) hlog hsched
    have hstored (b : Word) (hb : b ∉ addrsFrom (s.sp - 8) j) : (service s).ramByte b = s.pcPushed.ramByte b :=
      (congrArg (memGet · b.toNat) hservice).trans (hmem b hb)
    obtain ⟨hpc, hrest⟩ := pcPushed_frame hm
    exact ⟨hfailed, (ramValue_of_bytes fun b hb => hstored b (pcSlot_above hj hb)).trans hpc,
      fun b h4 h8 => (hstored b h8).trans (hrest b h4)⟩
  case third =>
    obtain ⟨e, hread, hsched, hlog⟩ := memRead_unmapped (s := s.framePushed) (n := .qword) h
    obtain ⟨hfailed, hservice⟩ := service_entryFaulted hp hi (enterInterrupt_third_trap ht h8 hread) hlog hsched
    have hsame (b : Word) : (service s).ramByte b = s.entered.ramByte b := congrArg (memGet · b.toNat) hservice
    obtain ⟨hstatus, hpc, hrest⟩ := entered_frame hm
    exact ⟨hfailed, (ramValue_of_bytes fun b _ => hsame b).trans hpc, (ramValue_of_bytes fun b _ => hsame b).trans hstatus,
      fun b hb => (hsame b).trans (hrest b hb)⟩

/-- A second fault of the same kind from the same place changes nothing. -/
theorem raiseFault_raiseFault (s : State) (o : Origin) (k : FaultKind) (info : Word) :
    (s.raiseFault o k info).raiseFault o k info = s.raiseFault o k info := by
  have hstatus : (s.raiseFault o k info).faultStatus = s.faultStatus := by
    apply BitVec.eq_of_getLsbD_eq
    intro i hi
    have hbits : (s.raiseFault o k info).bits = s.bits := rfl
    rw [faultStatus_getLsbD _ hi, State.raiseFault_status, faultStatus_getLsbD _ hi, hbits]
    simp [Bool.or_comm, Bool.or_left_comm]
  rw [raiseFault_eq, hstatus]
  rfl

/-- The service of an interrupt that is due while the table is unset (60_exceptions.md R185). -/
theorem service_unset {s : State} (hp : s.ipend = true) (hi : s.ie = true) (ht : s.idtSet = false) :
    service s = s.raiseFault (serviceOrigin s.pc) .idtUnset (s.iline.setWidth 32) :=
  service_of_trap hp hi (by simp [enterInterrupt, ht])

/-- Settles O44: both services raise the same fault. -/
theorem unsetTableFaultsAndRepeats : Obligations.UnsetTableFaultsAndRepeats := by
  intro s hp hi ht
  have hfirst := service_unset hp hi ht
  refine ⟨hfirst, ?_⟩
  rw [hfirst]
  exact (service_unset (s := s.raiseFault _ _ _) hp hi ht).trans (raiseFault_raiseFault s _ _ _)

end Sys2Proof.Machine
end

section
/-! SUPPORT. Ticks (60_exceptions.md R174 to R187): what the outside actions between two ticks can change, a tick of a halted machine,
the clock, and an interrupt that is due in the tick. -/

namespace Sys2Proof.Machine

/-! ## The actions of outside agents (60_exceptions.md R181, R192, R198) -/

theorem applyActions_append (as bs : List HostAction) (s : State) :
    applyActions (as ++ bs) s = applyActions bs (applyActions as s) := by
  induction as generalizing s with
  | nil => rfl
  | cons a as ih => exact ih (applyAction s a)

/-- The state with the actions of outside agents that are still to come replaced. -/
def State.withSchedule (s : State) (acts : List (List HostAction)) : State := s.setEnv { s.env with schedule := acts }

theorem applyDue_none {s : State} (h : s.env.schedule = []) : applyDue s = s := by simp only [applyDue, h]

theorem applyDue_some {s : State} {acts : List HostAction} {rest : List (List HostAction)} (h : s.env.schedule = acts :: rest) :
    applyDue s = applyActions acts (s.withSchedule rest) := by simp only [applyDue, h, State.withSchedule]

/-- All that an outside agent's action other than the reset can change: `STATUS`, the interrupt slot and the clock, which it does not
start again once it is stopped. -/
theorem applyAction_frame {a : HostAction} (ha : a ≠ .reset) (s : State) :
    ∃ status ipend iline clkHalt clkStop, applyAction s a = { s with
        status := status
        ipend := ipend
        iline := iline
        clkHalt := clkHalt
        clkStop := clkStop } ∧
      (s.clkStop = true → clkStop = true) := by
  cases a with
  | raise line => exact ⟨_, _, _, _, _, raiseLine_eq s line, id⟩
  | clockHalt | clockResume => exact ⟨_, _, _, _, _, rfl, id⟩
  | clockStop => exact ⟨_, _, _, _, _, rfl, fun _ => rfl⟩
  | status b v => cases v <;> exact ⟨_, _, _, _, _, rfl, id⟩
  | reset => exact absurd rfl ha

/-- Of two raises that follow each other the slot holds the second. -/
theorem raiseLine_raiseLine (s : State) (l m : Byte) : (s.raiseLine l).raiseLine m = s.raiseLine m := by
  cases h : s.ie <;> simp [State.raiseLine, h]

/-- Settles O51: each raise replaces the one before it (`raiseLine_raiseLine`). -/
theorem raiseKeepsOnlyTheLastLine : Obligations.RaiseKeepsOnlyTheLastLine := by
  intro s lines line
  induction lines generalizing s with
  | nil => rfl
  | cons l lines ih => exact (ih (s.raiseLine l)).trans (raiseLine_raiseLine s l line)

/-! ## The clock (60_exceptions.md R187, R192) -/

theorem clocked_held {s : State} (h : s.clkStop = true ∨ s.clkHalt = true) : clocked s = .next s := by
  rw [clocked, if_pos (by simpa using h)]

theorem clocked_running {s : State} (hstop : s.clkStop = false) (hhalt : s.clkHalt = false) : clocked s = tick s := by
  simp [clocked, hstop, hhalt]

/-- Settles O50: a halted clock makes no tick, and the resume is all that is done before the next one. -/
theorem haltedClockFreezesTheMachine : Obligations.HaltedClockFreezesTheMachine := by
  intro s hstop hhalt
  refine ⟨fun h => ?_, fun h => ?_⟩
  · rw [step_clocked (.inl hstop), applyDue_none h, clocked_held (.inr hhalt)]
  · rw [step_clocked (.inl hstop), applyDue_some h]
    exact clocked_running hstop rfl

theorem applyActions_schedule (acts : List HostAction) (s : State) : (applyActions acts s).env.schedule = s.env.schedule := by
  refine applyActions_holds (P := fun u => u.env.schedule = s.env.schedule) acts (fun a _ u hu => ?_) rfl
  by_cases hr : a = .reset
  · exact hr ▸ hu
  · obtain ⟨_, _, _, _, _, hframe, -⟩ := applyAction_frame hr u
    rw [hframe]
    exact hu

/-- A stop of the clock lasts, but for a reset after it. -/
theorem applyActions_clockStop {before after : List HostAction} (h : .reset ∉ after) (s : State) :
    (applyActions (before ++ .clockStop :: after) s).clkStop = true := by
  rw [applyActions_append]
  refine applyActions_holds (P := fun u => u.clkStop = true) after (fun a ha u hu => ?_) rfl
  obtain ⟨_, _, _, _, _, hframe, hkeeps⟩ := applyAction_frame (fun e => h (e ▸ ha)) u
  rw [hframe]
  exact hkeeps hu

/-- Settles O49: the clock stays stopped (`applyActions_clockStop`), and the actions of the gap, but for a reset, change what
`applyAction_frame` names alone. -/
theorem stoppedClockLeavesItsStateReadable : Obligations.StoppedClockLeavesItsStateReadable := by
  intro s before after rest hsched hafter
  have hstop := applyActions_clockStop (before := before) hafter (s.withSchedule rest)
  have hleft : (applyActions (before ++ .clockStop :: after) (s.withSchedule rest)).env.schedule = rest := applyActions_schedule _ _
  refine ⟨applyActions (before ++ .clockStop :: after) (s.withSchedule rest), rfl, ?_, hstop, fun hbefore => ?_, fun hrest => ?_,
    fun acts more hrest => ?_⟩
  · rw [step_clocked (.inr (by simp [hsched])), applyDue_some hsched]
    exact clocked_held (.inl hstop)
  · refine applyActions_holds
      (P := fun u => u.ticks = s.ticks ∧ u.gpr = s.gpr ∧ u.pc = s.pc ∧ s.sameMemory u ∧ u.fault = s.fault) _
      (fun a ha u hu => ?_) ⟨rfl, rfl, rfl, sameMemory_of rfl, rfl⟩
    have hreset : a ≠ .reset := by
      rintro rfl
      simp [hbefore, hafter] at ha
    obtain ⟨_, _, _, _, _, hframe, -⟩ := applyAction_frame hreset u
    rw [hframe]
    exact hu
  · exact step_stopped hstop (hleft.trans hrest)
  · exact step_clocked (.inr (by rw [hleft, hrest]; nofun))

/-! ## What a tick keeps of the clock and the schedule -/

theorem busKeeps_sameClock (s : State) : BusKeeps s.sameClock where
  mem := fun _ _ _ _ h => h
  env := fun _ _ _ h => h

/-- The instruction of a tick, or the fault of its fetch, does not reach the clock (10_state.md R28). -/
theorem stepInstr_sameClock {s t : State} (h : stepInstr s = .next t) : s.sameClock t := by
  unfold stepInstr at h
  split at h
  · injection h with h
    exact h ▸ ⟨rfl, rfl, rfl, rfl⟩
  · have hfetch := fetchScript_holds (busKeeps_sameClock s) (decodeScript s.config.encoding) s.pc [] ⟨rfl, rfl, rfl, rfl⟩
    unfold fetchInstr at h
    cases hf : fetchScript (decodeScript s.config.encoding) s.pc [] s with
    | instr i u =>
      rw [hf] at h hfetch
      obtain ⟨hticks, hhalt, hstop, hconfig⟩ := hfetch
      obtain ⟨hticks', hhalt', hstop', hconfig'⟩ := exec_clock h
      exact ⟨hticks'.trans hticks, hhalt'.trans hhalt, hstop'.trans hstop, hconfig'.trans hconfig⟩
    | fault k info seen u =>
      rw [hf] at h hfetch
      injection h with h
      exact h ▸ hfetch.1

theorem service_sameClock (s : State) : s.sameClock (service s) := by
  unfold service
  split
  · have hentry := enterInterrupt_holds (busKeeps_sameClock s) (fun _ _ h => h) (fun _ _ h => h) (fun _ _ h => h) (fun _ h => h)
      ⟨rfl, rfl, rfl, rfl⟩
    cases hm : enterInterrupt s with
    | ok u t => rw [hm] at hentry; exact hentry
    | trap k info t => rw [hm] at hentry; exact hentry.1
  · exact ⟨rfl, rfl, rfl, rfl⟩

theorem shutdownCheck_clkStop (s : State) : (shutdownCheck s).clkStop = (s.clkStop || !(shutdownCheck s).on) := by
  cases h : s.on with
  | true => simp [shutdownCheck_on h, h]
  | false =>
    have hstopped : shutdownCheck s = s.stopClock := by simp [shutdownCheck, h]
    have hoff : s.stopClock.on = false := h
    rw [hstopped, hoff]
    exact (Bool.or_true _).symm

/-- A tick stops the clock exactly where it ends with On clear (60_exceptions.md R187). -/
theorem tick_clkStop {s t : State} (h : tick s = .next t) : t.clkStop = (s.clkStop || !t.on) := by
  obtain ⟨u, hu, rfl⟩ := tick_eq h
  obtain ⟨-, -, hstep, -⟩ := stepInstr_sameClock hu
  obtain ⟨-, -, hservice, -⟩ := service_sameClock u
  rw [shutdownCheck_clkStop, hservice, hstep]
  rfl

theorem tickKeeps_schedule (acts : List (List HostAction)) : TickKeeps fun u => u.env.schedule = acts where
  mem := fun _ _ _ _ h => h
  env := fun _ _ he h => he.trans h
  reg := fun s r w h => (congrArg Env.schedule (s.writeReg_env r w)).trans h
  gpr := fun _ _ _ h => h
  special := fun s r w h => (congrArg Env.schedule (s.setSpecial_env r w)).trans h
  pc := fun _ _ h => h
  sp := fun _ _ h => h
  raise := fun s r h => (congrArg Env.schedule (handlerRaise_env s r)).trans h
  flags := fun _ _ h => h
  clocks := fun _ _ h => h
  status := fun _ _ h => h
  ie := fun _ _ h => h
  idt := fun _ _ h => h
  clear := fun _ h => h
  fault := fun _ _ _ _ _ h => h
  count := fun _ h => h
  stop := fun _ h => h

/-- No tick takes anything off the schedule. -/
theorem tick_schedule {s t : State} (h : tick s = .next t) : t.env.schedule = s.env.schedule :=
  tick_holds (tickKeeps_schedule s.env.schedule) rfl h

/-- Settles O48, by `tick_clkStop`. -/
theorem clearedOnStopsTheClock : Obligations.ClearedOnStopsTheClock := by
  intro s t hsched hstop hhalt hstep
  rw [step_clocked (.inl hstop), applyDue_none hsched, clocked_running hstop hhalt] at hstep
  have hclk : t.clkStop = !t.on := by rw [tick_clkStop hstep, hstop, Bool.false_or]
  refine ⟨fun hoff => ?_, fun hon => by rw [hclk, hon]; rfl⟩
  have hstopped : t.clkStop = true := by rw [hclk, hoff]; rfl
  exact ⟨hstopped, step_stopped hstopped ((tick_schedule hstep).trans hsched)⟩

/-! ## A tick of a halted machine (60_exceptions.md R175) -/

/-- A tick of a halted machine runs no instruction: it goes on with the service. -/
theorem tick_halted {s : State} (h : s.halted = true) : tick s = .next (shutdownCheck (service s.countTick)) := by
  have hh : s.countTick.halted = true := h
  simp only [tick, stepInstr, hh, if_true, finishTick]

/-- A tick of a halted machine with no interrupt due only counts. -/
theorem tick_halted_idle {s : State} (h : s.halted = true) (hon : s.on = true) (hi : (s.ipend && s.ie) = false) :
    tick s = .next s.countTick := by
  have hidle : service s.countTick = s.countTick := service_idle hi
  rw [tick_halted h, hidle, shutdownCheck_on]
  exact hon

theorem run_succ {s t : State} (h : step s = .next t) (k : Nat) : Sys2Proof.core.run (k + 1) s = Sys2Proof.core.run k t := by
  have hcore : Sys2Proof.core.step s = .next t := h
  simp only [Host.Core.run, hcore]

/-- Settles O46, by induction on the number of ticks. -/
theorem haltedMachineOnlyCountsTicks : Obligations.HaltedMachineOnlyCountsTicks := by
  intro s k hh hon hi hstop hhalt hsched
  induction k generalizing s with
  | zero => rfl
  | succ k ih =>
    have hstep : step s = .next s.countTick := by
      rw [step_clocked (.inl hstop), applyDue_none hsched, clocked_running hstop hhalt, tick_halted_idle hh hon hi]
    rw [run_succ hstep, ih s.countTick hh hon hi hstop hhalt hsched, Nat.add_comm k, ← Nat.add_assoc]
    rfl

/-- At rest with its clock running a machine is halted and On, and no interrupt can arrive. -/
theorem atRest_iff {s : State} (hstop : s.clkStop = false) :
    s.atRest = true ↔ s.on = true ∧ s.halted = true ∧ s.noInterruptCanArrive = true := by
  unfold State.atRest State.runState
  cases s.on with
  | false => simp [hstop]
  | true => cases s.halted with
    | false => simp [hstop]
    | true => cases s.fault.latch <;> simp [hstop]

/-- Raises that find interrupts disabled change nothing. -/
theorem applyActions_raises_disabled {acts : List HostAction} {s : State} (hi : s.ie = false) (h : ∀ a ∈ acts, a.isRaise = true) :
    applyActions acts s = s := by
  refine applyActions_holds (P := fun u => u = s) acts (fun a ha u hu => ?_) rfl
  subst hu
  cases a with
  | raise line => simp [applyAction, State.raiseLine, hi]
  | clockHalt | clockResume | clockStop | status | reset => exact absurd (h _ ha) nofun

theorem withSchedule_none {s : State} (h : s.env.schedule = []) : s.withSchedule [] = s := by
  rw [State.withSchedule, ← h]
  rfl

/-- Of an environment that at most raises lines, the actions due change nothing where no interrupt can arrive. -/
theorem applyDue_noInterrupt {s : State} (hraise : ∀ acts ∈ s.env.schedule, ∀ a ∈ acts, a.isRaise = true)
    (hi : s.noInterruptCanArrive = true) : applyDue s = s.withSchedule s.env.schedule.tail := by
  cases hsched : s.env.schedule with
  | nil => rw [applyDue_none hsched, List.tail_nil, withSchedule_none hsched]
  | cons acts rest =>
    rw [applyDue_some hsched, List.tail_cons]
    have hraises : ∀ a ∈ acts, a.isRaise = true := hraise acts (hsched ▸ List.mem_cons_self)
    cases hie : s.ie with
    | false => exact applyActions_raises_disabled hie hraises
    | true =>
      have hnone : ∀ a ∈ acts, a.isRaise = false := by
        simp only [State.noInterruptCanArrive, hie, hsched, List.all_cons, Bool.not_true, Bool.false_or, Bool.and_eq_true,
          List.all_eq_true, Bool.not_eq_true'] at hi
        exact hi.2.1
      cases acts with
      | nil => rfl
      | cons a acts => exact absurd ((hraises a List.mem_cons_self).symm.trans (hnone a List.mem_cons_self)) nofun

/-- No interrupt can arrive later either. -/
theorem noInterruptCanArrive_tail {s : State} (h : s.noInterruptCanArrive = true) :
    (s.withSchedule s.env.schedule.tail).noInterruptCanArrive = true := by
  simp only [State.noInterruptCanArrive, Bool.or_eq_true, Bool.and_eq_true, List.all_eq_true] at h ⊢
  exact h.imp_right fun ⟨hpend, hall⟩ => ⟨hpend, fun acts ha => hall acts (List.mem_of_mem_tail ha)⟩

theorem notDue_of_noInterruptCanArrive {s : State} (h : s.noInterruptCanArrive = true) : (s.ipend && s.ie) = false := by
  simp only [State.noInterruptCanArrive, Bool.or_eq_true, Bool.and_eq_true, Bool.not_eq_true'] at h
  rcases h with hie | ⟨hpend, -⟩
  · rw [hie, Bool.and_false]
  · rw [hpend, Bool.false_and]

/-- Settles O47: the actions due change nothing (`applyDue_noInterrupt`), and the tick is that of a halted machine. -/
theorem restingMachineStaysAtRest : Obligations.RestingMachineStaysAtRest := by
  intro s hrest hstop hhalt hraise
  obtain ⟨hon, hh, hi⟩ := (atRest_iff hstop).1 hrest
  have hlater := noInterruptCanArrive_tail hi
  have hnext : step s = .next (s.withSchedule s.env.schedule.tail).countTick := by
    rw [step_clocked (.inl hstop), applyDue_noInterrupt hraise hi,
      clocked_running (s := s.withSchedule s.env.schedule.tail) hstop hhalt,
      tick_halted_idle (s := s.withSchedule s.env.schedule.tail) hh hon (notDue_of_noInterruptCanArrive hlater)]
  exact ⟨hnext, (atRest_iff (s := (s.withSchedule s.env.schedule.tail).countTick) hstop).2 ⟨hon, hh, hlater⟩⟩

/-! ## An interrupt that is due in the tick (60_exceptions.md R174, R186) -/

/-- The end of a tick in which an interrupt is due, over a stack and a table in RAM: the entry, and the clock goes on where On is set. -/
theorem shutdownCheck_service_ram {s : State} (hw : s.encoding.wf = true) (hon : s.on = true) (hp : s.ipend = true)
    (hi : s.ie = true) (ht : s.idtSet = true) (hs : s.ramRange (s.sp - 8) 8 = true)
    (hd : s.ramRange (s.descriptorAddr s.iline) 4 = true) : shutdownCheck (service s) = s.entered := by
  rw [service_ram hp hi ht hs hd]
  exact shutdownCheck_on ((entered_on hw).trans hon)

/-- A tick of a halted machine in which an interrupt is due, over a stack and a table in RAM, wakes it. -/
theorem tick_halted_due {s : State} (hh : s.halted = true) (hw : s.encoding.wf = true) (hon : s.on = true) (hp : s.ipend = true)
    (hi : s.ie = true) (ht : s.idtSet = true) (hs : s.ramRange (s.sp - 8) 8 = true)
    (hd : s.ramRange (s.descriptorAddr s.iline) 4 = true) : tick s = .next s.countTick.entered := by
  have hend : shutdownCheck (service s.countTick) = s.countTick.entered := shutdownCheck_service_ram hw hon hp hi ht hs hd
  rw [tick_halted hh, hend]

/-- A halted machine at the service of its tick, where `line` has been raised before it and nothing is scheduled after it. -/
def State.awaited (s : State) (line : Byte) : State :=
  { s with ipend := true, iline := line, ticks := s.ticks + 1, env := { s.env with schedule := [] } }

/-- A raise that finds interrupts enabled wakes a halted machine in the tick after it, over a stack and a table in RAM. -/
theorem step_raise_halted {s : State} {line : Byte} (hw : s.encoding.wf = true) (hh : s.halted = true) (hon : s.on = true)
    (hi : s.ie = true) (ht : s.idtSet = true) (hstop : s.clkStop = false) (hhalt : s.clkHalt = false)
    (hsched : s.env.schedule = [[.raise line]]) (hs : s.ramRange (s.sp - 8) 8 = true)
    (hd : s.ramRange (s.descriptorAddr line) 4 = true) : step s = .next (s.awaited line).entered := by
  have hraise : (s.withSchedule []).raiseLine line = { s.withSchedule [] with ipend := true, iline := line } := if_pos hi
  have hdue : applyDue s = { s.withSchedule [] with ipend := true, iline := line } := (applyDue_some hsched).trans hraise
  rw [step_clocked (.inl hstop), hdue, clocked_running (by exact hstop) (by exact hhalt)]
  exact tick_halted_due hh hw hon rfl hi ht hs hd

/-- Settles O45, by `step_raise_halted`. -/
theorem raisedLineWakesHaltedMachine : Obligations.RaisedLineWakesHaltedMachine := by
  intro s line hm hw hh hon hi ht hstop hhalt hsched hs hd
  obtain ⟨hstatus, hpc, hrest⟩ := entered_frame (s := s.awaited line) hm
  exact ⟨_, step_raise_halted hw hh hon hi ht hstop hhalt hsched hs hd, entered_pc (s.awaited line), entered_halted (s.awaited line),
    (entered_on (s := s.awaited line) hw).trans hon, rfl, hpc, hstatus, rfl, rfl, hi, rfl, rfl,
    sameRegsBut_sp_of rfl rfl rfl rfl rfl, ⟨rfl, rfl⟩, hrest, rfl, rfl, hhalt, hstop, rfl, rfl⟩

/-- Settles O5: RAM holds the instruction at `PC`, so it is the one fetched. -/
theorem stepRunsDecodedInstruction : Obligations.StepRunsDecodedInstruction := by
  intro s i bs hready hdec hram
  have hh : s.countTick.halted = false := halted_of_ready hready
  have hf : fetchInstr s.countTick = .instr i s.countTick := fetchInstr_ram hdec ((ramHolds_countTick s s.pc bs).trans hram)
  simp only [step_ready hready, tick, stepInstr, hh, hf, Bool.false_eq_true, if_false]

/-- `t` is `s` after a tick whose fetch faulted with the bytes `seen` fetched and `PC` left at `pc`, and an interrupt entry in the same
tick, by the descriptor at `entry`. -/
def State.faultedThenEntered (s t : State) (entry : Word) (k : FaultKind) (info : Word) (seen : List Byte) (pc : Word) : Prop :=
  t.fault = { latch := true, kind := k, opcode := seen.headD 0, mode := seen.tail.headD 0, addr := s.pc, info := info } ∧
    t.status = s.status ||| (1#32 <<< s.encoding.status.fault.val) ∧ t.halted = false ∧ t.pc = t.ramValue entry .qword ∧
    t.sp = s.sp - 8 ∧ t.ramValue (s.sp - 8) .qword = t.status ∧ t.ramValue (s.sp - 4) .qword = pc ∧
    t.ipend = false ∧ t.iline = s.iline ∧ t.ie = true ∧ t.idtBase = s.idtBase ∧ t.idtSet = true ∧
    s.sameRegsBut t (.special .sp) ∧ s.sameFlags t ∧ s.sameMemoryBut t (s.sp - 8) 8 ∧ t.ticks = s.ticks + 1 ∧
    t.clkHalt = s.clkHalt ∧ t.clkStop = s.clkStop ∧ t.config = s.config ∧ t.env.schedule = s.env.schedule

/-- What an entry clears is what a fault has set: the status word the entry saves has Fault set and Halted as before the fault. -/
theorem wakeStatus_of_faultedFrom {s t : State} {k : FaultKind} {info : Word} {opcode mode : Byte} (hw : s.encoding.wf = true)
    (hh : s.halted = false) (h : s.faultedFrom t k info opcode mode) (hconfig : t.config = s.config) :
    t.wakeStatus = s.status ||| (1#32 <<< s.encoding.status.fault.val) := by
  rw [← raiseFault_wakeStatus ⟨opcode, mode, s.pc⟩ k info hw hh, State.wakeStatus, h.2, State.bits, hconfig]
  rfl

/-- An entry after a fault of the fetch, which has changed no more than `PC`, `STATUS`, the record and the environment. -/
theorem faultedThenEntered_of_fetchFaulted {s t : State} {k : FaultKind} {info : Word} {seen : List Byte} {env : Env}
    (h : s.FetchFaulted t k info seen env) (hw : s.encoding.wf = true) (hh : s.halted = false) (hm : Memory.wf t.mem = true)
    (hi : s.ie = true) (ht : s.idtSet = true) (hsched : env.schedule = s.env.schedule) :
    s.faultedThenEntered t.entered (s.descriptorAddr s.iline) k info seen (s.pc + BitVec.ofNat 32 seen.length) := by
  obtain ⟨hie, -, hiline, hbase, hset⟩ := h.interrupts
  have hstatus := wakeStatus_of_faultedFrom hw hh h.faulted h.config
  have hsp : t.sp = s.sp := h.regs (.special .sp) (by decide)
  have hentry : t.descriptorAddr t.iline = s.descriptorAddr s.iline := by rw [State.descriptorAddr, hbase, hiline, State.descriptorAddr]
  obtain ⟨hframe, hpc, hrest⟩ := entered_frame hm
  rw [hsp] at hframe hpc hrest
  exact ⟨h.faulted.1, hstatus, entered_halted t, hentry ▸ entered_pc t, congrArg (· - 8) hsp, hframe, hpc.trans h.pc, rfl, hiline,
    hie.trans hi, hbase, hset.trans ht, fun q ha hq => (entered_sameRegsBut t q ha hq).trans (h.regs q hq), h.flags,
    fun b hb => (hrest b hb).trans (h.memory b), h.ticks, h.clkHalt, h.clkStop, h.config,
    (congrArg Env.schedule h.env).trans hsched⟩

/-- A tick whose fetch faults while an interrupt is due, over a stack and a table in RAM. -/
theorem step_fetchFault_entered {s : State} {k : FaultKind} {info : Word} {seen : List Byte} {env : Env} (hr : s.ready = true)
    (hon : s.on = true) (hw : s.encoding.wf = true) (hm : Memory.wf s.mem = true) (hp : s.ipend = true) (hi : s.ie = true)
    (ht : s.idtSet = true) (hs : s.ramRange (s.sp - 8) 8 = true) (hd : s.ramRange (s.descriptorAddr s.iline) 4 = true)
    (hf : fetchInstr s.countTick = .fault k info seen (s.countTick.setEnv env)) (hsched : env.schedule = s.env.schedule) :
    ∃ t, step s = .next t ∧
      s.faultedThenEntered t (s.descriptorAddr s.iline) k info seen (s.pc + BitVec.ofNat 32 seen.length) ∧ t.env = env := by
  have hend : shutdownCheck (service (fetchFault k info seen (s.countTick.setEnv env))) =
      (fetchFault k info seen (s.countTick.setEnv env)).entered :=
    shutdownCheck_service_ram hw (raiseFault_on _ _ _ hon) hp hi ht hs hd
  exact ⟨_, (step_of_fetchFault hr hf).trans (congrArg _ hend),
    faultedThenEntered_of_fetchFaulted (fetchFaulted_of_countTick s k info seen env) hw (halted_of_ready hr) hm hi ht hsched, rfl⟩

/-- Settles O59: each fault of the fetch, as in O6 to O8, and then `step_fetchFault_entered`. -/
theorem fetchFaultThenDueInterrupt : Obligations.FetchFaultThenDueInterrupt := by
  rintro s entry hr hon hw hm hp hi ht hs rfl hd entered
  refine ⟨fun bs e hdec hne hlast hram => ?encoding, fun hmapped => ?opcode,
    fun i m j n seen field hwf hn hseen hfield hram hu => ?field⟩
  case encoding =>
    exact step_fetchFault_entered hr hon hw hm hp hi ht hs hd
      (fetchInstr_reject (s := s.countTick) hne hdec hlast ((ramHolds_countTick s s.pc bs).trans hram)) rfl
  case opcode =>
    have hmain := step_fetchFault_entered hr hon hw hm hp hi ht hs hd (fetchInstr_opcode_unmapped (s := s.countTick) hmapped)
      (env := s.env) rfl
    rwa [List.length_nil, BitVec.add_zero] at hmain
  case field =>
    obtain ⟨env, hf, hsched, hlog⟩ := fetchInstr_field_unmapped (s := s.countTick) hw hwf hn hseen hfield
      ((ramHolds_countTick s s.pc seen).trans hram) hu
    obtain ⟨t, hstep, hentered, henv⟩ := step_fetchFault_entered hr hon hw hm hp hi ht hs hd hf hsched
    exact ⟨t, hstep, hfield ▸ hentered, henv ▸ hlog⟩

end Sys2Proof.Machine
end
